-- ==== Sys2Proof/Word.lean ====
section
/-! DEFINITION. The bit-vector types of the block (00_scope.md R8): every value is unsigned. -/

namespace Sys2Proof

/-- A byte, 8 bits (R8). -/
abbrev Byte := BitVec 8

/-- A half-word, 16 bits (R8). -/
abbrev Half := BitVec 16

/-- A host word, 32 bits (R8). -/
abbrev Word := BitVec 32

end Sys2Proof
end

