-- ==== Sys2Proof/Syntax.lean ====
section
/-! DEFINITION. The command set (30_encoding.md R80 to R82): one constructor of `Instr` for each row of
spec/opcode_table.json, its operands the fields of the row's format (R81, R83). -/

namespace Sys2Proof

/-- The buffer a command works on: `SEL` 0 is TXBUF and 1 is RXBUF (40_crc.md R104). -/
inductive BufSel where
  | tx
  | rx
  deriving DecidableEq, Repr

/-- The allocated opcodes, `OPC = cmd[31:24]` (R82). -/
inductive Opcode where
  | crcInit | crcByte | crcBuf | encRaw | encWords | decodeBuf | openLine | closeLine | xfer
  deriving DecidableEq, Repr

/-- A command of the block (R82). -/
inductive Instr where
  /-- `CRC_INIT` (R102). -/
  | crcInit
  /-- `CRC_BYTE b` (R103). -/
  | crcByte (b : Byte)
  /-- `CRC_BUF TX|RX, n` (R104). -/
  | crcBuf (sel : BufSel) (n : BitVec 9)
  /-- `ENC_RAW n, addr, fc` (R111). -/
  | encRaw (n : Byte) (addr : Byte) (fc : Byte)
  /-- `ENC_WORDS addr, fc` (R112). -/
  | encWords (addr : Byte) (fc : Byte)
  /-- `DECODE` (R125). -/
  | decodeBuf
  /-- `OPEN baud, parity` (R140): the raw fields `BAUDSEL` and `PARITY`. -/
  | openLine (baud : BitVec 3) (parity : BitVec 2)
  /-- `CLOSE` (R141). -/
  | closeLine
  /-- `XFER expect` (R143). -/
  | xfer (expect : Bool)
  deriving DecidableEq, Repr

end Sys2Proof
end

