-- ==== Sys2Proof/WellFormed.lean ====
section
/-! DEFINITION. Which commands have legal field values (30_encoding.md R84, R89): every field has
exactly its width by type, so the only checks are OPEN's BAUDSEL and PARITY. -/

namespace Sys2Proof

/-- BAUDSEL 5, 6 and 7 are illegal (R84, R89). -/
def legalBaud (b : BitVec 3) : Bool := b.toNat ≤ 4

/-- PARITY 3 is illegal (R84, R89). -/
def legalParity (p : BitVec 2) : Bool := p.toNat ≤ 2

/-- The value checks of R84. A length beyond its buffer is no encoding check: it is BAD_LENGTH when the
command runs (R104, R111). -/
def WellFormed : Instr → Bool
  | .crcInit => true
  | .crcByte _ => true
  | .crcBuf _ _ => true
  | .encRaw _ _ _ => true
  | .encWords _ _ => true
  | .decodeBuf => true
  | .openLine baud parity => legalBaud baud && legalParity parity
  | .closeLine => true
  | .xfer _ => true

end Sys2Proof
end

