-- ==== Sys2Proof/Decode.lean ====
section
/-! DEFINITION. Decoding a command word (30_encoding.md R80 to R86) and encoding a command, each written
from the spec's tables. -/

namespace Sys2Proof

/-- Why a word is no command: both are reported as BAD_COMMAND (R84, R85). -/
inductive DecodeError where
  /-- The opcode is not in the table of R82 (R85). -/
  | unallocatedOpcode
  /-- A bit the format marks 0 is 1 (R84). -/
  | reservedBit
  deriving DecidableEq, Repr

/-- The opcode's number (R82). -/
def Opcode.bits : Opcode → Byte
  | .crcInit => 0x01#8
  | .crcByte => 0x02#8
  | .crcBuf => 0x03#8
  | .encRaw => 0x10#8
  | .encWords => 0x11#8
  | .decodeBuf => 0x20#8
  | .openLine => 0x30#8
  | .closeLine => 0x31#8
  | .xfer => 0x32#8

/-- The opcode map of R82; every other value is unallocated (R85). -/
def opcodeOf (b : Byte) : Option Opcode :=
  if b = 0x01#8 then some .crcInit
  else if b = 0x02#8 then some .crcByte
  else if b = 0x03#8 then some .crcBuf
  else if b = 0x10#8 then some .encRaw
  else if b = 0x11#8 then some .encWords
  else if b = 0x20#8 then some .decodeBuf
  else if b = 0x30#8 then some .openLine
  else if b = 0x31#8 then some .closeLine
  else if b = 0x32#8 then some .xfer
  else none

/-- `legal_mask(OPC)` of R86: the opcode's bits and the operand bits of its format. -/
def legalMask : Opcode → Word
  | .crcInit => 0xFF000000#32
  | .crcByte => 0xFF0000FF#32
  | .crcBuf => 0xFF0101FF#32
  | .encRaw => 0xFFFFFFFF#32
  | .encWords => 0xFF00FFFF#32
  | .decodeBuf => 0xFF000000#32
  | .openLine => 0xFF000037#32
  | .closeLine => 0xFF000000#32
  | .xfer => 0xFF000001#32

/-- `SEL = cmd[16]`: 0 selects TXBUF, 1 RXBUF (R83, R104). -/
def selOf (b : Bool) : BufSel := if b then .rx else .tx

/-- The command an allocated opcode and its operand bits stand for (R83). -/
def operands (op : Opcode) (w : Word) : Instr :=
  match op with
  | .crcInit => .crcInit
  | .crcByte => .crcByte (w.extractLsb' 0 8)
  | .crcBuf => .crcBuf (selOf (w.getLsbD 16)) (w.extractLsb' 0 9)
  | .encRaw => .encRaw (w.extractLsb' 16 8) (w.extractLsb' 8 8) (w.extractLsb' 0 8)
  | .encWords => .encWords (w.extractLsb' 8 8) (w.extractLsb' 0 8)
  | .decodeBuf => .decodeBuf
  | .openLine => .openLine (w.extractLsb' 0 3) (w.extractLsb' 4 2)
  | .closeLine => .closeLine
  | .xfer => .xfer (w.getLsbD 0)

/-- Decoding, total on all words: the opcode selects the command (R80), a 1 in a reserved bit makes it
illegal (R84). The value checks on OPEN's fields are `WellFormed`'s; OPEN itself raises BAD_COMMAND on
them (R140). DEDUCED, safe (log 10). -/
def decode (w : Word) : Except DecodeError Instr :=
  match opcodeOf (w.extractLsb' 24 8) with
  | none => .error .unallocatedOpcode
  | some op => if w &&& ~~~(legalMask op) = 0#32 then .ok (operands op w) else .error .reservedBit

/-- The bit `SEL` (R104). -/
def BufSel.bit : BufSel → BitVec 1
  | .tx => 0#1
  | .rx => 1#1

/-- The command word of a command: the formats of R81, most significant field first. -/
def encode : Instr → Word
  | .crcInit => Opcode.crcInit.bits ++ 0#24
  | .crcByte b => Opcode.crcByte.bits ++ 0#16 ++ b
  | .crcBuf sel n => Opcode.crcBuf.bits ++ 0#7 ++ sel.bit ++ 0#7 ++ n
  | .encRaw n addr fc => Opcode.encRaw.bits ++ n ++ addr ++ fc
  | .encWords addr fc => Opcode.encWords.bits ++ 0#8 ++ addr ++ fc
  | .decodeBuf => Opcode.decodeBuf.bits ++ 0#24
  | .openLine baud parity => Opcode.openLine.bits ++ 0#18 ++ parity ++ 0#1 ++ baud
  | .closeLine => Opcode.closeLine.bits ++ 0#24
  | .xfer expect => Opcode.xfer.bits ++ 0#23 ++ BitVec.ofBool expect

/-- The instruction the decoder reads from a word of the opcode table, the bits above `nbits` zero: a
command is one 32-bit word (R80), so its bits are the word's. -/
def decodeTableWord (nbits w : Nat) : Option Instr :=
  match decode (BitVec.ofNat 32 (w % 2 ^ nbits)) with
  | .ok i => some i
  | .error _ => none

end Sys2Proof
end

