-- ==== Sys2Proof/Config.lean ====
section
/-! DEFINITION. The configuration parameters of 00_scope.md R5 as a structure, and the parameters and
free values the spec leaves open, as constants without a body. A machine's parameters are the field
`cfg` of its state (log 9); their default values stand in Machine/Params.lean. -/

namespace Sys2Proof

/-- The configuration parameters of R5 whose values are the source's literals, durations in milliseconds
(D39, I13). `BAUD_SET` and `PARITY_SET` are the types `BaudSel` and `Parity`; `TX_CAP` and `RX_CAP` are
`Machine.txCap` and `Machine.rxCap`; `FIFO_CAP` is `Config.fifoCap`. -/
structure Params where
  /-- `DATA_BITS`, data bits of one character. -/
  dataBits : Nat
  /-- `STOP_BITS`, stop bits of one character. -/
  stopBits : Nat
  /-- `START_CHARS`, the characters the start timeout allows for. -/
  startChars : Nat
  /-- `BITS_PER_CHAR`, used only in the start-timeout formula (90_conflicts.md C3). -/
  bitsPerChar : Nat
  /-- `MIN_START_TIMEOUT` in milliseconds. -/
  minStartTimeoutMs : Nat
  /-- `READ_DEADLINE` in milliseconds. -/
  readDeadlineMs : Nat
  /-- `SILENCE` in milliseconds. -/
  silenceMs : Nat
  /-- `MIN_FRAME`, the shortest frame whose CRC is checked. -/
  minFrame : Nat
  /-- `CRC_INIT`, the accumulator's initial value. -/
  crcInit : Half
  /-- `CRC_POLY_REFLECTED`. -/
  crcPoly : Half
  deriving DecidableEq, Repr

namespace Config

/-- How far `FIFO_CAP` exceeds 1 (R5, D9, I11). DESIGN CHOICE, safe (log 7): no body, so a claim
holds for every capacity. -/
opaque fifoCapExtra : Nat

/-- `FIFO_CAP`, the capacity of the line input FIFO: an integer that is at least 1 (R5, D9). -/
def fifoCap : Nat := fifoCapExtra + 1

/-- The byte the line supplies, or none, on a Tick that no listed event decides (R12, R151, I10): the
model's oracle. DESIGN CHOICE, safe (log 2): no body, applied to the counter `State.oracle`. -/
opaque lineInput : Nat → Option Byte

/-- What the 32 bits of TSTART hold when T_START, which other parameters than the defaults can make so
long, is 2^32 ticks or more (R30 and R140 do not say). DESIGN CHOICE, safe (log 21): no body, applied to
T_START. -/
opaque wideStart : Nat → Word

/-- `BASE_ADDR`, where the platform places the 4 KiB window (R60, D3, I12). DESIGN CHOICE, safe
(log 8): no body. -/
opaque baseAddr : Nat

end Config
end Sys2Proof
end

