-- ==== Sys2Proof/Machine/Params.lean ====
section
/-! DEFINITION. The normative default values of the configuration parameters (00_scope.md R5), and the
buffer capacities, which the register map fixes (R31, R32, R60). -/

namespace Sys2Proof.Machine

/-- The normative default values of R5, which `State.reset` has (93_implementation_defined.md I13). -/
def params : Params where
  dataBits := 8
  stopBits := 1
  startChars := 200
  bitsPerChar := 10
  minStartTimeoutMs := 500
  readDeadlineMs := 1000
  silenceMs := 50
  minFrame := 5
  crcInit := 0xFFFF
  crcPoly := 0xA001

/-- `TX_CAP`, entries of TXBUF (R5, D8): the window has a register for each of them (R31). -/
def txCap : Nat := 256

/-- `RX_CAP`, entries of RXBUF (R5, D8): the window has a register for each of them (R32). -/
def rxCap : Nat := 260

end Sys2Proof.Machine
end

