-- ==== Sys2Proof/Machine/State.lean ====
section
/-! DEFINITION. The state of the block (10_state.md), the events of its environment (00_scope.md R12),
and the reasons a step can stop (60_exceptions.md R215). -/

namespace Sys2Proof.Machine

/-- A buffer: the written bytes as (index, byte) pairs, indexes strictly rising. An index that is not
listed is unwritten (R45), and reading it gives no value. -/
abbrev Mem := List Host.Cell

/-- The engine phases (R41); encodings 6 and 7 are never taken. -/
inductive Phase where
  | idle | tx | waitFirst | hdr | body | silence
  deriving DecidableEq, Repr

/-- The error codes 0 to 9 of R200; 10 to 15 are never reported (I8). -/
inductive ErrCode where
  | none | notOpen | timeout | incompleteFrame | shortResponse | crcMismatch
  | invalidFunction | frameTooLong | badCommand | badLength
  deriving DecidableEq, Repr

/-- `BAUD_SET` (R5), encoded by BAUDSEL 0 to 4 (R89). -/
inductive BaudSel where
  | b9600 | b19200 | b38400 | b57600 | b115200
  deriving DecidableEq, Repr

/-- `PARITY_SET` (R5), encoded by PARITY 0 to 2 (R89). -/
inductive Parity where
  | none | even | odd
  deriving DecidableEq, Repr

/-- A host write access: `MemWrite(off, width, value)` at a byte offset of the window (R60). `canHold`
says whether the host's bus can hold the write while BUSY (R142) or not (R226, I4). -/
structure HostWrite where
  off : BitVec 12
  width : Nat
  value : Word
  canHold : Bool
  deriving DecidableEq, Repr

/-- What the environment does next: the steps of R12. -/
inductive Event where
  /-- The host performs `MemRead(off, width)`. -/
  | read (off : BitVec 12) (width : Nat)
  /-- The host performs a write. -/
  | write (access : HostWrite)
  /-- A Tick on which the line supplies this byte, or none (R150). -/
  | tick (input : Option Byte)
  /-- The host's oldest held write is performed, if BUSY is 0 (R142). -/
  | heldWrite
  /-- The Reset step (R220). -/
  | reset
  deriving DecidableEq, Repr

/-- What a run shows outside the block (R13). -/
inductive Obs where
  /-- The value a host read returned. -/
  | hostRead (off : BitVec 12) (value : Word)
  /-- A transmit-trace entry: the byte completed at this tick (R152). -/
  | txChar (tick : Nat) (byte : Byte)
  /-- The DE output on this tick (R153). -/
  | de (tick : Nat) (level : Bool)
  deriving DecidableEq, Repr

/-- Everything the spec gives the block, and the model's environment (the last four fields). -/
structure State where
  /-- STATUS.DONE (R22). -/
  done : Bool
  /-- STATUS.ERR (R22). -/
  err : Bool
  /-- STATUS.OPEN (R22). -/
  isOpen : Bool
  /-- STATUS.ERRCODE (R22, R200). -/
  errcode : ErrCode
  /-- STATUS.PHASE; BUSY is PHASE ≠ IDLE (R22, R41). -/
  phase : Phase
  /-- LINECFG.BAUDSEL (R23). -/
  baud : BaudSel
  /-- LINECFG.PARITY (R23). -/
  parity : Parity
  /-- CRC.ACC (R24). -/
  acc : Half
  /-- ARG (R25). -/
  arg : Word
  /-- TXLEN (R26). -/
  txlen : BitVec 9
  /-- RXLEN (R27). -/
  rxlen : BitVec 9
  /-- RESP0.ADDR (R28). -/
  respAddr : Byte
  /-- RESP0.FC (R28). -/
  respFc : Byte
  /-- RESP0.BC (R28). -/
  respBc : Byte
  /-- RESP1.CRC_RX (R29). -/
  crcRx : Half
  /-- RESP1.CRC_CALC (R29). -/
  crcCalc : Half
  /-- TSTART (R30). -/
  tstart : Word
  /-- TXBUF with its written marks (R31, R45). -/
  txbuf : Mem
  /-- RXBUF with its written marks (R32, R45). -/
  rxbuf : Mem
  /-- The line input FIFO, oldest byte first (R40). -/
  fifo : List Byte
  /-- The index in TXBUF of the character being sent (R42). -/
  txi : Nat
  /-- Ticks of that character already elapsed (R42). -/
  txbit : Nat
  /-- The tick at which the current wait ends (R43). -/
  deadline : Nat
  /-- The total frame length BODY waits for (R43). -/
  need : Nat
  /-- The EXPECT operand of the XFER in flight (R43). -/
  expect : Bool
  /-- The tick count (R44). -/
  now : Nat
  /-- The DE output (R153). -/
  de : Bool
  /-- The configuration parameters (R5, I13), which no step writes. DESIGN CHOICE, safe at the defaults
  (log 9): they stand in the state, so that a claim can be made of every value. -/
  cfg : Params
  /-- MODEL: what the environment does next, first event first; with none listed the next step is the
  oldest held write once BUSY is 0, and else a Tick whose line input is free. DESIGN CHOICE, unsafe for
  claims about runs from reset (log 1). -/
  pending : List Event
  /-- MODEL: host writes waiting for BUSY = 0, oldest first (R142). DESIGN CHOICE, safe (log 3). -/
  held : List HostWrite
  /-- MODEL: the counter the free line input is applied to. DESIGN CHOICE, safe (log 2). -/
  oracle : Nat
  /-- MODEL: the observation of R13, newest entry first. DESIGN CHOICE, safe (log 4). -/
  trace : List Obs
  deriving DecidableEq, Repr

/-- Why the machine stops with a fault. -/
inductive Fault where
  /-- `UninitRead`: a host read, the RXWORD view or a command reads a buffer byte never written since
  reset (R45, R215). Raised by `performRead`, `execCrcBuf`, `execEncRaw`, `execDecode`, `execXfer` and
  the engine. Safe: the spec names it. -/
  | uninitRead
  deriving DecidableEq, Repr

/-- Why a step is refused, the state unchanged. -/
inductive Refusal where
  /-- An instruction the model gives no meaning: raised by no arm of exec. Safe. -/
  | notModelled (mnemonic : String)
  /-- `MisalignedHostAccess`: a host access that is not 32 bits wide at a 4-aligned offset (R62, R215).
  Raised by `performRead` and `hostWrite`. Safe: the spec names it. -/
  | misalignedHostAccess
  /-- A write issued while BUSY on a host bus that cannot hold it (R226, I4). Raised by `hostWrite`.
  Safe: the spec says a model of such a bus refuses the write. -/
  | unholdableWrite
  deriving DecidableEq, Repr

/-- The state after a Reset step (R47, R220). The buffers list nothing: every byte is unwritten. The
parameters are the defaults of R5 (log 9), and the last four fields are the model's own (DESIGN CHOICE,
log 1, 2, 3, 4). -/
def State.reset : State where
  done := false
  err := false
  isOpen := false
  errcode := .none
  phase := .idle
  baud := .b9600
  parity := .none
  acc := 0xFFFF
  arg := 0
  txlen := 0
  rxlen := 0
  respAddr := 0
  respFc := 0
  respBc := 0
  crcRx := 0
  crcCalc := 0
  tstart := 0
  txbuf := []
  rxbuf := []
  fifo := []
  txi := 0
  txbit := 0
  deadline := 0
  need := 0
  expect := false
  now := 0
  de := false
  cfg := params
  pending := []
  held := []
  oracle := 0
  trace := []

end Sys2Proof.Machine
end

