-- ==== Sys2Proof/Machine/Mem.lean ====
section
/-! DEFINITION. The buffers' byte memory (10_state.md R31, R32, R45): reads, writes and spans over a
list of written bytes in one canonical form. -/

namespace Sys2Proof.Machine

/-- The byte at an index, or nothing where the byte is unwritten (R45). -/
def Mem.get : Mem → Nat → Option Byte
  | [], _ => none
  | (j, b) :: m, i => if j = i then some b else Mem.get m i

/-- Writing a byte sets its written mark (R45) and leaves every other byte alone. -/
def Mem.write : Mem → Nat → Byte → Mem
  | [], i, b => [(i, b)]
  | (j, c) :: m, i, b =>
    if i < j then (i, b) :: (j, c) :: m
    else if i = j then (i, b) :: m
    else (j, c) :: Mem.write m i b

/-- The bytes at `start`, `start+1`, …, `count` of them; nothing when one of them is unwritten. -/
def Mem.span (m : Mem) : Nat → Nat → Option (List Byte)
  | _, 0 => some []
  | start, count + 1 =>
    match m.get start, Mem.span m (start + 1) count with
    | some b, some bs => some (b :: bs)
    | _, _ => none

/-- Writing bytes at consecutive indexes from `start`. -/
def Mem.writeBytes : Mem → Nat → List Byte → Mem
  | m, _, [] => m
  | m, start, b :: bs => Mem.writeBytes (m.write start b) (start + 1) bs

/-- Indexes are at least `low`, strictly rising, and below `cap`. -/
def Mem.wfFrom (cap : Nat) : Nat → Mem → Bool
  | _, [] => true
  | low, (i, _) :: m => decide (low ≤ i) && decide (i < cap) && Mem.wfFrom cap (i + 1) m

/-- The canonical form: indexes strictly rising and below the buffer's capacity. An unlisted index has
no value, so no entry can equal what it reads as. -/
def Mem.wf (cap : Nat) (m : Mem) : Bool := Mem.wfFrom cap 0 m

end Sys2Proof.Machine
end

