-- ==== Sys2Proof/Machine/Timing.lean ====
section
/-! DEFINITION. The durations derived from the parameters, in ticks (00_scope.md R6, R229). -/

namespace Sys2Proof.Machine

/-- BAUD in bit/s (R89). -/
def BaudSel.rate : BaudSel → Nat
  | .b9600 => 9600
  | .b19200 => 19200
  | .b38400 => 38400
  | .b57600 => 57600
  | .b115200 => 115200

/-- A duration in milliseconds as ticks at a baud rate (R6, R7); exact for the default durations, else
the whole ticks in it. DESIGN CHOICE, safe at the defaults (log 9). -/
def ticksOfMs (ms rate : Nat) : Nat := ms * rate / 1000

/-- `T_START` (R6). -/
def tStart (p : Params) (b : BaudSel) : Nat :=
  max (ticksOfMs p.minStartTimeoutMs b.rate) (p.startChars * p.bitsPerChar)

/-- The word TSTART shows for T_START (R30, R140): its number where 32 bits hold it, else a free value.
DESIGN CHOICE, safe (log 21). -/
def startWord (p : Params) (b : BaudSel) : Word :=
  if tStart p b < 2 ^ 32 then BitVec.ofNat 32 (tStart p b) else Config.wideStart (tStart p b)

/-- `T_READ` (R6). -/
def tRead (p : Params) (b : BaudSel) : Nat := ticksOfMs p.readDeadlineMs b.rate

/-- `T_SIL` (R6). -/
def tSil (p : Params) (b : BaudSel) : Nat := ticksOfMs p.silenceMs b.rate

/-- `CHAR_BITS` (R6): the start bit, the data bits, the parity bit when there is one, the stop bits. -/
def charBits (p : Params) (parity : Parity) : Nat :=
  1 + p.dataBits + (if parity = .none then 0 else 1) + p.stopBits

end Sys2Proof.Machine
end

