-- ==== Sys2Proof/Machine/Operands.lean ====
section
/-! DEFINITION. The operand forms: the selected buffer and its capacity (40_crc.md R104), the halves of
ARG (30_encoding.md R83), and the field encodings of BAUDSEL and PARITY (R89). -/

namespace Sys2Proof.Machine

/-- The capacity of the selected buffer (R104). -/
def capOf : BufSel → Nat
  | .tx => txCap
  | .rx => rxCap

/-- The selected buffer (R104). -/
def bufOf (sel : BufSel) (s : State) : Mem :=
  match sel with
  | .tx => s.txbuf
  | .rx => s.rxbuf

/-- `HI16 = ARG[31:16]` (R83). -/
def argHi (s : State) : Half := s.arg.extractLsb' 16 16

/-- `LO16 = ARG[15:0]` (R83). -/
def argLo (s : State) : Half := s.arg.extractLsb' 0 16

/-- The baud a BAUDSEL field selects; none where the value is illegal (R84, R89). -/
def baudOf (b : BitVec 3) : Option BaudSel :=
  if b = 0#3 then some .b9600
  else if b = 1#3 then some .b19200
  else if b = 2#3 then some .b38400
  else if b = 3#3 then some .b57600
  else if b = 4#3 then some .b115200
  else none

/-- The parity a PARITY field selects; none where the value is illegal (R84, R89). -/
def parityOf (p : BitVec 2) : Option Parity :=
  if p = 0#2 then some .none
  else if p = 1#2 then some .even
  else if p = 2#2 then some .odd
  else none

/-- The BAUDSEL encoding (R89). -/
def BaudSel.bits : BaudSel → BitVec 3
  | .b9600 => 0#3
  | .b19200 => 1#3
  | .b38400 => 2#3
  | .b57600 => 3#3
  | .b115200 => 4#3

/-- The PARITY encoding (R89). -/
def Parity.bits : Parity → BitVec 2
  | .none => 0#2
  | .even => 1#2
  | .odd => 2#2

end Sys2Proof.Machine
end

