-- ==== Sys2Proof/Machine/Flags.lean ====
section
/-! DEFINITION. STATUS (10_state.md R22): the BUSY flag, the numbers of error codes and phases, and the
register words that are assembled from fields (R23, R24, R28, R29). -/

namespace Sys2Proof.Machine

/-- STATUS.BUSY: an exchange is in flight exactly when PHASE ≠ IDLE (R22, R41). -/
def State.busy (s : State) : Bool := s.phase != .idle

/-- The numbers of the error codes (R200). -/
def ErrCode.bits : ErrCode → BitVec 4
  | .none => 0#4
  | .notOpen => 1#4
  | .timeout => 2#4
  | .incompleteFrame => 3#4
  | .shortResponse => 4#4
  | .crcMismatch => 5#4
  | .invalidFunction => 6#4
  | .frameTooLong => 7#4
  | .badCommand => 8#4
  | .badLength => 9#4

/-- The encodings of the phases (R41). -/
def Phase.bits : Phase → BitVec 3
  | .idle => 0#3
  | .tx => 1#3
  | .waitFirst => 2#3
  | .hdr => 3#3
  | .body => 4#3
  | .silence => 5#3

/-- The STATUS word (R22): PHASE in 18:16, ERRCODE in 11:8, OPEN, ERR, DONE and BUSY in 3:0. -/
def statusWord (s : State) : Word :=
  0#13 ++ s.phase.bits ++ 0#4 ++ s.errcode.bits ++ 0#4 ++ BitVec.ofBool s.isOpen ++
    BitVec.ofBool s.err ++ BitVec.ofBool s.done ++ BitVec.ofBool s.busy

/-- The LINECFG word (R23): PARITY in 5:4, BAUDSEL in 2:0. -/
def linecfgWord (s : State) : Word := 0#26 ++ s.parity.bits ++ 0#1 ++ s.baud.bits

/-- The CRC word (R24): ACC in 15:0. -/
def crcWord (s : State) : Word := 0#16 ++ s.acc

/-- The RESP0 word (R28): BC in 23:16, FC in 15:8, ADDR in 7:0. -/
def resp0Word (s : State) : Word := 0#8 ++ s.respBc ++ s.respFc ++ s.respAddr

/-- The RESP1 word (R29): CRC_CALC in 31:16, CRC_RX in 15:0. -/
def resp1Word (s : State) : Word := s.crcCalc ++ s.crcRx

end Sys2Proof.Machine
end

