-- ==== Sys2Proof/Machine/CrcFn.lean ====
section
/-! DEFINITION. The CRC-16/MODBUS function (40_crc.md R100, R101). -/

namespace Sys2Proof.Machine

/-- One of the eight shifts of R101: shift right, and XOR the polynomial when the low bit was 1. -/
def crcShift (p : Params) (acc : Half) : Half :=
  if acc.getLsbD 0 then (acc >>> 1) ^^^ p.crcPoly else acc >>> 1

/-- `crcShift`, a number of times. -/
def crcShifts (p : Params) : Nat → Half → Half
  | 0, acc => acc
  | n + 1, acc => crcShifts p n (crcShift p acc)

/-- `crc_step(acc, b)` (R101). -/
def crcStep (p : Params) (acc : Half) (b : Byte) : Half := crcShifts p 8 (acc ^^^ b.setWidth 16)

/-- The fold of `crc_step` over bytes in index order. -/
def crcFold (p : Params) : Half → List Byte → Half
  | acc, [] => acc
  | acc, b :: bs => crcFold p (crcStep p acc b) bs

/-- `crc16(bs)` (R100). -/
def crc16 (p : Params) (bs : List Byte) : Half := crcFold p p.crcInit bs

/-- The CRC's low byte, appended first (R66, R110). -/
def crcLow (c : Half) : Byte := c.extractLsb' 0 8

/-- The CRC's high byte, appended second (R66, R110). -/
def crcHigh (c : Half) : Byte := c.extractLsb' 8 8

end Sys2Proof.Machine
end

