-- ==== Sys2Proof/Machine/Frame.lean ====
section
/-! DEFINITION. Frames as byte sequences: construction (41_encoder.md R110), the length rule and the
decode function (42_decoder.md R120, R121). -/

namespace Sys2Proof.Machine

/-- `build(addr, fc, payload)` (R110): the CRC of everything before it, low byte first. -/
def build (p : Params) (addr fc : Byte) (payload : List Byte) : List Byte :=
  let body := addr :: fc :: payload
  let c := crc16 p body
  body ++ [crcLow c, crcHigh c]

/-- A 16-bit payload field, high byte first (R66). -/
def bigEndian (v : Half) : List Byte := [v.extractLsb' 8 8, v.extractLsb' 0 8]

/-- A 16-bit register value from its two bytes, high byte first (R67). -/
def registerValue (high low : Byte) : Half := high ++ low

/-- A received CRC from its two bytes, low byte first (R67, R123). -/
def receivedCrc (low high : Byte) : Half := high ++ low

/-- The frame length a known function code declares (R121, R157); none for an unknown code. -/
def declaredLen (fc bc : Byte) : Option Nat :=
  if fc = 0x03#8 ∨ fc = 0x04#8 then some (5 + bc.toNat)
  else if fc = 0x06#8 then some 8
  else none

/-- `frame_len(FC, BC, L)` (R121). -/
def frameLen (fc bc : Byte) (len : Nat) : Nat := (declaredLen fc bc).getD len

/-- What `decode` answers: the code, and the fields of RESP0 and RESP1 (R120, R124). -/
structure Verdict where
  code : ErrCode
  addr : Byte
  fc : Byte
  bc : Byte
  crcRx : Half
  crcCalc : Half
  deriving DecidableEq, Repr

/-- The code and the two CRCs of a sequence whose header is complete, for frame length `len` (R120). -/
def checkFrame (p : Params) (bs : List Byte) (len : Nat) : ErrCode × Half × Half :=
  if bs.length < len then (.incompleteFrame, 0, 0)
  else if len < p.minFrame then (.shortResponse, 0, 0)
  else
    let rx := receivedCrc (bs.getD (len - 2) 0) (bs.getD (len - 1) 0)
    let own := crc16 p (bs.take (len - 2))
    (if rx = own then .none else .crcMismatch, rx, own)

/-- `decode(bs)` (R120): bytes that do not exist read as 0 in the header (R124). -/
def decodeFrame (p : Params) (bs : List Byte) : Verdict :=
  let fc := bs.getD 1 0
  let bc := bs.getD 2 0
  let r := if bs.length < 3 then (.shortResponse, 0, 0) else checkFrame p bs (frameLen fc bc bs.length)
  { code := r.1, addr := bs.getD 0 0, fc := fc, bc := bc, crcRx := r.2.1, crcCalc := r.2.2 }

end Sys2Proof.Machine
end

