-- ==== Sys2Proof/Machine/Ops.lean ====
section
/-! DEFINITION. The shared operations: accepting a command and completing it (60_exceptions.md R203,
R204), which is this block's whole error reporting (it has no traps, R209, R210), and the named updates
of the buffers, the FIFO, the results and the observation. -/

namespace Sys2Proof.Machine

/-- What a step or a part of one answers. -/
abbrev Res := Host.Outcome State Fault Refusal

/-- Do the second part on the state the first part gives; a stop of the first part stops both. -/
def andThen (r : Res) (f : State → Res) : Res :=
  match r with
  | .next s => f s
  | .fault e => .fault e
  | .refused e => .refused e

/-- Acceptance of a performed CMD write: DONE, ERR and ERRCODE are cleared (R204). -/
def State.accept (s : State) : State := { s with done := false, err := false, errcode := .none }

/-- `finish(code)`, the one completion primitive of every command (R203); `raise E` is `finish(E)`. -/
def State.finish (s : State) (code : ErrCode) : State :=
  { s with phase := .idle, done := true, err := code != .none, errcode := code }

/-- Writing the accumulator (R24). -/
def State.setAcc (s : State) (acc : Half) : State := { s with acc := acc }

/-- A frame in TXBUF and its length (R111, R112). -/
def State.setTx (s : State) (buf : Mem) (len : BitVec 9) : State := { s with txbuf := buf, txlen := len }

/-- Writing RESP0 and RESP1 from a verdict (R124). -/
def State.setResp (s : State) (v : Verdict) : State :=
  { s with
    respAddr := v.addr, respFc := v.fc, respBc := v.bc, crcRx := v.crcRx, crcCalc := v.crcCalc }

/-- Opening the line (R140). -/
def State.setLine (s : State) (b : BaudSel) (p : Parity) : State :=
  { s with
    fifo := [], baud := b, parity := p, isOpen := true, tstart := startWord s.cfg b }

/-- Closing the line (R141). -/
def State.unsetLine (s : State) : State := { s with isOpen := false, fifo := [] }

/-- What XFER's acceptance writes before the first byte is sent (R143, R144, R204). -/
def State.beginExchange (s : State) (expect : Bool) : State :=
  { s with
    done := false, err := false, errcode := .none, fifo := [], rxlen := 0,
    respAddr := 0, respFc := 0, respBc := 0, crcRx := 0, crcCalc := 0,
    expect := expect, txi := 0, txbit := 0 }

/-- Entering a phase. -/
def State.enter (s : State) (p : Phase) : State := { s with phase := p }

/-- Entering a waiting phase with `ticks` to its deadline (R154, R155, R157). -/
def State.await (s : State) (p : Phase) (ticks : Nat) : State :=
  { s with phase := p, deadline := s.now + ticks }

/-- `RXBUF[RXLEN] <- FIFO.pop(); RXLEN <- RXLEN + 1` (R156): byte `b` was the head of the FIFO and `rest`
is what is left of it. -/
def State.receive (s : State) (b : Byte) (rest : List Byte) : State :=
  { s with fifo := rest, rxbuf := s.rxbuf.write s.rxlen.toNat b, rxlen := s.rxlen + 1 }

/-- An entry of the observation (R13). -/
def State.observe (s : State) (o : Obs) : State := { s with trace := o :: s.trace }

/-- `RXBUF[0..RXLEN)` decoded, RESP0 and RESP1 written, the command completed with the verdict's code
(R125, R162); the fault where a byte is unwritten (R45). -/
def decodeReceived (s : State) : Res :=
  match s.rxbuf.span 0 s.rxlen.toNat with
  | none => .fault .uninitRead
  | some bs => .next ((s.setResp (decodeFrame s.cfg bs)).finish (decodeFrame s.cfg bs).code)

/-- `tx_complete()` (R154): the end of the request's transmission. -/
def State.txComplete (s : State) : State :=
  if s.expect then s.await .waitFirst (tStart s.cfg s.baud) else s.finish .none

end Sys2Proof.Machine
end

