-- ==== Sys2Proof/Machine/Crc.lean ====
section
/-! DEFINITION. The CRC generator's commands (40_crc.md section 2). -/

namespace Sys2Proof.Machine

/-- `CRC_INIT` (R102). -/
def execCrcInit (s : State) : Host.Outcome State Fault Refusal :=
  .next ((s.setAcc s.cfg.crcInit).finish .none)

/-- `CRC_BYTE b` (R103). -/
def execCrcByte (b : Byte) (s : State) : Host.Outcome State Fault Refusal :=
  .next ((s.setAcc (crcStep s.cfg s.acc b)).finish .none)

/-- `CRC_BUF sel, n` (R104). -/
def execCrcBuf (sel : BufSel) (n : BitVec 9) (s : State) : Host.Outcome State Fault Refusal :=
  if n.toNat > capOf sel then .next (s.finish .badLength)
  else
    match (bufOf sel s).span 0 n.toNat with
    | none => .fault .uninitRead
    | some bs => .next ((s.setAcc (crc16 s.cfg bs)).finish .none)

end Sys2Proof.Machine
end

