-- ==== Sys2Proof/Machine/Decoder.lean ====
section
/-! DEFINITION. The frame decoder's command (42_decoder.md section 3). -/

namespace Sys2Proof.Machine

/-- `DECODE` (R125). -/
def execDecode (s : State) : Host.Outcome State Fault Refusal :=
  if s.rxlen.toNat > rxCap then .next (s.finish .badLength)
  else decodeReceived s

end Sys2Proof.Machine
end

