-- ==== Sys2Proof/Machine/Encoder.lean ====
section
/-! DEFINITION. The frame encoder's commands (41_encoder.md section 2). -/

namespace Sys2Proof.Machine

/-- The four bytes ENC_RAW writes around the payload (R111): `TXBUF[2..2+N)` is left alone. -/
def wrapPayload (p : Params) (m : Mem) (n : Nat) (addr fc : Byte) (payload : List Byte) : Mem :=
  let frame := build p addr fc payload
  (((m.write 0 addr).write 1 fc).write (2 + n) (frame.getD (2 + n) 0)).write (3 + n)
    (frame.getD (3 + n) 0)

/-- `ENC_RAW n, addr, fc` (R111). -/
def execEncRaw (n addr fc : Byte) (s : State) : Host.Outcome State Fault Refusal :=
  if n.toNat > txCap - 4 then .next (s.finish .badLength)
  else
    match s.txbuf.span 2 n.toNat with
    | none => .fault .uninitRead
    | some payload =>
      .next ((s.setTx (wrapPayload s.cfg s.txbuf n.toNat addr fc payload)
        (BitVec.ofNat 9 (n.toNat + 4))).finish .none)

/-- `ENC_WORDS addr, fc` (R112): the payload is the two halves of ARG, each high byte first. -/
def execEncWords (addr fc : Byte) (s : State) : Host.Outcome State Fault Refusal :=
  let frame := build s.cfg addr fc (bigEndian (argHi s) ++ bigEndian (argLo s))
  .next ((s.setTx (s.txbuf.writeBytes 0 frame) 8).finish .none)

end Sys2Proof.Machine
end

