-- ==== Sys2Proof/Machine/Line.lean ====
section
/-! DEFINITION. The line commands (43_transport.md section 1). -/

namespace Sys2Proof.Machine

/-- `OPEN baud, parity` (R140): an illegal field is BAD_COMMAND and leaves the line as it was. -/
def execOpen (baud : BitVec 3) (parity : BitVec 2) (s : State) : Host.Outcome State Fault Refusal :=
  match baudOf baud, parityOf parity with
  | some b, some p => .next ((s.setLine b p).finish .none)
  | _, _ => .next (s.finish .badCommand)

/-- `CLOSE` (R141). -/
def execClose (s : State) : Host.Outcome State Fault Refusal :=
  .next (s.unsetLine.finish .none)

/-- The state an accepted XFER leaves (R143): transmission begins, or for an empty request has ended
already (R145). -/
def State.startExchange (s : State) (expect : Bool) : State :=
  if s.txlen = 0 then (s.beginExchange expect).txComplete
  else (s.beginExchange expect).enter .tx

/-- `XFER expect` at the host write that issues it (R143): NOT_OPEN before BAD_LENGTH (R207), and the
fault where a byte to be sent is unwritten. -/
def execXfer (expect : Bool) (s : State) : Host.Outcome State Fault Refusal :=
  if s.isOpen = false then .next (s.finish .notOpen)
  else if s.txlen.toNat > txCap then .next (s.finish .badLength)
  else
    match s.txbuf.span 0 s.txlen.toNat with
    | none => .fault .uninitRead
    | some _ => .next (s.startExchange expect)

end Sys2Proof.Machine
end

