-- ==== Sys2Proof/Machine/Dispatch.lean ====
section
/-! DEFINITION. What each command does at the host write that issues it, one arm per command. -/

namespace Sys2Proof.Machine

def exec (i : Instr) (s : State) : Host.Outcome State Fault Refusal :=
  match i with
  | .crcInit => Sys2Proof.Machine.execCrcInit s
  | .crcByte b => Sys2Proof.Machine.execCrcByte b s
  | .crcBuf sel n => Sys2Proof.Machine.execCrcBuf sel n s
  | .encRaw n addr fc => Sys2Proof.Machine.execEncRaw n addr fc s
  | .encWords addr fc => Sys2Proof.Machine.execEncWords addr fc s
  | .decodeBuf => Sys2Proof.Machine.execDecode s
  | .openLine baud parity => Sys2Proof.Machine.execOpen baud parity s
  | .closeLine => Sys2Proof.Machine.execClose s
  | .xfer expect => Sys2Proof.Machine.execXfer expect s

end Sys2Proof.Machine
end

