-- ==== Sys2Proof/Machine/Engine.lean ====
section
/-! DEFINITION. The Tick step (43_transport.md R150): line input, DE, the transmitter, the receive state
machine and its deadlines. -/

namespace Sys2Proof.Machine

/-- `line_input(in)` (R151): a byte is dropped when the line is closed or the FIFO is full. -/
def lineInput (input : Option Byte) (s : State) : State :=
  match input with
  | none => s
  | some b =>
    if s.isOpen ∧ s.fifo.length < Config.fifoCap then { s with fifo := s.fifo ++ [b] } else s

/-- DE on this tick (R153), and its entry in the observation (R13). -/
def State.driveEnable (s : State) (level : Bool) : State :=
  { s with de := level, trace := Obs.de s.now level :: s.trace }

/-- The end of a character (R152): its transmit-trace entry, then the next index. -/
def State.endChar (s : State) (b : Byte) : State :=
  { s with trace := Obs.txChar s.now b :: s.trace, txi := s.txi + 1, txbit := 0 }

/-- `tx_tick()` (R152). -/
def txTick (s : State) : Res :=
  if s.txbit + 1 = charBits s.cfg s.parity then
    match s.txbuf.get s.txi with
    | none => .fault .uninitRead
    | some b =>
      if s.txi + 1 = s.txlen.toNat then .next (s.endChar b).txComplete else .next (s.endChar b)
  else .next { s with txbit := s.txbit + 1 }

/-- WAIT_FIRST (R155). -/
def waitFirstStep (s : State) : State :=
  match s.fifo with
  | [] => s
  | b :: rest =>
    ({ s with fifo := rest, rxbuf := s.rxbuf.write 0 b, rxlen := 1 }).await .hdr (tRead s.cfg s.baud)

/-- "While the FIFO is not empty and `RXLEN < limit`", receive a byte (R156, R158); the first argument
after `limit` is the FIFO. -/
def drainTo (limit : Nat) : List Byte → State → State
  | [], s => s
  | b :: rest, s => if s.rxlen.toNat < limit then drainTo limit rest (s.receive b rest) else s

/-- Dispatch on the header's function code and third byte (R157). -/
def dispatch (fc bc : Byte) (s : State) : State :=
  match declaredLen fc bc with
  | some n => ({ s with need := n }).await .body (tRead s.cfg s.baud)
  | none => s.await .silence (tSil s.cfg s.baud)

/-- HDR (R156). -/
def hdrStep (s : State) : Res :=
  let t := drainTo 3 s.fifo s
  if t.rxlen = 3 then
    match t.rxbuf.get 1, t.rxbuf.get 2 with
    | some fc, some bc => .next (dispatch fc bc t)
    | _, _ => .fault .uninitRead
  else .next t

/-- BODY (R158): the frame is decoded on the tick it reaches `need` (R162). -/
def bodyStep (s : State) : Res :=
  let t := drainTo s.need s.fifo s
  if t.rxlen.toNat = t.need then decodeReceived t else .next t

/-- The inner loop of SILENCE (R159): a byte waiting at RX_CAP ends the exchange (R164); once the FIFO
is empty the silence restarts. -/
def drainSilence : List Byte → State → State
  | [], s => { s with deadline := s.now + tSil s.cfg s.baud }
  | b :: rest, s =>
    if s.rxlen.toNat = rxCap then s.finish .frameTooLong
    else drainSilence rest (s.receive b rest)

/-- SILENCE (R159): a tick without a byte leaves the deadline. -/
def silenceStep (s : State) : State :=
  match s.fifo with
  | [] => s
  | b :: rest => drainSilence (b :: rest) s

/-- The rule of the current phase (R155 to R159). -/
def phaseStep (s : State) : Res :=
  match s.phase with
  | .idle => .next s
  | .tx => .next s
  | .waitFirst => .next (waitFirstStep s)
  | .hdr => hdrStep s
  | .body => bodyStep s
  | .silence => .next (silenceStep s)

/-- The rule of the current phase, then of the new phase, for as long as the phase changes, at most
`fuel` times (R165). -/
def rxLoop : Nat → State → Res
  | 0, s => .next s
  | fuel + 1, s =>
    andThen (phaseStep s) fun t => if t.phase = s.phase then .next t else rxLoop fuel t

/-- `rx_consume()` (R165). DEDUCED, safe (log 14): phases only go WAIT_FIRST, HDR, BODY or SILENCE, IDLE
within a tick, so four rounds are all there are. -/
def rxConsume (s : State) : Res := rxLoop 4 s

/-- `deadline_check()` (R161): the deadline tick itself is inside the window. -/
def deadlineCheck (s : State) : Res :=
  if s.now ≥ s.deadline then
    match s.phase with
    | .waitFirst => .next (s.finish .timeout)
    | .hdr => decodeReceived s
    | .body => decodeReceived s
    | .silence => decodeReceived s
    | .idle => .next s
    | .tx => .next s
  else .next s

/-- The part of a Tick before the engine: time, line input, DE (R150). -/
def beginTick (input : Option Byte) (s : State) : State :=
  let t := lineInput input { s with now := s.now + 1 }
  t.driveEnable (t.phase == .tx)

/-- What the engine does on this tick, by the phase at its start (R150). -/
def engine (s : State) : Res :=
  match s.phase with
  | .idle => .next s
  | .tx => txTick s
  | .waitFirst => andThen (rxConsume s) deadlineCheck
  | .hdr => andThen (rxConsume s) deadlineCheck
  | .body => andThen (rxConsume s) deadlineCheck
  | .silence => andThen (rxConsume s) deadlineCheck

/-- `Tick(in)` (R150). -/
def tick (input : Option Byte) (s : State) : Res := engine (beginTick input s)

end Sys2Proof.Machine
end

