-- ==== Sys2Proof/Machine/HostPort.lean ====
section
/-! DEFINITION. The host register space (10_state.md section 2, 20_memory.md R60 to R64): which register
an offset names, what it reads as, and what a write to it stores. -/

namespace Sys2Proof.Machine

/-- The registers of R21 to R34; an indexed register carries its index. -/
inductive Reg where
  | cmd | status | linecfg | crc | arg | txlen | rxlen | resp0 | resp1 | tstart
  | txbuf (i : Nat) | rxbuf (i : Nat) | rxword (k : Nat) | reserved
  deriving DecidableEq, Repr

/-- Only a 32-bit access at an offset whose two low bits are 0 is an access of the interface (R62). -/
def legalAccess (off : BitVec 12) (width : Nat) : Bool := width == 4 && off.toNat % 4 == 0

/-- The control and status registers CMD to TSTART, by offset divided by 4 (R21 to R30). -/
def controlReg (index : Nat) : Reg :=
  match index with
  | 0 => .cmd
  | 1 => .status
  | 2 => .linecfg
  | 3 => .crc
  | 4 => .arg
  | 5 => .txlen
  | 6 => .rxlen
  | 7 => .resp0
  | 8 => .resp1
  | 9 => .tstart
  | _ => .reserved

/-- The layout of the window (R60), for offsets that are multiples of 4. -/
def regAt (off : BitVec 12) : Reg :=
  if off.toNat < 0x028 then controlReg (off.toNat / 4)
  else if off.toNat < 0x100 then .reserved
  else if off.toNat < 0x500 then .txbuf ((off.toNat - 0x100) / 4)
  else if off.toNat < 0x910 then .rxbuf ((off.toNat - 0x500) / 4)
  else if off.toNat < 0xA00 then .reserved
  else if off.toNat < 0xC00 then .rxword ((off.toNat - 0xA00) / 4)
  else .reserved

/-- The offset of a register (R21 to R33, R87); a reserved offset has no name, and 0xFFC stands for it. -/
def offsetOf : Reg → BitVec 12
  | .cmd => 0x000
  | .status => 0x004
  | .linecfg => 0x008
  | .crc => 0x00C
  | .arg => 0x010
  | .txlen => 0x014
  | .rxlen => 0x018
  | .resp0 => 0x01C
  | .resp1 => 0x020
  | .tstart => 0x024
  | .txbuf i => BitVec.ofNat 12 (0x100 + 4 * i)
  | .rxbuf i => BitVec.ofNat 12 (0x500 + 4 * i)
  | .rxword k => BitVec.ofNat 12 (0xA00 + 4 * k)
  | .reserved => 0xFFC

/-- The offset of a physical address in the block's 4 KiB window at BASE_ADDR; none outside (R60). -/
def windowOffset (addr : Nat) : Option (BitVec 12) :=
  if Config.baseAddr ≤ addr ∧ addr < Config.baseAddr + 4096 then
    some (BitVec.ofNat 12 (addr - Config.baseAddr))
  else none

/-- `RXWORD[k]` (R128): a computed view of two bytes of RXBUF; none when either is unwritten. -/
def rxWord (s : State) (k : Nat) : Option Half :=
  match s.rxbuf.get (3 + 2 * k), s.rxbuf.get (4 + 2 * k) with
  | some high, some low => some (registerValue high low)
  | _, _ => none

/-- What a register reads as (R21 to R34): reserved bits and offsets read 0; none where an unwritten
byte is read (R45). -/
def readReg (s : State) : Reg → Option Word
  | .cmd => some 0
  | .status => some (statusWord s)
  | .linecfg => some (linecfgWord s)
  | .crc => some (crcWord s)
  | .arg => some s.arg
  | .txlen => some (s.txlen.setWidth 32)
  | .rxlen => some (s.rxlen.setWidth 32)
  | .resp0 => some (resp0Word s)
  | .resp1 => some (resp1Word s)
  | .tstart => some s.tstart
  | .txbuf i => (s.txbuf.get i).map (·.setWidth 32)
  | .rxbuf i => (s.rxbuf.get i).map (·.setWidth 32)
  | .rxword k => (rxWord s k).map (·.setWidth 32)
  | .reserved => some 0

/-- What a write stores (R21 to R34). A read-only register and a reserved offset ignore it; CMD holds no
state (its effect is `issueCommand`, R64). -/
def storeReg (r : Reg) (v : Word) (s : State) : State :=
  match r with
  | .arg => { s with arg := v }
  | .txlen => { s with txlen := v.setWidth 9 }
  | .rxlen => { s with rxlen := v.setWidth 9 }
  | .txbuf i => { s with txbuf := s.txbuf.write i (v.setWidth 8) }
  | .rxbuf i => { s with rxbuf := s.rxbuf.write i (v.setWidth 8) }
  | .cmd => s
  | .status => s
  | .linecfg => s
  | .crc => s
  | .resp0 => s
  | .resp1 => s
  | .tstart => s
  | .rxword _ => s
  | .reserved => s

/-- `MemRead(off, width)`: always performed, without a side effect on the block (R64, R142); its value is
part of the observation (R13). -/
def performRead (off : BitVec 12) (width : Nat) (s : State) : Res :=
  if legalAccess off width then
    match readReg s (regAt off) with
    | none => .fault .uninitRead
    | some v => .next (s.observe (.hostRead off v))
  else .refused .misalignedHostAccess

end Sys2Proof.Machine
end

