-- ==== Sys2Proof/Machine/Issue.lean ====
section
/-! DEFINITION. Issuing a command, the BUSY hold, the Reset step, and which agent's step comes next
(00_scope.md R12, 43_transport.md R142, 60_exceptions.md R204, 70_reset_and_hazards.md R220). -/

namespace Sys2Proof.Machine

/-- A performed write of `w` to CMD: the report is cleared first (R204), then the word is decoded and the
command runs; a word that is no command is BAD_COMMAND (R84, R85). -/
def issueCommand (w : Word) (s : State) : Res :=
  match decode w with
  | .ok i => exec i s.accept
  | .error _ => .next (s.accept.finish .badCommand)

/-- A host write that is performed (R64). -/
def performWrite (off : BitVec 12) (v : Word) (s : State) : Res :=
  if regAt off = .cmd then issueCommand v s else .next (storeReg (regAt off) v s)

/-- A host write whose time has come: refused when it is no access of the interface (R62), else
performed. -/
def writeNow (a : HostWrite) (s : State) : Res :=
  if legalAccess a.off a.width then performWrite a.off a.value s else .refused .misalignedHostAccess

/-- A write has to wait (R142): BUSY is 1, or a write that can be held finds earlier ones still held
(R68, log 3). A write that cannot be held is performed with BUSY 0 even then, ahead of those: DESIGN
CHOICE, unsafe for a claim about a host that has writes of both kinds (log 22). -/
def mustWait (a : HostWrite) (s : State) : Bool := s.busy || (a.canHold && !s.held.isEmpty)

/-- A host write as the host issues it (R142): refused when it is no access of the interface (R62); held
when it has to wait, or refused where the bus cannot hold it (R226, I4); else performed. -/
def hostWrite (a : HostWrite) (s : State) : Res :=
  if legalAccess a.off a.width then
    if mustWait a s then
      if a.canHold then .next { s with held := s.held ++ [a] } else .refused .unholdableWrite
    else performWrite a.off a.value s
  else .refused .misalignedHostAccess

/-- The oldest held write is performed, unchanged; while BUSY the step is not enabled and nothing happens
(R142). DESIGN CHOICE, safe (log 3). -/
def performHeld (s : State) : Res :=
  match s.held with
  | [] => .next s
  | a :: rest => if s.busy then .next s else writeNow a { s with held := rest }

/-- The Reset step (R220): every piece of the block's state takes its value of R47, ACC its initial value
(R24). The parameters, the environment's schedule, its held writes and the observation are no state of
the block. DESIGN CHOICE, unsafe for a claim about a write held across it (log 5). -/
def resetStep (s : State) : State :=
  { State.reset with
    acc := s.cfg.crcInit, cfg := s.cfg, pending := s.pending, held := s.held, oracle := s.oracle
    trace := s.trace }

/-- One listed event of the environment (R12). -/
def envStep (e : Event) (s : State) : Res :=
  match e with
  | .read off width => performRead off width s
  | .write a => hostWrite a s
  | .tick input => tick input s
  | .heldWrite => performHeld s
  | .reset => .next (resetStep s)

/-- The step with no event listed: a held write that BUSY no longer stops, else a Tick whose line input
is free (R142, R151). DESIGN CHOICE (log 1, 2). -/
def unscheduled (s : State) : Res :=
  if s.held = [] ∨ s.busy = true then
    tick (Config.lineInput s.oracle) { s with oracle := s.oracle + 1 }
  else performHeld s

/-- One step of the model: the next listed event, whichever it is (R12, R220). DESIGN CHOICE, safe
(log 1, 3). -/
def nextStep (s : State) : Res :=
  match s.pending with
  | [] => unscheduled s
  | e :: rest => envStep e { s with pending := rest }

/-- The host write of a command word to CMD. -/
def cmdWrite (w : Word) : HostWrite := { off := 0, width := 4, value := w, canHold := true }

/-- The state in which the very next step is the performed write of `w` to CMD: that write is the oldest
held write, its step is listed next, and no exchange holds it back. DESIGN CHOICE, safe (log 6). -/
def placeCommand (w : Word) (s : State) : State :=
  { s with held := cmdWrite w :: s.held, pending := .heldWrite :: s.pending, phase := .idle }

end Sys2Proof.Machine
end

