-- ==== Sys2Proof/Machine/Step.lean ====
section
/-! DEFINITION. The step of the model, and how a command word is placed for it. -/

namespace Sys2Proof.Machine

/-- One step: one host access, one Tick or one Reset (00_scope.md R12). -/
def step (s : State) : Host.Outcome State Fault Refusal := nextStep s

/-- `s` with the command word of the opcode table's bits placed where `step` takes its next command from:
the host's write to CMD (R21, R80). -/
def State.withFetchWord (s : State) (nbits w : Nat) : State :=
  placeCommand (BitVec.ofNat 32 (w % 2 ^ nbits)) s

end Sys2Proof.Machine
end

