-- ==== Sys2Proof/Machine/HostProgram.lean ====
section
/-! DEFINITION. Host programs as lists of events (30_encoding.md R87) and the pseudo-instructions (R88).
`WAIT_IDLE` is a loop of reads without a bound of its own and has no list. -/

namespace Sys2Proof.Machine

/-- `WR <reg>, <value>` (R87). -/
def wr (r : Reg) (v : Word) : Event :=
  .write { off := offsetOf r, width := 4, value := v, canHold := true }

/-- `RD <reg>` (R87). -/
def rd (r : Reg) : Event := .read (offsetOf r) 4

/-- A command by its mnemonic and operands stands for `WR CMD, <word>` (R87). -/
def command (i : Instr) : Event := .write (cmdWrite (encode i))

/-- `ENC_READ addr, fc, start, count` (R88). -/
def encRead (addr fc : Byte) (start count : Half) : List Event :=
  [wr .arg (start ++ count), command (.encWords addr fc)]

/-- `ENC_WRITE addr, reg, value` (R88). -/
def encWrite (addr : Byte) (reg value : Half) : List Event :=
  [wr .arg (reg ++ value), command (.encWords addr 0x06)]

/-- `CRC_BYTES b0, ..., bk` (R88). -/
def crcBytes (bs : List Byte) : List Event :=
  command .crcInit :: bs.map fun b => command (.crcByte b)

/-- The events, one after another; the first stop ends the run. -/
def runEvents : List Event → State → Res
  | [], s => .next s
  | e :: es, s => andThen (envStep e s) (runEvents es)

/-- Tick steps with these line inputs (`TICK <n> LINE …`, R87). -/
def runTicks : List (Option Byte) → State → Res
  | [], s => .next s
  | input :: rest, s => andThen (tick input s) (runTicks rest)

end Sys2Proof.Machine
end

