-- ==== Sys2Proof/Safety.lean ====
section
/-! DEFINITION. What the claims are stated in: which write or Reset the next step performs, the
observation's transmit trace, the bound of an exchange, and the invariant of the block. -/

namespace Sys2Proof.Safety

open Sys2Proof.Machine

/-- The host write the next step performs, if it performs one, and the state without that write (R142):
BUSY is 0, and the oldest held write's step comes next, or a listed write that need not wait. -/
def performedWrite (s : State) : Option (HostWrite × State) :=
  if s.busy then none
  else
    match s.pending, s.held with
    | [], a :: rest => some (a, { s with held := rest })
    | .heldWrite :: es, a :: rest => some (a, { s with pending := es, held := rest })
    | .write a :: es, _ => if mustWait a s then none else some (a, { s with pending := es })
    | _, _ => none

/-- The command word the next step issues, if it performs a write to CMD (R21). -/
def nextCommand (s : State) : Option (Word × State) :=
  match performedWrite s with
  | some (a, t) =>
    if legalAccess a.off a.width = true ∧ regAt a.off = .cmd then some (a.value, t) else none
  | none => none

/-- The next step is the Reset step (R220). -/
def resetsNext (s : State) : Bool :=
  match s.pending with
  | .reset :: _ => true
  | _ => false

/-- The transmit trace of R13, newest entry first: the bytes sent and the ticks they completed on. -/
def txTrace (s : State) : List (Nat × Byte) :=
  s.trace.filterMap fun o =>
    match o with
    | .txChar t b => some (t, b)
    | .hostRead _ _ => none
    | .de _ _ => none

/-- The event is a Tick. -/
def isTick (e : Event) : Bool :=
  match e with
  | .tick _ => true
  | .read _ _ => false
  | .write _ => false
  | .heldWrite => false
  | .reset => false

/-- The bytes `bs` stand in a buffer from index `start` on, every one of them written. -/
def Holds (m : Mem) (start : Nat) (bs : List Byte) : Prop :=
  ∀ i < bs.length, m.get (start + i) = bs[i]?

/-- The opcodes of R82 with the operand bits of their formats: `legal_mask` of R86 is `0xFF000000` ORed
with the second component. -/
def formats : List (Byte × Word) :=
  [(0x01, 0x000000), (0x02, 0x0000FF), (0x03, 0x0101FF), (0x10, 0xFFFFFF), (0x11, 0x00FFFF),
    (0x20, 0x000000), (0x30, 0x000037), (0x31, 0x000000), (0x32, 0x000001)]

/-- A word that is a command by R86: a known opcode, no 1 in a bit its format marks 0, and for OPEN a
BAUDSEL up to 4 and a PARITY up to 2 (R84). -/
def LegalWord (w : Word) : Prop :=
  ∃ p ∈ formats, w.extractLsb' 24 8 = p.1 ∧ w &&& ~~~(0xFF000000 ||| p.2) = 0 ∧
    (p.1 = 0x30 → (w.extractLsb' 0 3).toNat ≤ 4 ∧ (w.extractLsb' 4 2).toNat ≤ 2)

/-- A function code whose frame length the decoder knows (R121). -/
abbrev KnownFc (fc : Byte) : Prop := fc = 0x03#8 ∨ fc = 0x04#8 ∨ fc = 0x06#8

/-- The frame length by the header of a byte sequence (R120, R121). -/
def frameLenOf (bs : List Byte) : Nat := frameLen (bs.getD 1 0) (bs.getD 2 0) bs.length

/-- The longest an exchange takes from its acceptance, in ticks (R170): transmission, the first-byte wait,
the header read, then the longer of the body read and the silence phase. -/
def exchangeBound (s : State) : Nat :=
  s.txlen.toNat * charBits s.cfg s.parity + tStart s.cfg s.baud + tRead s.cfg s.baud +
    max (tRead s.cfg s.baud) (258 * tSil s.cfg s.baud)

/-- Both buffers are in canonical form, and hold no byte beyond their capacity (R31, R32). -/
abbrev BuffersCanonical (s : State) : Prop :=
  s.txbuf.wf txCap = true ∧ s.rxbuf.wf rxCap = true

/-- ERR is `ERRCODE ≠ 0` whenever DONE is 1 and both are 0 otherwise (R22, R204), and code 6 is never
reported (R201). -/
abbrev ReportConsistent (s : State) : Prop :=
  (s.done = true → (s.err = true ↔ s.errcode ≠ .none)) ∧
  (s.done = false → s.err = false ∧ s.errcode = .none) ∧
  s.errcode ≠ .invalidFunction

/-- While BUSY the line is open, nothing is reported, and RESP0 and RESP1 are 0 (R204, R225). -/
abbrev BusyConsistent (s : State) : Prop :=
  s.busy = true →
    s.isOpen = true ∧ s.done = false ∧ s.respAddr = 0 ∧ s.respFc = 0 ∧ s.respBc = 0 ∧
      s.crcRx = 0 ∧ s.crcCalc = 0

/-- The FIFO is within its capacity, and empty while the line is closed (R40, R141, R151). -/
abbrev FifoConsistent (s : State) : Prop :=
  s.fifo.length ≤ Config.fifoCap ∧ (s.isOpen = false → s.fifo = [])

/-- While the line is open, TSTART shows T_START of the configured baud (R30, log 21). -/
abbrev StartTimeoutShown (s : State) : Prop :=
  s.isOpen = true → s.tstart = startWord s.cfg s.baud

/-- The parameters give every wait at least one tick at every baud, as the defaults do (R6). -/
abbrev DurationsPositive (s : State) : Prop :=
  ∀ b : BaudSel, 0 < tStart s.cfg b ∧ 0 < tRead s.cfg b ∧ 0 < tSil s.cfg b

/-- In TX: a character of the request is under way, and every byte to be sent is written (R42, R143). -/
abbrev SendingSound (s : State) : Prop :=
  s.phase = .tx →
    s.txi < s.txlen.toNat ∧ s.txlen.toNat ≤ txCap ∧ s.txbit < charBits s.cfg s.parity ∧
      s.rxlen = 0 ∧ ∀ i < s.txlen.toNat, (s.txbuf.get i).isSome = true

/-- Every byte received so far is in RXBUF (R156). -/
abbrev ReceivedWritten (s : State) : Prop :=
  ∀ i < s.rxlen.toNat, (s.rxbuf.get i).isSome = true

/-- The function code and the third byte of the header in RXBUF (R157). -/
def header (s : State) : Byte × Byte := ((s.rxbuf.get 1).getD 0, (s.rxbuf.get 2).getD 0)

/-- In WAIT_FIRST nothing is received yet and a response is expected (R154). -/
abbrev WaitingSound (s : State) : Prop :=
  s.phase = .waitFirst → s.rxlen = 0 ∧ s.expect = true

/-- In HDR one or two bytes are received (R156). -/
abbrev HeaderSound (s : State) : Prop :=
  s.phase = .hdr →
    1 ≤ s.rxlen.toNat ∧ s.rxlen.toNat < 3 ∧ ReceivedWritten s

/-- In BODY the header is complete and `need` is the length it declares, not yet reached (R157, R158). -/
abbrev BodySound (s : State) : Prop :=
  s.phase = .body →
    3 ≤ s.rxlen.toNat ∧ s.rxlen.toNat < s.need ∧ s.need ≤ rxCap ∧
      declaredLen (header s).1 (header s).2 = some s.need ∧
      ReceivedWritten s

/-- In SILENCE the header is complete and its function code declares no length (R157, R159). -/
abbrev SilenceSound (s : State) : Prop :=
  s.phase = .silence →
    3 ≤ s.rxlen.toNat ∧ s.rxlen.toNat ≤ rxCap ∧
      declaredLen (header s).1 (header s).2 = none ∧
      ReceivedWritten s

/-- How many bytes a reception takes at most, by the bytes that have arrived: three until the header is
complete, then the declared length, or RX_CAP where none is declared (R156 to R159, R164). -/
def receiveLimit (bs : List Byte) : Nat :=
  if bs.length < 3 then 3 else (declaredLen (bs.getD 1 0) (bs.getD 2 0)).getD rxCap

/-- Where a reception stands once these bytes have arrived, IDLE when they end it: a complete frame, or a
byte too many (R155 to R159, R164). -/
def receptionPhase (bs : List Byte) : Phase :=
  if bs.length = 0 then .waitFirst
  else if bs.length < 3 then .hdr
  else
    match declaredLen (bs.getD 1 0) (bs.getD 2 0) with
    | some n => if bs.length < n then .body else .idle
    | none => if bs.length ≤ rxCap then .silence else .idle

/-- An exchange that ends without `decode`: RESP0 and RESP1 stay 0 (R163, R164). -/
def undecoded (code : ErrCode) : Verdict :=
  { code := code, addr := 0, fc := 0, bc := 0, crcRx := 0, crcCalc := 0 }

/-- The block is idle and reports this code, with these RESP0 and RESP1 (R124, R203). -/
def Reports (t : State) (v : Verdict) : Prop :=
  t.phase = .idle ∧ t.done = true ∧ t.err = decide (v.code ≠ .none) ∧ t.errcode = v.code ∧
    t.respAddr = v.addr ∧ t.respFc = v.fc ∧ t.respBc = v.bc ∧ t.crcRx = v.crcRx ∧ t.crcCalc = v.crcCalc

/-- The engine waits for bytes in this phase (R161). -/
def Receiving : Phase → Bool
  | .idle => false
  | .tx => false
  | .waitFirst => true
  | .hdr => true
  | .body => true
  | .silence => true

/-- How far ahead of the tick that sets it a phase's deadline is (R154, R155, R157, R159). -/
def waitTicks (p : Params) (b : BaudSel) : Phase → Nat
  | .idle => 0
  | .tx => 0
  | .waitFirst => tStart p b
  | .hdr => tRead p b
  | .body => tRead p b
  | .silence => tSil p b

/-- Between two ticks the deadline of a wait is ahead, by no more than its duration (R161, R212). -/
abbrev DeadlineAhead (s : State) : Prop :=
  Receiving s.phase = true →
    s.now < s.deadline ∧ s.deadline ≤ s.now + waitTicks s.cfg s.baud s.phase

/-- The invariant of the block. -/
abbrev Inv (s : State) : Prop :=
  BuffersCanonical s ∧ ReportConsistent s ∧ BusyConsistent s ∧ FifoConsistent s ∧
    StartTimeoutShown s ∧ DurationsPositive s ∧ SendingSound s ∧ WaitingSound s ∧ HeaderSound s ∧
    BodySound s ∧ SilenceSound s ∧ DeadlineAhead s

end Sys2Proof.Safety
end

