-- ==== Sys2Proof/Certificates/Slice0/Obligations.lean ====
section
/-! DEFINITION. The statements for the provers. A statement that ends in `exec … = .next …` is the
completion statement of its command; the equation of the whole state is its frame. -/

open Sys2Proof Sys2Proof.Machine Sys2Proof.Safety

/-- One command word of every row of the opcode table, written out from the formats of R81 and the opcode
map of R82, decodes to its command. -/
def Obligations.CommandWordsOfTheOpcodeTable : Prop :=
  decode 0x01000000 = .ok .crcInit ∧
  decode 0x020000A5 = .ok (.crcByte 0xA5) ∧
  decode 0x03010104 = .ok (.crcBuf .rx 260) ∧
  decode 0x10FC0103 = .ok (.encRaw 252 0x01 0x03) ∧
  decode 0x11000106 = .ok (.encWords 0x01 0x06) ∧
  decode 0x20000000 = .ok .decodeBuf ∧
  decode 0x30000024 = .ok (.openLine 4 2) ∧
  decode 0x31000000 = .ok .closeLine ∧
  decode 0x32000001 = .ok (.xfer true)

/-- Decoding the word of any command, with every operand at every value, gives the command back. For OPEN
with BAUDSEL 5 to 7 or PARITY 3 this rests on the model's choice of log 10: R86 makes such a word
BAD_COMMAND when it is decoded, the model when OPEN runs. -/
def Obligations.DecodeOfEncodeIsTheCommand : Prop :=
  ∀ i : Instr, decode (encode i) = .ok i

/-- A word that decodes to a command is that command's word: no two words are one command, and no bit of
a legal word is dropped. -/
def Obligations.EncodeOfDecodedWordIsTheWord : Prop :=
  ∀ (w : Word) (i : Instr), decode w = .ok i → encode i = w

/-- R83: every operand is the unsigned value of its bits, and ENC_WORDS takes its two 16-bit fields from
ARG. -/
def Obligations.OperandFieldsAreTheWordsBits : Prop :=
  (∀ w : Word,
    (∀ b, decode w = .ok (.crcByte b) → b.toNat = w.toNat % 256) ∧
    (∀ sel n, decode w = .ok (.crcBuf sel n) →
      (sel = .rx ↔ w.toNat / 65536 % 2 = 1) ∧ n.toNat = w.toNat % 512) ∧
    (∀ n addr fc, decode w = .ok (.encRaw n addr fc) →
      n.toNat = w.toNat / 65536 % 256 ∧ addr.toNat = w.toNat / 256 % 256 ∧ fc.toNat = w.toNat % 256) ∧
    (∀ addr fc, decode w = .ok (.encWords addr fc) →
      addr.toNat = w.toNat / 256 % 256 ∧ fc.toNat = w.toNat % 256) ∧
    (∀ baud parity, decode w = .ok (.openLine baud parity) →
      parity.toNat = w.toNat / 16 % 4 ∧ baud.toNat = w.toNat % 8) ∧
    (∀ e, decode w = .ok (.xfer e) → (e = true ↔ w.toNat % 2 = 1))) ∧
  (∀ (s : State) (addr fc : Byte), ∃ m,
    exec (.encWords addr fc) s = .next ({ s with txbuf := m, txlen := 8 }.finish .none) ∧
    m.get 2 = some (s.arg.extractLsb' 24 8) ∧ m.get 3 = some (s.arg.extractLsb' 16 8) ∧
    m.get 4 = some (s.arg.extractLsb' 8 8) ∧ m.get 5 = some (s.arg.extractLsb' 0 8))

/-- R85: an unallocated opcode completes at once with BAD_COMMAND and changes nothing but STATUS. -/
def Obligations.UnallocatedOpcodesAreBadCommand : Prop :=
  ∀ (w : Word) (s : State),
    w.extractLsb' 24 8 ∉ [0x01, 0x02, 0x03, 0x10, 0x11, 0x20, 0x30, 0x31, (0x32 : Byte)] →
    s.phase = .idle →
    issueCommand w s = .next { s with done := true, err := true, errcode := .badCommand }

/-- R84: a 1 in a bit the format marks 0, BAUDSEL 5, 6 or 7, or PARITY 3, completes at once with
BAD_COMMAND and changes nothing but STATUS. -/
def Obligations.ReservedBitsAndIllegalFieldsAreBadCommand : Prop :=
  ∀ (w : Word) (s : State), s.phase = .idle →
    ((∃ p ∈ formats, w.extractLsb' 24 8 = p.1 ∧ w &&& (0x00FFFFFF &&& ~~~p.2) ≠ 0) ∨
      (w.extractLsb' 24 8 = 0x30 ∧
        (5 ≤ (w.extractLsb' 0 3).toNat ∨ (w.extractLsb' 4 2).toNat = 3))) →
    issueCommand w s = .next { s with done := true, err := true, errcode := .badCommand }

/-- R86: decoding is total; a word is a command exactly when its opcode, its reserved bits and its field
values are legal, every other word is BAD_COMMAND, and the table's `mask` and `match` say the same of
opcode and reserved bits. -/
def Obligations.DecodingAcceptsExactlyTheLegalWords : Prop :=
  (∀ w : Word, (∃ i, decode w = .ok i ∧ WellFormed i = true) ↔ LegalWord w) ∧
  (∀ (w : Word) (s : State), ¬ LegalWord w →
    issueCommand w s = .next ((s.accept).finish .badCommand)) ∧
  (∀ w : Word, ∀ p ∈ formats,
    (w.extractLsb' 24 8 = p.1 ∧ w &&& ~~~(0xFF000000 ||| p.2) = 0) ↔
      w &&& ~~~p.2 = p.1.setWidth 32 <<< 24)

/-- When the write the next step performs is a write of `w` to CMD and `w` decodes to `i`, the step is
`exec i` on the state without that write, DONE, ERR and ERRCODE cleared; and `withFetchWord` places a
word so that the next step performs its write. Which write comes next is the model's choice (log 1, 3,
6). -/
def Obligations.StepRunsTheDecodedCommand : Prop :=
  (∀ (s t : State) (w : Word) (i : Instr), nextCommand s = some (w, t) → decode w = .ok i →
    step s = exec i { t with done := false, err := false, errcode := .none }) ∧
  (∀ (s : State) (w : Word),
    nextCommand (s.withFetchWord 32 w.toNat) = some (w, { s with phase := .idle }))

/-- R101: `crc_step` XORs the byte into the low 8 bits and shifts eight times, XORing the polynomial when
the low bit was 1; the polynomial is 0xA001 at the defaults; with the rule's corner cases. -/
def Obligations.CrcStepIsTheBitwiseAlgorithm : Prop :=
  (∀ (p : Params) (acc : Half) (b : Byte),
    crcStep p acc b =
      (fun a : Half => if a.getLsbD 0 then (a >>> 1) ^^^ p.crcPoly else a >>> 1)^[8]
        (acc ^^^ b.setWidth 16)) ∧
  params.crcPoly = 0xA001 ∧
  crcStep params 0xFFFF 0xFF = 0x00FF ∧ crcStep params 0xFFFF 0x00 = 0x40BF ∧
  crcStep params 0x0000 0x00 = 0x0000

/-- R100: `crc16` folds `crc_step` over the bytes in index order from CRC_INIT, 0xFFFF at the defaults;
with the rule's example and check value. -/
def Obligations.CrcSixteenFoldsFromFFFF : Prop :=
  (∀ (p : Params) (bs : List Byte), crc16 p bs = bs.foldl (crcStep p) p.crcInit) ∧
  params.crcInit = 0xFFFF ∧
  crc16 params [0x01, 0x03, 0x00, 0x01, 0x00, 0x02] = 0xCB95 ∧
  crc16 params [0x31, 0x32, 0x33, 0x34, 0x35, 0x36, 0x37, 0x38, 0x39] = 0x4B37

/-- R105: composition, zero residue, the empty input, and that a change of one byte changes the CRC (law
1, determinism, is that `crc16` is a function); the last for every polynomial with bit 15, as the default
one has. -/
def Obligations.CrcLaws : Prop :=
  (∀ (p : Params) (a b : List Byte), crc16 p (a ++ b) = b.foldl (crcStep p) (crc16 p a)) ∧
  (∀ (p : Params) (bs : List Byte),
    crc16 p (bs ++ [(crc16 p bs).extractLsb' 0 8, (crc16 p bs).extractLsb' 8 8]) = 0x0000) ∧
  crc16 params [] = 0xFFFF ∧
  (∀ (p : Params) (front back : List Byte) (b c : Byte), p.crcPoly.getLsbD 15 = true → b ≠ c →
    crc16 p (front ++ b :: back) ≠ crc16 p (front ++ c :: back)) ∧
  params.crcPoly.getLsbD 15 = true

/-- R102: CRC_INIT, by its word and as a command, from every state; 0xFFFF at the defaults; any other word
with its opcode is BAD_COMMAND and leaves ACC. -/
def Obligations.CrcInitSetsTheAccumulator : Prop :=
  (∀ s : State,
    exec .crcInit s = .next ({ s with acc := s.cfg.crcInit }.finish .none) ∧
    (s.phase = .idle →
      issueCommand 0x01000000 s =
        .next { s with acc := s.cfg.crcInit, done := true, err := false, errcode := .none } ∧
      ∀ w : Word, w.extractLsb' 24 8 = 0x01 → w ≠ 0x01000000 →
        issueCommand w s = .next { s with done := true, err := true, errcode := .badCommand })) ∧
  params.crcInit = 0xFFFF

/-- R103: CRC_BYTE continues from ACC; a 1 in bits 23:8 is BAD_COMMAND and leaves ACC; with the rule's
example stream. -/
def Obligations.CrcByteContinuesTheAccumulator : Prop :=
  (∀ (s : State) (b : Byte),
    exec (.crcByte b) s = .next ({ s with acc := crcStep s.cfg s.acc b }.finish .none) ∧
    (s.phase = .idle →
      issueCommand (0x02000000 ||| b.setWidth 32) s =
        .next { s with acc := crcStep s.cfg s.acc b, done := true, err := false, errcode := .none })) ∧
  (∀ (s : State) (w : Word), s.phase = .idle → w.extractLsb' 24 8 = 0x02 →
    w &&& 0x00FFFF00 ≠ 0 →
    issueCommand w s = .next { s with done := true, err := true, errcode := .badCommand }) ∧
  [0x01, 0x03, 0x00, 0x01, 0x00, 0x02].foldl (crcStep params) 0xFFFF = 0xCB95

/-- R104: CRC_BUF over the first N bytes of the selected buffer, from CRC_INIT (0xFFFF) whatever ACC holds;
BAD_LENGTH above the capacity, BAD_COMMAND for a reserved bit, the fault for an unwritten byte; its
operands' bits and the rule's example. -/
def Obligations.CrcBufComputesOverTheBuffer : Prop :=
  (∀ (sel : BufSel) (n : BitVec 9) (s : State) (bs : List Byte),
    n.toNat ≤ (match sel with | .tx => 256 | .rx => 260) → bs.length = n.toNat →
    Holds (match sel with | .tx => s.txbuf | .rx => s.rxbuf) 0 bs →
    exec (.crcBuf sel n) s = .next ({ s with acc := crc16 s.cfg bs }.finish .none)) ∧
  (∀ (sel : BufSel) (n : BitVec 9) (s : State),
    (match sel with | .tx => 256 | .rx => 260) < n.toNat →
    exec (.crcBuf sel n) s = .next (s.finish .badLength)) ∧
  (∀ (sel : BufSel) (n : BitVec 9) (s : State),
    n.toNat ≤ (match sel with | .tx => 256 | .rx => 260) →
    (∃ i < n.toNat, (match sel with | .tx => s.txbuf | .rx => s.rxbuf : Mem).get i = none) →
    exec (.crcBuf sel n) s = .fault .uninitRead) ∧
  (∀ (sel : BufSel) (s : State),
    exec (.crcBuf sel 0) s = .next ({ s with acc := s.cfg.crcInit }.finish .none)) ∧
  params.crcInit = 0xFFFF ∧
  (∀ w : Word, w.extractLsb' 24 8 = 0x03 → w &&& 0x00FEFE00 = 0 →
    decode w = .ok (.crcBuf (if w.getLsbD 16 then .rx else .tx) (w.extractLsb' 0 9))) ∧
  (∀ (s : State) (w : Word), s.phase = .idle → w.extractLsb' 24 8 = 0x03 →
    w &&& 0x00FEFE00 ≠ 0 →
    issueCommand w s = .next { s with done := true, err := true, errcode := .badCommand }) ∧
  crc16 params [0x01, 0x03, 0x04, 0x00, 0x0A, 0x00, 0x0B] = 0xF69B ∧
  crc16 params [0x01, 0x03, 0x04, 0x00, 0x0A, 0x00, 0x0B, 0x9B, 0xF6] = 0x0000

/-- R110: `build` appends the CRC of everything before it, low byte first. -/
def Obligations.BuildAppendsTheCrcLowByteFirst : Prop :=
  ∀ (p : Params) (addr fc : Byte) (payload : List Byte),
    build p addr fc payload =
      [addr, fc] ++ payload ++
        [(crc16 p ([addr, fc] ++ payload)).extractLsb' 0 8,
          (crc16 p ([addr, fc] ++ payload)).extractLsb' 8 8] ∧
    (build p addr fc payload).length = payload.length + 4

/-- R111: ENC_RAW builds the frame around the payload in place; TXBUF from index N+4 on, and everything
else but TXBUF, TXLEN and STATUS, is unchanged; no operand bit is reserved. -/
def Obligations.EncRawBuildsAroundThePayload : Prop :=
  (∀ (n addr fc : Byte) (s : State) (payload : List Byte),
    n.toNat ≤ 252 → payload.length = n.toNat → Holds s.txbuf 2 payload →
    ∃ m, exec (.encRaw n addr fc) s =
        .next ({ s with txbuf := m, txlen := BitVec.ofNat 9 (n.toNat + 4) }.finish .none) ∧
      Holds m 0 (build s.cfg addr fc payload) ∧
      ∀ i, n.toNat + 4 ≤ i → m.get i = s.txbuf.get i) ∧
  (∀ (n addr fc : Byte) (s : State), 252 < n.toNat →
    exec (.encRaw n addr fc) s = .next (s.finish .badLength)) ∧
  (∀ (n addr fc : Byte) (s : State), n.toNat ≤ 252 →
    (∃ i < n.toNat, s.txbuf.get (2 + i) = none) →
    exec (.encRaw n addr fc) s = .fault .uninitRead) ∧
  (∀ w : Word, w.extractLsb' 24 8 = 0x10 →
    decode w = .ok (.encRaw (w.extractLsb' 16 8) (w.extractLsb' 8 8) (w.extractLsb' 0 8))) ∧
  build params 0x01 0x03 [0x00, 0x01, 0x00, 0x02] = [0x01, 0x03, 0x00, 0x01, 0x00, 0x02, 0x95, 0xCB]

/-- R112: ENC_WORDS builds an 8-byte frame whose payload is ARG, high byte first; TXBUF from index 8 on,
and everything else but TXBUF, TXLEN and STATUS, is unchanged; a 1 in bits 23:16 is BAD_COMMAND. -/
def Obligations.EncWordsBuildsFromArg : Prop :=
  (∀ (addr fc : Byte) (s : State),
    ∃ m, exec (.encWords addr fc) s = .next ({ s with txbuf := m, txlen := 8 }.finish .none) ∧
      Holds m 0 (build s.cfg addr fc
        [s.arg.extractLsb' 24 8, s.arg.extractLsb' 16 8, s.arg.extractLsb' 8 8,
          s.arg.extractLsb' 0 8]) ∧
      ∀ i, 8 ≤ i → m.get i = s.txbuf.get i) ∧
  (∀ w : Word, w.extractLsb' 24 8 = 0x11 → w &&& 0x00FF0000 = 0 →
    decode w = .ok (.encWords (w.extractLsb' 8 8) (w.extractLsb' 0 8))) ∧
  (∀ (s : State) (w : Word), s.phase = .idle → w.extractLsb' 24 8 = 0x11 →
    w &&& 0x00FF0000 ≠ 0 →
    issueCommand w s = .next { s with done := true, err := true, errcode := .badCommand }) ∧
  build params 0x01 0x03 [0x00, 0x01, 0x00, 0x02] = [0x01, 0x03, 0x00, 0x01, 0x00, 0x02, 0x95, 0xCB] ∧
  build params 0x01 0x06 [0x00, 0x01, 0x00, 0x03] = [0x01, 0x06, 0x00, 0x01, 0x00, 0x03, 0x98, 0x0B]

/-- The pseudo-instructions ENC_READ, ENC_WRITE and CRC_BYTES (R88) on an idle block with no write
held (a held write goes first, log 3): the two request frames of T3D §6, and the CRC of the bytes in
ACC. -/
def Obligations.PseudoInstructionsBuildRequestsAndCrcs : Prop :=
  (∀ (s : State) (addr fc : Byte) (start count : Half), s.phase = .idle → s.held = [] →
    ∃ t, runEvents (encRead addr fc start count) s = .next t ∧ t.txlen = 8 ∧ t.done = true ∧
      t.err = false ∧ t.arg = start ++ count ∧
      Holds t.txbuf 0 (build s.cfg addr fc
        [start.extractLsb' 8 8, start.extractLsb' 0 8, count.extractLsb' 8 8,
          count.extractLsb' 0 8])) ∧
  (∀ (s : State) (addr : Byte) (reg value : Half), s.phase = .idle → s.held = [] →
    ∃ t, runEvents (encWrite addr reg value) s = .next t ∧ t.txlen = 8 ∧ t.done = true ∧
      t.err = false ∧ t.arg = reg ++ value ∧
      Holds t.txbuf 0 (build s.cfg addr 0x06
        [reg.extractLsb' 8 8, reg.extractLsb' 0 8, value.extractLsb' 8 8,
          value.extractLsb' 0 8])) ∧
  (∀ (s : State) (bs : List Byte), s.phase = .idle → s.held = [] →
    runEvents (crcBytes bs) s =
      .next { s with acc := crc16 s.cfg bs, done := true, err := false, errcode := .none })

/-- R121: the frame length by function code. -/
def Obligations.FrameLengthByFunctionCode : Prop :=
  ∀ (fc bc : Byte) (len : Nat),
    frameLen 0x03 bc len = 5 + bc.toNat ∧ frameLen 0x04 bc len = 5 + bc.toNat ∧
    frameLen 0x06 bc len = 8 ∧
    (fc ≠ 0x03 → fc ≠ 0x04 → fc ≠ 0x06 → frameLen fc bc len = len) ∧
    5 ≤ 5 + bc.toNat ∧ 5 + bc.toNat ≤ 260

/-- R122: the order of the decoder's checks and its consequences; MIN_FRAME is 5 at the defaults, so that an
unknown frame is SHORT_RESPONSE exactly at length 3 or 4. -/
def Obligations.DecodeCheckOrder : Prop :=
  (∀ (p : Params) (bs : List Byte),
    (bs.length < 3 → (decodeFrame p bs).code = .shortResponse) ∧
    (3 ≤ bs.length → KnownFc (bs.getD 1 0) → bs.length < frameLenOf bs →
      (decodeFrame p bs).code = .incompleteFrame) ∧
    (3 ≤ bs.length → ¬ KnownFc (bs.getD 1 0) →
      ((decodeFrame p bs).code = .shortResponse ↔ bs.length < p.minFrame)) ∧
    ((decodeFrame p bs).code = .crcMismatch → 3 ≤ bs.length ∧ frameLenOf bs ≤ bs.length)) ∧
  (∀ bs : List Byte, 3 ≤ bs.length → ¬ KnownFc (bs.getD 1 0) →
    ((decodeFrame params bs).code = .shortResponse ↔ bs.length = 3 ∨ bs.length = 4)) ∧
  (decodeFrame params [0x01, 0x03, 0x00, 0xFF]).code = .incompleteFrame

/-- A frame of full length, at least MIN_FRAME bytes: CRC_RX is its trailing pair, low byte first, CRC_CALC
the CRC of the bytes before it; the code is NONE exactly when the two are equal, and then the residue over
the whole frame is 0; CRC_MISMATCH otherwise (from R120, R123). -/
def Obligations.CrcVerdictOfFullFrames : Prop :=
  ∀ (p : Params) (bs : List Byte),
    3 ≤ bs.length → frameLenOf bs ≤ bs.length → p.minFrame ≤ frameLenOf bs →
    (decodeFrame p bs).crcRx.toNat =
      (bs.getD (frameLenOf bs - 2) 0).toNat + 256 * (bs.getD (frameLenOf bs - 1) 0).toNat ∧
    (decodeFrame p bs).crcCalc = crc16 p (bs.take (frameLenOf bs - 2)) ∧
    ((decodeFrame p bs).code = .none ↔
      (crc16 p (bs.take (frameLenOf bs - 2))).toNat =
        (bs.getD (frameLenOf bs - 2) 0).toNat + 256 * (bs.getD (frameLenOf bs - 1) 0).toNat) ∧
    ((decodeFrame p bs).code = .none → crc16 p (bs.take (frameLenOf bs)) = 0x0000) ∧
    ((decodeFrame p bs).code ≠ .none → (decodeFrame p bs).code = .crcMismatch)

/-- Changing any one byte of a valid frame, its length rule unchanged, gives CRC_MISMATCH, for every
polynomial with bit 15 as the default one has (from R123). -/
def Obligations.CorruptedByteIsCrcMismatch : Prop :=
  (∀ (p : Params) (bs : List Byte) (i : Nat) (b : Byte), p.crcPoly.getLsbD 15 = true →
    (decodeFrame p bs).code = .none → i < frameLenOf bs → b ≠ bs.getD i 0 →
    frameLenOf (bs.set i b) = frameLenOf bs → (decodeFrame p (bs.set i b)).code = .crcMismatch) ∧
  params.crcPoly.getLsbD 15 = true

/-- Bytes beyond a complete frame of known function code change nothing of the verdict (from R126). -/
def Obligations.BytesBeyondTheFrameAreIgnored : Prop :=
  ∀ (p : Params) (bs extra : List Byte),
    KnownFc (bs.getD 1 0) → 3 ≤ bs.length → bs.length = frameLenOf bs →
    decodeFrame p (bs ++ extra) = decodeFrame p bs

/-- R129: unknown function codes take the unknown-length path, and a 5-byte exception response with a
valid CRC decodes to NONE with the exception code in BC (MIN_FRAME being at most 5, as at the
defaults). -/
def Obligations.UnknownFunctionCodesAreAccepted : Prop :=
  (∀ (fc bc : Byte) (len : Nat), ¬ KnownFc fc → frameLen fc bc len = len) ∧
  (∀ (p : Params) (addr fc code : Byte), p.minFrame ≤ 5 → fc = 0x83 ∨ fc = 0x84 ∨ fc = 0x86 →
    decodeFrame p [addr, fc, code, (crc16 p [addr, fc, code]).extractLsb' 0 8,
        (crc16 p [addr, fc, code]).extractLsb' 8 8] =
      { code := .none, addr := addr, fc := fc, bc := code, crcRx := crc16 p [addr, fc, code],
        crcCalc := crc16 p [addr, fc, code] }) ∧
  params.minFrame = 5

/-- R124 and R125: DECODE writes RESP0 and RESP1 whatever its code, bytes that do not exist read as 0, the
CRC fields are 0 when decode stopped before its CRC step; BAD_LENGTH above 260 and BAD_COMMAND change
neither; run after a reception it reproduces its code and RESP values; its word and the rule's example. -/
def Obligations.DecodeWritesTheVerdict : Prop :=
  (∀ (s : State) (bs : List Byte), s.rxlen.toNat ≤ 260 → bs.length = s.rxlen.toNat →
    Holds s.rxbuf 0 bs →
    exec .decodeBuf s = .next
      ({ s with
          respAddr := bs.getD 0 0, respFc := bs.getD 1 0, respBc := bs.getD 2 0,
          crcRx := (decodeFrame s.cfg bs).crcRx, crcCalc := (decodeFrame s.cfg bs).crcCalc }.finish
        (decodeFrame s.cfg bs).code)) ∧
  (∀ (p : Params) (bs : List Byte),
    (decodeFrame p bs).code = .shortResponse ∨ (decodeFrame p bs).code = .incompleteFrame →
    (decodeFrame p bs).crcRx = 0 ∧ (decodeFrame p bs).crcCalc = 0) ∧
  (∀ s : State, 260 < s.rxlen.toNat → exec .decodeBuf s = .next (s.finish .badLength)) ∧
  (∀ s : State, s.rxlen.toNat ≤ 260 → (∃ i < s.rxlen.toNat, s.rxbuf.get i = none) →
    exec .decodeBuf s = .fault .uninitRead) ∧
  (∀ s : State, s.rxlen = 0 → exec .decodeBuf s = .next
    ({ s with respAddr := 0, respFc := 0, respBc := 0, crcRx := 0, crcCalc := 0 }.finish
      .shortResponse)) ∧
  (∀ s t : State, s.rxlen.toNat ≤ 260 → decodeReceived s = .next t →
    exec .decodeBuf t.accept = .next t) ∧
  (∀ (s : State) (w : Word), s.phase = .idle → w.extractLsb' 24 8 = 0x20 → w ≠ 0x20000000 →
    issueCommand w s = .next { s with done := true, err := true, errcode := .badCommand }) ∧
  decode 0x20000000 = .ok .decodeBuf ∧
  decodeFrame params [0x01, 0x03, 0x04, 0x00, 0x0A, 0x00, 0x0B, 0x9B, 0xF6] =
    { code := .none, addr := 0x01, fc := 0x03, bc := 0x04, crcRx := 0xF69B, crcCalc := 0xF69B } ∧
  decodeFrame params [0x01, 0x03, 0x04, 0x00, 0x0B, 0x00, 0x0B, 0x9B, 0xF6] =
    { code := .crcMismatch, addr := 0x01, fc := 0x03, bc := 0x04, crcRx := 0xF69B, crcCalc := 0x36CA }

/-- R128: `RXWORD[k]` reads two bytes of RXBUF, high byte first, whatever else the block holds; the fault
where either is unwritten. -/
def Obligations.RegisterValueView : Prop :=
  ∀ (s : State) (k : Nat) (off : BitVec 12), k < 128 → off = BitVec.ofNat 12 (0xA00 + 4 * k) →
    (∀ high low : Byte, s.rxbuf.get (3 + 2 * k) = some high → s.rxbuf.get (4 + 2 * k) = some low →
      performRead off 4 s = .next
        { s with
          trace := .hostRead off ((high.setWidth 32 <<< 8) ||| low.setWidth 32) :: s.trace }) ∧
    (s.rxbuf.get (3 + 2 * k) = none ∨ s.rxbuf.get (4 + 2 * k) = none →
      performRead off 4 s = .fault .uninitRead)

/-- The derived durations in ticks by the formulas of R6, for all parameters, in whole ticks (the rounding
is the model's choice, log 9); at the defaults, where no duration is rounded, for every baud and parity,
with the rule's table; and the defaults themselves (R5's values). -/
def Obligations.DerivedDurations : Prop :=
  (∀ (p : Params) (b : BaudSel),
    tStart p b = max (p.minStartTimeoutMs * b.rate / 1000) (p.startChars * p.bitsPerChar) ∧
    tRead p b = p.readDeadlineMs * b.rate / 1000 ∧ tSil p b = p.silenceMs * b.rate / 1000) ∧
  (∀ (p : Params), charBits p .none = 1 + p.dataBits + p.stopBits ∧
    charBits p .even = 2 + p.dataBits + p.stopBits ∧ charBits p .odd = 2 + p.dataBits + p.stopBits) ∧
  (∀ b : BaudSel, tStart params b = max (b.rate / 2) 2000 ∧ tRead params b = b.rate ∧
    tSil params b * 20 = b.rate ∧ tStart params b * 2 = b.rate) ∧
  charBits params .none = 10 ∧ charBits params .even = 11 ∧ charBits params .odd = 11 ∧
  [BaudSel.b9600, .b19200, .b38400, .b57600, .b115200].map
      (fun b => (tStart params b, tRead params b, tSil params b)) =
    [(4800, 9600, 480), (9600, 19200, 960), (19200, 38400, 1920), (28800, 57600, 2880),
      (57600, 115200, 5760)] ∧
  State.reset.cfg =
    { dataBits := 8, stopBits := 1, startChars := 200, bitsPerChar := 10, minStartTimeoutMs := 500,
      readDeadlineMs := 1000, silenceMs := 50, minFrame := 5, crcInit := 0xFFFF, crcPoly := 0xA001 }

/-- OPEN (from R140, R89): a legal configuration opens the line, sets LINECFG and TSTART and empties the
FIFO; an illegal field is BAD_COMMAND and leaves the line as it was; the encodings of the five bauds and
the three parities. TSTART is T_START wherever 32 bits hold it, at the defaults always; what it shows
beyond is a free value of the model (log 21). -/
def Obligations.OpenConfiguresTheLine : Prop :=
  (∀ (baud : BitVec 3) (parity : BitVec 2) (s : State), baud.toNat ≤ 4 → parity.toNat ≤ 2 →
    ∃ (b : BaudSel) (p : Parity), b.bits = baud ∧ p.bits = parity ∧
      exec (.openLine baud parity) s = .next
        ({ s with
            fifo := [], baud := b, parity := p, isOpen := true,
            tstart := startWord s.cfg b }.finish .none)) ∧
  (∀ (p : Params) (b : BaudSel), tStart p b < 2 ^ 32 → (startWord p b).toNat = tStart p b) ∧
  (∀ (baud : BitVec 3) (parity : BitVec 2) (s : State), 5 ≤ baud.toNat ∨ parity.toNat = 3 →
    exec (.openLine baud parity) s = .next (s.finish .badCommand)) ∧
  [BaudSel.b9600, .b19200, .b38400, .b57600, .b115200].map (fun b => (b.bits.toNat, b.rate)) =
    [(0, 9600), (1, 19200), (2, 38400), (3, 57600), (4, 115200)] ∧
  [Parity.none, .even, .odd].map (fun p => p.bits.toNat) = [0, 1, 2] ∧
  (∀ b : BaudSel, tStart params b = max (b.rate / 2) 2000 ∧ tStart params b < 2 ^ 32)

/-- CLOSE (from R141): the line is closed and the FIFO emptied, whether or not it was open; LINECFG,
TSTART and everything else but STATUS are kept. -/
def Obligations.CloseIsIdempotent : Prop :=
  (∀ s : State, exec .closeLine s = .next ({ s with isOpen := false, fifo := [] }.finish .none)) ∧
  (∀ s t : State, exec .closeLine s = .next t → exec .closeLine t = .next t)

/-- XFER at issue (from R143, R144, R145, R207): NOT_OPEN before BAD_LENGTH, the fault for an unwritten
byte to be sent, acceptance with the FIFO emptied, and the empty request. That the fault is raised at the
write that issues XFER is the model's choice of log 15, and that T_START is that of LINECFG in every state
the one of log 16. -/
def Obligations.XferAtIssue : Prop :=
  ∀ (e : Bool) (s : State),
    (s.isOpen = false → exec (.xfer e) s = .next (s.finish .notOpen)) ∧
    (s.isOpen = true → 256 < s.txlen.toNat → exec (.xfer e) s = .next (s.finish .badLength)) ∧
    (s.isOpen = true → s.txlen.toNat ≤ 256 → (∃ i < s.txlen.toNat, s.txbuf.get i = none) →
      exec (.xfer e) s = .fault .uninitRead) ∧
    (s.isOpen = true → s.txlen ≠ 0 → s.txlen.toNat ≤ 256 →
      (∀ i < s.txlen.toNat, (s.txbuf.get i).isSome = true) →
      exec (.xfer e) s = .next
        { s with
          done := false, err := false, errcode := .none, fifo := [], rxlen := 0, respAddr := 0,
          respFc := 0, respBc := 0, crcRx := 0, crcCalc := 0, expect := e, txi := 0, txbit := 0,
          phase := .tx }) ∧
    (s.isOpen = true → s.txlen = 0 → e = false →
      exec (.xfer e) s = .next
        { s with
          done := true, err := false, errcode := .none, fifo := [], rxlen := 0, respAddr := 0,
          respFc := 0, respBc := 0, crcRx := 0, crcCalc := 0, expect := e, txi := 0, txbit := 0,
          phase := .idle }) ∧
    (s.isOpen = true → s.txlen = 0 → e = true →
      exec (.xfer e) s = .next
        { s with
          done := false, err := false, errcode := .none, fifo := [], rxlen := 0, respAddr := 0,
          respFc := 0, respBc := 0, crcRx := 0, crcCalc := 0, expect := e, txi := 0, txbit := 0,
          phase := .waitFirst, deadline := s.now + tStart s.cfg s.baud })

/-- R151: a byte is pushed when the line is open and the FIFO has room, and dropped otherwise, on any Tick
whatever the phase; an idle Tick does nothing else but count and drive DE low, and a transmitting Tick
consumes nothing. FIFO_CAP is at least 1. -/
def Obligations.LineInputIsPushedOrDropped : Prop :=
  1 ≤ Config.fifoCap ∧
  (∀ (b : Byte) (s : State), s.isOpen = true → s.fifo.length < Config.fifoCap →
    lineInput (some b) s = { s with fifo := s.fifo ++ [b] }) ∧
  (∀ (b : Byte) (s : State), s.isOpen = false ∨ Config.fifoCap ≤ s.fifo.length →
    lineInput (some b) s = s) ∧
  (∀ s : State, lineInput none s = s) ∧
  (∀ (input : Option Byte) (s : State), s.phase = .idle →
    tick input s = .next
      { s with
        now := s.now + 1, fifo := (lineInput input s).fifo, de := false,
        trace := .de (s.now + 1) false :: s.trace }) ∧
  (∀ (input : Option Byte) (s t : State), s.phase = .tx → tick input s = .next t →
    t.fifo = (lineInput input s).fifo)

/-- R153: DE is 1 on exactly the ticks on which the transmitter runs, 0 otherwise and after reset, and
each tick's DE is observed. -/
def Obligations.DriverEnableFollowsTransmission : Prop :=
  (∀ (input : Option Byte) (s t : State), tick input s = .next t →
    (t.de = true ↔ s.phase = .tx) ∧ .de (s.now + 1) t.de ∈ t.trace) ∧
  State.reset.de = false ∧ (∀ s : State, (resetStep s).de = false)

/-- R146, R152, R154 and R171: an accepted request is sent as its bytes in order, one every CHAR_BITS
ticks from acceptance, nothing between them, whatever the line delivers meanwhile; then the block waits
for the first byte, T_START from there once TSTART shows it (R30), or completes with NONE when no response
is expected. The same trace comes of every run of ticks, host reads, host writes (held) and attempts at
held writes that ends with the last tick of the transmission: no entry of another exchange is between. -/
def Obligations.RequestIsSentContiguously : Prop :=
  ∀ (s : State) (e : Bool) (bs : List Byte), s.isOpen = true → s.txlen.toNat = bs.length →
    1 ≤ bs.length → bs.length ≤ 256 → Holds s.txbuf 0 bs →
    ∃ t, exec (.xfer e) s = .next t ∧
      (∀ inputs : List (Option Byte), inputs.length = bs.length * charBits s.cfg s.parity →
        ∃ u, runTicks inputs t = .next u ∧
          u.now = s.now + bs.length * charBits s.cfg s.parity ∧
          txTrace u =
            (bs.mapIdx fun i b => (s.now + (i + 1) * charBits s.cfg s.parity, b)).reverse ++
              txTrace s ∧
          u.rxlen = 0 ∧ u.respAddr = 0 ∧ u.respFc = 0 ∧ u.respBc = 0 ∧ u.crcRx = 0 ∧
          u.crcCalc = 0 ∧
          (e = true → u.phase = .waitFirst ∧ u.done = false ∧
            (s.tstart.toNat = tStart s.cfg s.baud → u.deadline = u.now + s.tstart.toNat)) ∧
          (e = false → u.phase = .idle ∧ u.done = true ∧ u.err = false ∧ u.errcode = .none)) ∧
      (∀ (es : List Event) (last : Option Byte) (u : State), .reset ∉ es →
        (es.filter isTick).length + 1 = bs.length * charBits s.cfg s.parity →
        runEvents (es ++ [.tick last]) t = .next u →
        txTrace u =
          (bs.mapIdx fun i b => (s.now + (i + 1) * charBits s.cfg s.parity, b)).reverse ++ txTrace s)

/-- The first-byte window (from R155, R161, R163): a byte on any tick of the window, its last included, is
received and starts the header read; silence until the deadline tick ends the exchange there with
TIMEOUT, RXLEN, RESP0 and RESP1 0. -/
def Obligations.FirstByteWindow : Prop :=
  ∀ s : State, Inv s → s.phase = .waitFirst → s.fifo = [] →
    (∀ b : Byte, ∃ t, tick (some b) s = .next t ∧ t.phase = .hdr ∧ t.rxlen = 1 ∧
      t.rxbuf.get 0 = some b ∧ (∀ i, i ≠ 0 → t.rxbuf.get i = s.rxbuf.get i) ∧ t.fifo = [] ∧
      t.deadline = s.now + 1 + tRead s.cfg s.baud) ∧
    (∃ t, runTicks (List.replicate (s.deadline - s.now) none) s = .next t ∧
      t.now = s.deadline ∧ t.phase = .idle ∧ t.done = true ∧ t.err = true ∧
      t.errcode = .timeout ∧ t.rxlen = 0 ∧ t.respAddr = 0 ∧ t.respFc = 0 ∧ t.respBc = 0 ∧
      t.crcRx = 0 ∧ t.crcCalc = 0) ∧
    (∀ n < s.deadline - s.now, ∃ t, runTicks (List.replicate n none) s = .next t ∧
      t.phase = .waitFirst)

/-- The header read and its dispatch (from R156, R157): a second byte before the deadline leaves HDR
waiting; the third byte, on the deadline tick too, selects BODY with the declared length or SILENCE; the
bytes already in RXBUF stay. -/
def Obligations.HeaderDispatch : Prop :=
  ∀ (s : State) (b : Byte), Inv s → s.phase = .hdr → s.fifo = [] →
    (s.rxlen = 1 → s.now + 1 < s.deadline → ∃ t, tick (some b) s = .next t ∧ t.phase = .hdr ∧
      t.rxlen = 2 ∧ t.rxbuf.get 1 = some b ∧ (∀ i, i ≠ 1 → t.rxbuf.get i = s.rxbuf.get i) ∧
      t.deadline = s.deadline) ∧
    (∀ fc : Byte, s.rxlen = 2 → s.rxbuf.get 1 = some fc → ∃ t, tick (some b) s = .next t ∧
      t.rxlen = 3 ∧ t.rxbuf.get 2 = some b ∧ (∀ i, i ≠ 2 → t.rxbuf.get i = s.rxbuf.get i) ∧
      (fc = 0x03 ∨ fc = 0x04 → t.phase = .body ∧ t.need = 5 + b.toNat ∧
        t.deadline = s.now + 1 + tRead s.cfg s.baud) ∧
      (fc = 0x06 → t.phase = .body ∧ t.need = 8 ∧ t.deadline = s.now + 1 + tRead s.cfg s.baud) ∧
      (¬ KnownFc fc → t.phase = .silence ∧ t.deadline = s.now + 1 + tSil s.cfg s.baud))

/-- The body read (from R158, R162): a byte before the last leaves BODY waiting; the byte that completes
the declared length ends the exchange on its tick, the deadline tick included, with the verdict on
exactly the received bytes, which is NONE or CRC_MISMATCH (MIN_FRAME being at most 5, as at the
defaults); the bytes already in RXBUF stay. -/
def Obligations.BodyCompletesOnTheDeclaredLength : Prop :=
  ∀ (s : State) (b : Byte), Inv s → s.phase = .body → s.fifo = [] →
    (s.rxlen.toNat + 1 < s.need → s.now + 1 < s.deadline → ∃ t, tick (some b) s = .next t ∧
      t.phase = .body ∧ t.rxlen.toNat = s.rxlen.toNat + 1 ∧
      t.rxbuf.get s.rxlen.toNat = some b ∧
      (∀ i, i ≠ s.rxlen.toNat → t.rxbuf.get i = s.rxbuf.get i) ∧
      t.deadline = s.deadline ∧ t.need = s.need) ∧
    (s.rxlen.toNat + 1 = s.need → ∃ t bs, tick (some b) s = .next t ∧
      bs.length = s.need ∧ Holds t.rxbuf 0 bs ∧
      (∀ i < s.rxlen.toNat, bs[i]? = s.rxbuf.get i) ∧ bs[s.rxlen.toNat]? = some b ∧
      (∀ i, i ≠ s.rxlen.toNat → t.rxbuf.get i = s.rxbuf.get i) ∧
      t.rxlen.toNat = s.need ∧ Reports t (decodeFrame s.cfg bs) ∧
      (s.cfg.minFrame ≤ 5 → t.errcode = .none ∨ t.errcode = .crcMismatch))

/-- How reception ends on the deadline tick (from R161, R162, R163): the wait stands before it; on it
TIMEOUT is reported in WAIT_FIRST, and in HDR, BODY and SILENCE the verdict of `decode` on exactly the
received bytes, with the codes of R162's table (MIN_FRAME being 5 at the defaults). A byte on that tick is
stored first; where it completes neither header nor body the exchange ends all the same. -/
def Obligations.ReceptionEndsAtTheDeadline : Prop :=
  (∀ (s : State) (r : List Byte), Inv s → Receiving s.phase = true → s.fifo = [] →
    r.length = s.rxlen.toNat → Holds s.rxbuf 0 r →
    (s.now + 1 < s.deadline → ∃ t, tick none s = .next t ∧ t.phase = s.phase ∧
      t.rxlen = s.rxlen ∧ t.rxbuf = s.rxbuf ∧ t.deadline = s.deadline) ∧
    (s.now + 1 = s.deadline → ∃ t, tick none s = .next t ∧ t.now = s.deadline ∧
      t.rxlen = s.rxlen ∧ t.rxbuf = s.rxbuf ∧
      (s.phase = .waitFirst → Reports t (undecoded .timeout)) ∧
      (s.phase ≠ .waitFirst → Reports t (decodeFrame s.cfg r)) ∧
      (s.phase = .hdr → t.errcode = .shortResponse) ∧
      (s.phase = .body → t.errcode = .incompleteFrame) ∧
      (s.phase = .silence → s.rxlen.toNat < s.cfg.minFrame → t.errcode = .shortResponse) ∧
      (s.phase = .silence → s.cfg.minFrame ≤ s.rxlen.toNat →
        t.errcode = .none ∨ t.errcode = .crcMismatch)) ∧
    (∀ b : Byte, s.now + 1 = s.deadline →
      (s.phase = .hdr ∧ s.rxlen = 1) ∨ (s.phase = .body ∧ s.rxlen.toNat + 1 < s.need) →
      ∃ t, tick (some b) s = .next t ∧ t.rxlen.toNat = s.rxlen.toNat + 1 ∧
        t.rxbuf.get s.rxlen.toNat = some b ∧
        (∀ i, i ≠ s.rxlen.toNat → t.rxbuf.get i = s.rxbuf.get i) ∧
        Reports t (decodeFrame s.cfg (r ++ [b])) ∧
        (s.phase = .hdr → t.errcode = .shortResponse) ∧
        (s.phase = .body → t.errcode = .incompleteFrame))) ∧
  State.reset.cfg.minFrame = 5

/-- A Tick of a reception with any bytes waiting, those that arrived during TX among them (from R155 to
R159, R161 to R165, R172). The bytes received and those in the FIFO make one sequence; the Tick moves its
bytes into RXBUF in order, up to the limit its header sets and no further, through as many phases as they
reach. A complete frame is decoded and a byte too many is FRAME_TOO_LONG; else the wait stands, with a new
deadline where the phase is new or a byte restarted the silence, or it ends if its deadline has come. -/
def Obligations.TickConsumesTheWaitingBytes : Prop :=
  ∀ (s : State) (input : Option Byte) (r q : List Byte) (p : Phase) (m wait : Nat), Inv s →
    Receiving s.phase = true → r.length = s.rxlen.toNat → Holds s.rxbuf 0 r →
    q = (lineInput input s).fifo → p = receptionPhase (r ++ q) →
    m = min (receiveLimit (r ++ q)) (r ++ q).length →
    wait = (if p = s.phase ∧ (q = [] ∨ p ≠ .silence) then s.deadline
      else s.now + 1 + waitTicks s.cfg s.baud p) →
    ∃ t, tick input s = .next t ∧
      t.rxlen.toNat = m ∧ t.fifo = (r ++ q).drop m ∧ Holds t.rxbuf 0 ((r ++ q).take m) ∧
      (∀ i, m ≤ i → t.rxbuf.get i = s.rxbuf.get i) ∧
      (p = .idle → KnownFc ((r ++ q).getD 1 0) →
        Reports t (decodeFrame s.cfg ((r ++ q).take m))) ∧
      (p = .idle → ¬ KnownFc ((r ++ q).getD 1 0) → Reports t (undecoded .frameTooLong)) ∧
      (p ≠ .idle → s.now + 1 < wait → t.phase = p ∧ t.deadline = wait ∧ t.done = false ∧
        (p = .body → t.need = receiveLimit (r ++ q))) ∧
      (p ≠ .idle → wait ≤ s.now + 1 → p = .waitFirst → Reports t (undecoded .timeout)) ∧
      (p ≠ .idle → wait ≤ s.now + 1 → p ≠ .waitFirst → Reports t (decodeFrame s.cfg (r ++ q))) ∧
      t = { s with
        now := s.now + 1, de := false, trace := .de (s.now + 1) false :: s.trace, fifo := t.fifo,
        rxbuf := t.rxbuf, rxlen := t.rxlen, phase := t.phase, deadline := t.deadline,
        need := t.need, done := t.done, err := t.err, errcode := t.errcode,
        respAddr := t.respAddr, respFc := t.respFc, respBc := t.respBc, crcRx := t.crcRx,
        crcCalc := t.crcCalc }

/-- SILENCE and its limit (from R159, R164): a byte is stored and the silence restarts, on the deadline
tick too; at 260 bytes a waiting byte ends the exchange with FRAME_TOO_LONG, the first 260 kept and RESP0
and RESP1 0. -/
def Obligations.SilenceRestartsUntilTheBufferIsFull : Prop :=
  ∀ (s : State) (b : Byte), Inv s → s.phase = .silence → s.fifo = [] →
    (s.rxlen.toNat < 260 → ∃ t, tick (some b) s = .next t ∧ t.phase = .silence ∧
      t.rxlen.toNat = s.rxlen.toNat + 1 ∧ t.rxbuf.get s.rxlen.toNat = some b ∧
      (∀ i, i ≠ s.rxlen.toNat → t.rxbuf.get i = s.rxbuf.get i) ∧
      t.deadline = s.now + 1 + tSil s.cfg s.baud) ∧
    (s.rxlen.toNat = 260 → ∃ t, tick (some b) s = .next t ∧ t.phase = .idle ∧
      t.done = true ∧ t.err = true ∧ t.errcode = .frameTooLong ∧ t.rxlen = s.rxlen ∧
      t.rxbuf = s.rxbuf ∧ t.fifo = [b] ∧ t.respAddr = 0 ∧ t.respFc = 0 ∧ t.respBc = 0 ∧
      t.crcRx = 0 ∧ t.crcCalc = 0)

/-- From a state that meets the invariant no Tick faults or is refused, whatever the line supplies. -/
def Obligations.NoTickFaults : Prop :=
  ∀ (s : State) (input : Option Byte), Inv s → ∃ t, tick input s = .next t

/-- R170: every accepted XFER completes within the bound, whatever the line supplies; the bound is the
rule's where 258·T_SIL exceeds T_READ, as at the defaults for every baud; with the rule's example of
138320 ticks. -/
def Obligations.EveryExchangeCompletesWithinTheBound : Prop :=
  (∀ (s t : State) (e : Bool) (inputs : List (Option Byte)), Inv s → s.phase = .idle →
    exec (.xfer e) s = .next t → t.phase ≠ .idle → inputs.length = exchangeBound s →
    ∃ n u, n ≤ exchangeBound s ∧ runTicks (inputs.take n) t = .next u ∧ u.phase = .idle ∧
      u.done = true ∧ u.now = s.now + n) ∧
  (∀ s : State, tRead s.cfg s.baud ≤ 258 * tSil s.cfg s.baud →
    exchangeBound s = s.txlen.toNat * charBits s.cfg s.parity + tStart s.cfg s.baud +
      tRead s.cfg s.baud + 258 * tSil s.cfg s.baud) ∧
  (∀ b : BaudSel, tRead params b < 258 * tSil params b) ∧
  (∀ s : State, s.cfg = params → s.baud = .b9600 → s.parity = .none → s.txlen = 8 →
    exchangeBound s = 138320)

/-- After a Tick's consumption the rule of the phase reached does not change the phase again (from R165):
the four rounds of the model's loop are all there are. -/
def Obligations.ConsumptionRunsUntilThePhaseStands : Prop :=
  ∀ s t : State, rxConsume s = .next t → ∃ u, phaseStep t = .next u ∧ u.phase = t.phase

/-- R203: `finish(code)` writes PHASE, DONE, ERR and ERRCODE and changes no other state; DE is 0 from the
next tick. -/
def Obligations.FinishWritesTheReport : Prop :=
  ∀ (s : State) (code : ErrCode),
    s.finish code =
      { s with phase := .idle, done := true, err := decide (code ≠ .none), errcode := code } ∧
    ∀ input : Option Byte, ∃ t, tick input (s.finish code) = .next t ∧ t.de = false

/-- R205: a command that ends with BAD_COMMAND, BAD_LENGTH or NOT_OPEN changes nothing but DONE, ERR and
ERRCODE. -/
def Obligations.RejectedCommandsChangeOnlyTheReport : Prop :=
  ∀ (s t : State) (w : Word), s.phase = .idle → issueCommand w s = .next t →
    t.errcode = .badCommand ∨ t.errcode = .badLength ∨ t.errcode = .notOpen →
    t = { s with done := true, err := true, errcode := t.errcode }

/-- R147: every command but an accepted XFER completes within its write, in zero ticks; an accepted XFER
reports nothing yet. -/
def Obligations.CommandsCompleteWithinTheirWrite : Prop :=
  ∀ (s t : State) (w : Word), s.phase = .idle → issueCommand w s = .next t →
    t.now = s.now ∧ (t.phase = .idle → t.done = true) ∧
    (t.phase ≠ .idle → t.done = false ∧ t.err = false ∧ t.errcode = .none ∧
      ∃ e, decode w = .ok (.xfer e))

/-- R206: between commands DONE, ERR and ERRCODE hold until the next performed write to CMD or a Reset. -/
def Obligations.ReportPersists : Prop :=
  ∀ s t : State, s.phase = .idle → nextCommand s = none → resetsNext s = false →
    step s = .next t → t.done = s.done ∧ t.err = s.err ∧ t.errcode = s.errcode

/-- ACC is written by CRC_INIT, CRC_BYTE and CRC_BUF, and by nothing else but Reset (from R24). -/
def Obligations.AccumulatorWrittenOnlyByCrcCommands : Prop :=
  ∀ s t : State, step s = .next t → t.acc ≠ s.acc →
    resetsNext s = true ∨
    ∃ w u i, nextCommand s = some (w, u) ∧ decode w = .ok i ∧
      (i = .crcInit ∨ (∃ b, i = .crcByte b) ∨ ∃ sel n, i = .crcBuf sel n)

/-- OPEN is written only by OPEN, CLOSE and Reset, and LINECFG and TSTART only by OPEN and Reset (from
R22, R23, R30). -/
def Obligations.LineStateWrittenOnlyByLineCommands : Prop :=
  ∀ s t : State, step s = .next t →
    (t.isOpen ≠ s.isOpen → resetsNext s = true ∨
      ∃ w u i, nextCommand s = some (w, u) ∧ decode w = .ok i ∧
        (i = .closeLine ∨ ∃ b p, i = .openLine b p)) ∧
    (t.baud ≠ s.baud ∨ t.parity ≠ s.parity ∨ t.tstart ≠ s.tstart → resetsNext s = true ∨
      ∃ w u b p, nextCommand s = some (w, u) ∧ decode w = .ok (.openLine b p))

/-- Which command can end with which code (the "never" entries of R202), at issue and, for XFER, at the
end of its exchange. -/
def Obligations.CodesOfEachCommand : Prop :=
  (∀ (s t : State) (i : Instr), exec i s = .next t → t.phase = .idle →
    t.errcode ∈
      (match i with
      | .crcInit => [.none]
      | .crcByte _ => [.none]
      | .crcBuf _ _ => [.none, .badLength]
      | .encRaw _ _ _ => [.none, .badLength]
      | .encWords _ _ => [.none]
      | .decodeBuf => [.none, .incompleteFrame, .shortResponse, .crcMismatch, .badLength]
      | .openLine _ _ => [.none, .badCommand]
      | .closeLine => [.none]
      | .xfer _ => [.none, .notOpen, .badLength] : List ErrCode)) ∧
  (∀ (s t : State) (input : Option Byte), s.phase ≠ .idle → tick input s = .next t →
    t.phase = .idle →
    t.errcode ∈ ([.none, .timeout, .incompleteFrame, .shortResponse, .crcMismatch, .frameTooLong] :
      List ErrCode))

/-- The BUSY hold (from R142, R226, R68): while BUSY a write is held whatever its offset, or refused on a
bus that cannot hold it (log 12), reads are performed, and the held write's step is not enabled; with
BUSY 0 a write is performed at once where none is held, and the held write's step performs the oldest
held write unchanged. The order among held writes, and that a later write joins them, is the model's
choice (log 3), and that a write that cannot be held is performed with BUSY 0 ahead of them (log 22). -/
def Obligations.HostWritesAreHeldWhileBusy : Prop :=
  (∀ (s : State) (a : HostWrite), s.busy = true → legalAccess a.off a.width = true →
    (a.canHold = true → hostWrite a s = .next { s with held := s.held ++ [a] }) ∧
    (a.canHold = false → hostWrite a s = .refused .unholdableWrite)) ∧
  (∀ s : State, s.busy = true → envStep .heldWrite s = .next s) ∧
  (∀ (s : State) (off : BitVec 12) (v : Word), s.busy = true → legalAccess off 4 = true →
    readReg s (regAt off) = some v →
    envStep (.read off 4) s = .next { s with trace := .hostRead off v :: s.trace }) ∧
  (∀ (s : State) (a : HostWrite), s.busy = false → s.held = [] ∨ a.canHold = false →
    legalAccess a.off a.width = true →
    hostWrite a s = performWrite a.off a.value s) ∧
  (∀ (s : State) (a b : HostWrite) (rest : List HostWrite), s.busy = false → s.held = b :: rest →
    legalAccess a.off a.width = true → a.canHold = true →
    hostWrite a s = .next { s with held := s.held ++ [a] }) ∧
  (∀ (s : State) (a : HostWrite) (rest : List HostWrite), s.busy = false → s.held = a :: rest →
    legalAccess a.off a.width = true →
    envStep .heldWrite s = performWrite a.off a.value { s with held := rest } ∧
    (s.pending = [] → step s = performWrite a.off a.value { s with held := rest }))

/-- An access of another width or at an offset that is not a multiple of 4 is refused by name, and no
other access is (from R62). That a misaligned write is refused while BUSY too, ahead of the hold, is the
model's choice of log 11. -/
def Obligations.MisalignedAccessesAreRefused : Prop :=
  (∀ (s : State) (off : BitVec 12) (width : Nat), width ≠ 4 ∨ off.toNat % 4 ≠ 0 →
    performRead off width s = .refused .misalignedHostAccess ∧
    ∀ v canHold, hostWrite { off := off, width := width, value := v, canHold := canHold } s =
      .refused .misalignedHostAccess) ∧
  (∀ (s : State) (off : BitVec 12), off.toNat % 4 = 0 →
    performRead off 4 s ≠ .refused .misalignedHostAccess ∧
    ∀ v canHold, hostWrite { off := off, width := 4, value := v, canHold := canHold } s ≠
      .refused .misalignedHostAccess)

/-- R64: no host read has a side effect, and a write to a register other than CMD stores the written value
in the register or buffer byte it names and does nothing else; only a write to CMD starts a command. -/
def Obligations.OnlyCommandWritesHaveSideEffects : Prop :=
  (∀ (s t : State) (off : BitVec 12) (width : Nat), performRead off width s = .next t →
    ∃ v, t = { s with trace := .hostRead off v :: s.trace } ∧
      performRead off width t = .next { t with trace := .hostRead off v :: t.trace }) ∧
  (∀ (s : State) (off : BitVec 12) (v : Word), regAt off ≠ .cmd →
    performWrite off v s = .next
      (match regAt off with
      | .arg => { s with arg := v }
      | .txlen => { s with txlen := v.setWidth 9 }
      | .rxlen => { s with rxlen := v.setWidth 9 }
      | .txbuf i => { s with txbuf := s.txbuf.write i (v.setWidth 8) }
      | .rxbuf i => { s with rxbuf := s.rxbuf.write i (v.setWidth 8) }
      | _ => s)) ∧
  (∀ (m : Mem) (i k : Nat) (b : Byte),
    (m.write i b).get k = if k = i then some b else m.get k) ∧
  (∀ (s : State) (v : Word), performWrite 0x000 v s = issueCommand v s)

/-- What the control and status registers read as (from R21 to R30, R34): the fields at their bits, every
reserved bit 0; with the numbers of the phases (R41) and of the error codes (R200). -/
def Obligations.RegisterWordsByField : Prop :=
  [Phase.idle, .tx, .waitFirst, .hdr, .body, .silence].map (fun p => p.bits.toNat) =
    [0, 1, 2, 3, 4, 5] ∧
  [ErrCode.none, .notOpen, .timeout, .incompleteFrame, .shortResponse, .crcMismatch,
      .invalidFunction, .frameTooLong, .badCommand, .badLength].map (fun c => c.bits.toNat) =
    [0, 1, 2, 3, 4, 5, 6, 7, 8, 9] ∧
  [BaudSel.b9600, .b19200, .b38400, .b57600, .b115200].map (fun b => b.bits.toNat) =
    [0, 1, 2, 3, 4] ∧
  [Parity.none, .even, .odd].map (fun p => p.bits.toNat) = [0, 1, 2] ∧
  ∀ s : State,
    readReg s (regAt 0x000) = some 0 ∧
    (∃ v, readReg s (regAt 0x004) = some v ∧
      v.toNat = s.busy.toNat + 2 * s.done.toNat + 4 * s.err.toNat + 8 * s.isOpen.toNat +
        256 * s.errcode.bits.toNat + 65536 * s.phase.bits.toNat) ∧
    (∃ v, readReg s (regAt 0x008) = some v ∧
      v.toNat = s.baud.bits.toNat + 16 * s.parity.bits.toNat) ∧
    (∃ v, readReg s (regAt 0x00C) = some v ∧ v.toNat = s.acc.toNat) ∧
    readReg s (regAt 0x010) = some s.arg ∧
    (∃ v, readReg s (regAt 0x014) = some v ∧ v.toNat = s.txlen.toNat) ∧
    (∃ v, readReg s (regAt 0x018) = some v ∧ v.toNat = s.rxlen.toNat) ∧
    (∃ v, readReg s (regAt 0x01C) = some v ∧
      v.toNat = s.respAddr.toNat + 256 * s.respFc.toNat + 65536 * s.respBc.toNat) ∧
    (∃ v, readReg s (regAt 0x020) = some v ∧
      v.toNat = s.crcRx.toNat + 65536 * s.crcCalc.toNat) ∧
    readReg s (regAt 0x024) = some s.tstart ∧
    (s.busy = true ↔ s.phase ≠ .idle)

/-- What a host write stores (from R25 to R27, R31, R32, R34): ARG whole, nine bits of TXLEN and RXLEN, a
buffer byte and its written mark and no other byte; read-only registers and reserved offsets ignore
it. -/
def Obligations.HostWritesStoreTheirRegister : Prop :=
  (∀ (s : State) (v : Word),
    performWrite 0x010 v s = .next { s with arg := v } ∧
    performWrite 0x014 v s = .next { s with txlen := v.setWidth 9 } ∧
    performWrite 0x018 v s = .next { s with rxlen := v.setWidth 9 }) ∧
  (∀ (s : State) (v : Word) (i : Nat), i < 256 →
    ∃ m, performWrite (BitVec.ofNat 12 (0x100 + 4 * i)) v s = .next { s with txbuf := m } ∧
      m.get i = some (v.setWidth 8) ∧ ∀ k, k ≠ i → m.get k = s.txbuf.get k) ∧
  (∀ (s : State) (v : Word) (i : Nat), i < 260 →
    ∃ m, performWrite (BitVec.ofNat 12 (0x500 + 4 * i)) v s = .next { s with rxbuf := m } ∧
      m.get i = some (v.setWidth 8) ∧ ∀ k, k ≠ i → m.get k = s.rxbuf.get k) ∧
  (∀ (s : State) (v : Word) (off : BitVec 12), off.toNat % 4 = 0 →
    off ∈ [0x004, 0x008, 0x00C, 0x01C, 0x020, (0x024 : BitVec 12)] ∨
      (0x028 ≤ off.toNat ∧ off.toNat < 0x100) ∨ 0x910 ≤ off.toNat →
    performWrite off v s = .next s)

/-- The buffers through the host's reads (from R31, R32, R34, R45): a written byte reads zero-extended, an
unwritten one is the fault UninitRead, reserved offsets read 0, and after a Reset every byte is
unwritten. -/
def Obligations.BufferReadsAndWrittenMarks : Prop :=
  (∀ (s : State) (i : Nat), i < 256 →
    (∀ b, s.txbuf.get i = some b → performRead (BitVec.ofNat 12 (0x100 + 4 * i)) 4 s =
      .next { s with
        trace := .hostRead (BitVec.ofNat 12 (0x100 + 4 * i)) (b.setWidth 32) :: s.trace }) ∧
    (s.txbuf.get i = none → performRead (BitVec.ofNat 12 (0x100 + 4 * i)) 4 s =
      .fault .uninitRead)) ∧
  (∀ (s : State) (i : Nat), i < 260 →
    (∀ b, s.rxbuf.get i = some b → performRead (BitVec.ofNat 12 (0x500 + 4 * i)) 4 s =
      .next { s with
        trace := .hostRead (BitVec.ofNat 12 (0x500 + 4 * i)) (b.setWidth 32) :: s.trace }) ∧
    (s.rxbuf.get i = none → performRead (BitVec.ofNat 12 (0x500 + 4 * i)) 4 s =
      .fault .uninitRead)) ∧
  (∀ (s : State) (off : BitVec 12), off.toNat % 4 = 0 →
    (0x028 ≤ off.toNat ∧ off.toNat < 0x100) ∨ (0x910 ≤ off.toNat ∧ off.toNat < 0xA00) ∨
      0xC00 ≤ off.toNat →
    performRead off 4 s = .next { s with trace := .hostRead off 0 :: s.trace }) ∧
  (∀ (s : State) (i : Nat), (resetStep s).txbuf.get i = none ∧ (resetStep s).rxbuf.get i = none)

/-- The layout of the window (from R60), and its placement at BASE_ADDR, which is the model's choice of
log 8 where R60 leaves it to the platform. -/
def Obligations.WindowLayout : Prop :=
  ([0x000, 0x004, 0x008, 0x00C, 0x010, 0x014, 0x018, 0x01C, 0x020, 0x024].map regAt =
    [.cmd, .status, .linecfg, .crc, .arg, .txlen, .rxlen, .resp0, .resp1, .tstart]) ∧
  (∀ k, 10 ≤ k → k < 64 → regAt (BitVec.ofNat 12 (4 * k)) = .reserved) ∧
  (∀ i, i < 256 → regAt (BitVec.ofNat 12 (0x100 + 4 * i)) = .txbuf i) ∧
  (∀ i, i < 260 → regAt (BitVec.ofNat 12 (0x500 + 4 * i)) = .rxbuf i) ∧
  (∀ k, k < 60 → regAt (BitVec.ofNat 12 (0x910 + 4 * k)) = .reserved) ∧
  (∀ k, k < 128 → regAt (BitVec.ofNat 12 (0xA00 + 4 * k)) = .rxword k) ∧
  (∀ k, k < 256 → regAt (BitVec.ofNat 12 (0xC00 + 4 * k)) = .reserved) ∧
  (∀ k, k < 4096 → windowOffset (Config.baseAddr + k) = some (BitVec.ofNat 12 k)) ∧
  (∀ addr, addr < Config.baseAddr ∨ Config.baseAddr + 4096 ≤ addr → windowOffset addr = none)

/-- R47: the state after a Reset step from any state, and the model's state after reset; ACC is CRC_INIT,
0xFFFF at the defaults. -/
def Obligations.ResetValues : Prop :=
  ∀ t : State, t = State.reset ∨ (∃ s, t = resetStep s) →
    statusWord t = 0 ∧ linecfgWord t = 0 ∧ t.acc = t.cfg.crcInit ∧ t.arg = 0 ∧ t.txlen = 0 ∧ t.rxlen = 0 ∧
    resp0Word t = 0 ∧ resp1Word t = 0 ∧ t.tstart = 0 ∧
    (∀ i, t.txbuf.get i = none) ∧ (∀ i, t.rxbuf.get i = none) ∧ t.fifo = [] ∧ t.phase = .idle ∧
    t.txi = 0 ∧ t.txbit = 0 ∧ t.deadline = 0 ∧ t.need = 0 ∧ t.expect = false ∧ t.now = 0 ∧
    t.de = false ∧ (t.cfg = params → t.acc = 0xFFFF)

/-- The Reset step can be the next step in any state, during an exchange and with writes held too, and
leaves the block in its reset state with the parameters it had (from R220); the environment's schedule,
its held writes and the observation stay (the model's choice, log 5). -/
def Obligations.ResetStepFromAnyState : Prop :=
  ∀ (s : State) (rest : List Event), s.pending = .reset :: rest →
    step s = .next
      { State.reset with
        acc := s.cfg.crcInit, cfg := s.cfg, pending := rest, held := s.held, oracle := s.oracle
        trace := s.trace }

/-- The state after reset meets the invariant. -/
def Obligations.ResetMeetsTheInvariant : Prop := Inv State.reset

/-- Every step keeps the invariant: the buffers' canonical form, the report's consistency (ERR is
ERRCODE ≠ 0 once DONE, both 0 before, code 6 never), what holds while BUSY, the FIFO's bounds, TSTART,
and the soundness of every engine phase and its deadline. And no step changes the parameters. -/
def Obligations.EveryStepKeepsTheInvariant : Prop :=
  (∀ s t : State, Inv s → step s = .next t → Inv t) ∧
  (∀ s t : State, step s = .next t → t.cfg = s.cfg)
end

