-- ==== Sys2Proof/Laws/Mem.lean ====
section
/-! SUPPORT. The buffers' memory: a read after a write, the canonical form, and spans. -/

namespace Sys2Proof.Machine

@[simp] theorem Mem.get_nil (i : Nat) : Mem.get [] i = none := rfl

/-- A read of the written index gives the written byte. -/
@[simp] theorem Mem.get_write_same (m : Mem) (i : Nat) (b : Byte) : (m.write i b).get i = some b := by
  induction m with
  | nil => simp [Mem.write, Mem.get]
  | cons c m ih =>
    obtain ⟨j, c⟩ := c
    simp only [Mem.write]
    split
    · simp [Mem.get]
    · split
      · simp [Mem.get]
      · rename_i h
        simp [Mem.get, Ne.symm h, ih]

/-- A write leaves every other index as it was. -/
theorem Mem.get_write_other (m : Mem) {i k : Nat} (b : Byte) (h : k ≠ i) :
    (m.write i b).get k = m.get k := by
  induction m with
  | nil => simp [Mem.write, Mem.get, Ne.symm h]
  | cons c m ih =>
    obtain ⟨j, c⟩ := c
    simp only [Mem.write]
    split
    · simp [Mem.get, Ne.symm h]
    · split
      · rename_i e
        subst e
        simp [Mem.get, Ne.symm h]
      · simp [Mem.get, ih]

/-- A read after a write, in one equation. -/
theorem Mem.get_write (m : Mem) (i k : Nat) (b : Byte) :
    (m.write i b).get k = if k = i then some b else m.get k := by
  split
  · rename_i h
    simp [h]
  · rename_i h
    exact Mem.get_write_other m b h

/-- A write sets a written mark and clears none (R45). -/
theorem Mem.isSome_get_write (m : Mem) (i k : Nat) (b : Byte) :
    ((m.write i b).get k).isSome = true ↔ k = i ∨ (m.get k).isSome = true := by
  rw [Mem.get_write]
  split <;> simp_all

theorem Mem.wfFrom_mono {cap low low' : Nat} {m : Mem} (h : low' ≤ low)
    (hm : Mem.wfFrom cap low m = true) : Mem.wfFrom cap low' m = true := by
  cases m with
  | nil => rfl
  | cons c m =>
    simp only [Mem.wfFrom, Bool.and_eq_true, decide_eq_true_eq] at hm ⊢
    exact ⟨⟨by omega, hm.1.2⟩, hm.2⟩

theorem Mem.wfFrom_write {cap low i : Nat} {m : Mem} (b : Byte) (hi : i < cap) (hl : low ≤ i)
    (hm : Mem.wfFrom cap low m = true) : Mem.wfFrom cap low (m.write i b) = true := by
  induction m generalizing low with
  | nil => simp [Mem.write, Mem.wfFrom, hi, hl]
  | cons c m ih =>
    obtain ⟨j, c⟩ := c
    simp only [Mem.wfFrom, Bool.and_eq_true, decide_eq_true_eq] at hm
    obtain ⟨⟨hlj, hj⟩, hrest⟩ := hm
    simp only [Mem.write]
    split
    · rename_i hij
      simp only [Mem.wfFrom, Bool.and_eq_true, decide_eq_true_eq]
      exact ⟨⟨hl, hi⟩, ⟨by omega, hj⟩, hrest⟩
    · split
      · rename_i e
        subst e
        simp only [Mem.wfFrom, Bool.and_eq_true, decide_eq_true_eq]
        exact ⟨⟨hl, hi⟩, hrest⟩
      · simp only [Mem.wfFrom, Bool.and_eq_true, decide_eq_true_eq]
        exact ⟨⟨hlj, hj⟩, ih (by omega) hrest⟩

/-- A write below the capacity keeps the canonical form. -/
theorem Mem.wf_write {cap i : Nat} {m : Mem} (b : Byte) (hi : i < cap) (hm : m.wf cap = true) :
    (m.write i b).wf cap = true := Mem.wfFrom_write b hi (Nat.zero_le _) hm

/-- Consecutive writes below the capacity keep the canonical form. -/
theorem Mem.wf_writeBytes {cap : Nat} (bs : List Byte) : ∀ {m : Mem} {start : Nat},
    start + bs.length ≤ cap → m.wf cap = true → (m.writeBytes start bs).wf cap = true := by
  induction bs with
  | nil => intro m start _ hm; exact hm
  | cons b bs ih =>
    intro m start hs hm
    simp only [List.length_cons] at hs
    exact ih (by omega) (Mem.wf_write b (by omega) hm)

theorem Mem.get_of_wfFrom {cap low i : Nat} {m : Mem} (hm : Mem.wfFrom cap low m = true)
    (hi : i < low ∨ cap ≤ i) : m.get i = none := by
  induction m generalizing low with
  | nil => rfl
  | cons c m ih =>
    obtain ⟨j, c⟩ := c
    simp only [Mem.wfFrom, Bool.and_eq_true, decide_eq_true_eq] at hm
    obtain ⟨⟨hlj, hj⟩, hrest⟩ := hm
    simp only [Mem.get]
    rw [if_neg (by omega)]
    exact ih hrest (by omega)

/-- A canonical buffer has no byte at or beyond its capacity. -/
theorem Mem.get_of_wf {cap i : Nat} {m : Mem} (hm : m.wf cap = true) (hi : cap ≤ i) :
    m.get i = none := Mem.get_of_wfFrom hm (Or.inr hi)

/-- What consecutive writes leave: the bytes where they stand, every other index as it was. -/
theorem Mem.get_writeBytes (bs : List Byte) : ∀ (m : Mem) (start k : Nat),
    (m.writeBytes start bs).get k =
      if start ≤ k ∧ k < start + bs.length then bs[k - start]? else m.get k := by
  induction bs with
  | nil =>
    intro m start k
    rw [if_neg (by simp)]
    rfl
  | cons b bs ih =>
    intro m start k
    simp only [Mem.writeBytes, ih, Mem.get_write, List.length_cons]
    by_cases h1 : k = start
    · subst h1
      rw [if_neg (by omega), if_pos rfl, if_pos (by omega)]
      simp
    · by_cases h2 : start + 1 ≤ k ∧ k < start + 1 + bs.length
      · rw [if_pos h2, if_pos (by omega)]
        obtain ⟨d, rfl⟩ : ∃ d, k = start + 1 + d := ⟨k - (start + 1), by omega⟩
        rw [show start + 1 + d - start = d + 1 by omega, show start + 1 + d - (start + 1) = d by omega]
        simp
      · rw [if_neg h2, if_neg h1, if_neg (by omega)]

/-- A span has as many bytes as it was asked for. -/
theorem Mem.span_length {m : Mem} {start count : Nat} {bs : List Byte}
    (h : m.span start count = some bs) : bs.length = count := by
  induction count generalizing start bs with
  | zero => simp only [Mem.span, Option.some.injEq] at h; simp [← h]
  | succ n ih =>
    simp only [Mem.span] at h
    split at h
    · rename_i hb hbs
      cases h
      simp [ih hbs]
    · cases h

/-- A span's bytes are the buffer's. -/
theorem Mem.span_get {m : Mem} {start count : Nat} {bs : List Byte}
    (h : m.span start count = some bs) {i : Nat} (hi : i < count) : m.get (start + i) = bs[i]? := by
  induction count generalizing start bs i with
  | zero => omega
  | succ n ih =>
    simp only [Mem.span] at h
    split at h
    · rename_i b bs' hb hbs
      cases h
      cases i with
      | zero => simpa using hb
      | succ i =>
        rw [show start + (i + 1) = start + 1 + i by omega, ih hbs (by omega)]
        simp
    · cases h

/-- A span answers exactly when every byte of it is written. -/
theorem Mem.span_isSome_iff {m : Mem} {start count : Nat} :
    (m.span start count).isSome = true ↔ ∀ i < count, (m.get (start + i)).isSome = true := by
  induction count generalizing start with
  | zero => simp [Mem.span]
  | succ n ih =>
    have step : (m.span start (n + 1)).isSome = true ↔
        (m.get start).isSome = true ∧ (m.span (start + 1) n).isSome = true := by
      simp only [Mem.span]
      cases m.get start <;> cases m.span (start + 1) n <;> simp
    rw [step, ih]
    constructor
    · rintro ⟨h0, h⟩ i hi
      cases i with
      | zero => exact h0
      | succ i => simpa [Nat.add_assoc, Nat.add_comm 1] using h i (by omega)
    · intro h
      refine ⟨h 0 (by omega), fun i hi => ?_⟩
      have := h (i + 1) (by omega)
      simpa [Nat.add_assoc, Nat.add_comm 1] using this

/-- Bytes that stand in the buffer one after another are its span. -/
theorem Mem.span_eq_some {m : Mem} {start : Nat} {bs : List Byte}
    (h : ∀ i < bs.length, m.get (start + i) = bs[i]?) : m.span start bs.length = some bs := by
  induction bs generalizing start with
  | nil => rfl
  | cons b bs ih =>
    have h0 := h 0 (by simp)
    have hrest : m.span (start + 1) bs.length = some bs := by
      refine ih fun i hi => ?_
      have := h (i + 1) (by simp; omega)
      rw [show start + 1 + i = start + (i + 1) by omega, this]
      simp
    simp only [List.length_cons, Mem.span, hrest]
    simp only [Nat.add_zero, List.getElem?_cons_zero] at h0
    simp [h0]

/-- Two buffers that agree on a span's indexes have the same span. -/
theorem Mem.span_congr {m m' : Mem} {start count : Nat}
    (h : ∀ i < count, m.get (start + i) = m'.get (start + i)) : m.span start count = m'.span start count := by
  induction count generalizing start with
  | zero => rfl
  | succ n ih =>
    have h0 := h 0 (by omega)
    have hrest := ih (start := start + 1) fun i hi => by
      have := h (i + 1) (by omega)
      rwa [show start + (i + 1) = start + 1 + i by omega] at this
    simp only [Nat.add_zero] at h0
    simp only [Mem.span, h0, hrest]

/-- A span one byte longer. -/
theorem Mem.span_succ {m : Mem} {start count : Nat} {bs : List Byte} {b : Byte}
    (h : m.span start count = some bs) (hb : m.get (start + count) = some b) :
    m.span start (count + 1) = some (bs ++ [b]) := by
  have hl := Mem.span_length h
  have := Mem.span_eq_some (m := m) (start := start) (bs := bs ++ [b]) fun i hi => by
    simp only [List.length_append, List.length_singleton] at hi
    by_cases hc : i < bs.length
    · rw [Mem.span_get h (by omega), List.getElem?_append_left hc]
    · have hi' : i = bs.length := by omega
      subst hi'
      rw [hl, hb]
      simp [← hl]
  simpa [hl] using this

theorem Mem.ext_of_wfFrom {cap low : Nat} {m m' : Mem} (hm : Mem.wfFrom cap low m = true)
    (hm' : Mem.wfFrom cap low m' = true) (h : ∀ i, m.get i = m'.get i) : m = m' := by
  induction m generalizing low m' with
  | nil =>
    cases m' with
    | nil => rfl
    | cons c m' =>
      have := h c.1
      simp [Mem.get] at this
  | cons c m ih =>
    obtain ⟨j, b⟩ := c
    cases m' with
    | nil =>
      have := h j
      simp [Mem.get] at this
    | cons c' m' =>
      obtain ⟨j', b'⟩ := c'
      simp only [Mem.wfFrom, Bool.and_eq_true, decide_eq_true_eq] at hm hm'
      have hj : j = j' := by
        rcases Nat.lt_trichotomy j j' with hlt | heq | hgt
        · have e := h j
          rw [show Mem.get ((j', b') :: m') j = none from Mem.get_of_wfFrom
            (cap := cap) (low := j') (by simp [Mem.wfFrom, hm'.1.2, hm'.2]) (Or.inl hlt)] at e
          simp [Mem.get] at e
        · exact heq
        · have e := h j'
          rw [show Mem.get ((j, b) :: m) j' = none from Mem.get_of_wfFrom
            (cap := cap) (low := j) (by simp [Mem.wfFrom, hm.1.2, hm.2]) (Or.inl hgt)] at e
          simp [Mem.get] at e
      subst hj
      have hb : b = b' := by simpa [Mem.get] using h j
      subst hb
      have hrest : m = m' := ih hm.2 hm'.2 fun i => by
        by_cases hij : j = i
        · subst hij
          rw [Mem.get_of_wfFrom hm.2 (Or.inl (by omega)), Mem.get_of_wfFrom hm'.2 (Or.inl (by omega))]
        · simpa [Mem.get, hij] using h i
      rw [hrest]

/-- Equal buffers are equal data: canonical buffers that read alike everywhere are one list. -/
theorem Mem.ext_of_wf {cap : Nat} {m m' : Mem} (hm : m.wf cap = true) (hm' : m'.wf cap = true)
    (h : ∀ i, m.get i = m'.get i) : m = m' := Mem.ext_of_wfFrom hm hm' h

end Sys2Proof.Machine
end

