-- ==== Sys2Proof/Laws/State.lean ====
section
/-! SUPPORT. Every named update of the state, field by field: what it writes and what it leaves. -/

namespace Sys2Proof.Machine

section Updates

variable (s : State)

@[simp] theorem State.accept_done : (s.accept).done = false := rfl
@[simp] theorem State.accept_err : (s.accept).err = false := rfl
@[simp] theorem State.accept_isOpen : (s.accept).isOpen = s.isOpen := rfl
@[simp] theorem State.accept_errcode : (s.accept).errcode = .none := rfl
@[simp] theorem State.accept_phase : (s.accept).phase = s.phase := rfl
@[simp] theorem State.accept_baud : (s.accept).baud = s.baud := rfl
@[simp] theorem State.accept_parity : (s.accept).parity = s.parity := rfl
@[simp] theorem State.accept_acc : (s.accept).acc = s.acc := rfl
@[simp] theorem State.accept_arg : (s.accept).arg = s.arg := rfl
@[simp] theorem State.accept_txlen : (s.accept).txlen = s.txlen := rfl
@[simp] theorem State.accept_rxlen : (s.accept).rxlen = s.rxlen := rfl
@[simp] theorem State.accept_respAddr : (s.accept).respAddr = s.respAddr := rfl
@[simp] theorem State.accept_respFc : (s.accept).respFc = s.respFc := rfl
@[simp] theorem State.accept_respBc : (s.accept).respBc = s.respBc := rfl
@[simp] theorem State.accept_crcRx : (s.accept).crcRx = s.crcRx := rfl
@[simp] theorem State.accept_crcCalc : (s.accept).crcCalc = s.crcCalc := rfl
@[simp] theorem State.accept_tstart : (s.accept).tstart = s.tstart := rfl
@[simp] theorem State.accept_txbuf : (s.accept).txbuf = s.txbuf := rfl
@[simp] theorem State.accept_rxbuf : (s.accept).rxbuf = s.rxbuf := rfl
@[simp] theorem State.accept_fifo : (s.accept).fifo = s.fifo := rfl
@[simp] theorem State.accept_txi : (s.accept).txi = s.txi := rfl
@[simp] theorem State.accept_txbit : (s.accept).txbit = s.txbit := rfl
@[simp] theorem State.accept_deadline : (s.accept).deadline = s.deadline := rfl
@[simp] theorem State.accept_need : (s.accept).need = s.need := rfl
@[simp] theorem State.accept_expect : (s.accept).expect = s.expect := rfl
@[simp] theorem State.accept_now : (s.accept).now = s.now := rfl
@[simp] theorem State.accept_de : (s.accept).de = s.de := rfl
@[simp] theorem State.accept_pending : (s.accept).pending = s.pending := rfl
@[simp] theorem State.accept_held : (s.accept).held = s.held := rfl
@[simp] theorem State.accept_oracle : (s.accept).oracle = s.oracle := rfl
@[simp] theorem State.accept_cfg : (s.accept).cfg = s.cfg := rfl
@[simp] theorem State.accept_trace : (s.accept).trace = s.trace := rfl

@[simp] theorem State.finish_done (c : ErrCode) : (s.finish c).done = true := rfl
@[simp] theorem State.finish_err (c : ErrCode) : (s.finish c).err = (c != .none) := rfl
@[simp] theorem State.finish_isOpen (c : ErrCode) : (s.finish c).isOpen = s.isOpen := rfl
@[simp] theorem State.finish_errcode (c : ErrCode) : (s.finish c).errcode = c := rfl
@[simp] theorem State.finish_phase (c : ErrCode) : (s.finish c).phase = .idle := rfl
@[simp] theorem State.finish_baud (c : ErrCode) : (s.finish c).baud = s.baud := rfl
@[simp] theorem State.finish_parity (c : ErrCode) : (s.finish c).parity = s.parity := rfl
@[simp] theorem State.finish_acc (c : ErrCode) : (s.finish c).acc = s.acc := rfl
@[simp] theorem State.finish_arg (c : ErrCode) : (s.finish c).arg = s.arg := rfl
@[simp] theorem State.finish_txlen (c : ErrCode) : (s.finish c).txlen = s.txlen := rfl
@[simp] theorem State.finish_rxlen (c : ErrCode) : (s.finish c).rxlen = s.rxlen := rfl
@[simp] theorem State.finish_respAddr (c : ErrCode) : (s.finish c).respAddr = s.respAddr := rfl
@[simp] theorem State.finish_respFc (c : ErrCode) : (s.finish c).respFc = s.respFc := rfl
@[simp] theorem State.finish_respBc (c : ErrCode) : (s.finish c).respBc = s.respBc := rfl
@[simp] theorem State.finish_crcRx (c : ErrCode) : (s.finish c).crcRx = s.crcRx := rfl
@[simp] theorem State.finish_crcCalc (c : ErrCode) : (s.finish c).crcCalc = s.crcCalc := rfl
@[simp] theorem State.finish_tstart (c : ErrCode) : (s.finish c).tstart = s.tstart := rfl
@[simp] theorem State.finish_txbuf (c : ErrCode) : (s.finish c).txbuf = s.txbuf := rfl
@[simp] theorem State.finish_rxbuf (c : ErrCode) : (s.finish c).rxbuf = s.rxbuf := rfl
@[simp] theorem State.finish_fifo (c : ErrCode) : (s.finish c).fifo = s.fifo := rfl
@[simp] theorem State.finish_txi (c : ErrCode) : (s.finish c).txi = s.txi := rfl
@[simp] theorem State.finish_txbit (c : ErrCode) : (s.finish c).txbit = s.txbit := rfl
@[simp] theorem State.finish_deadline (c : ErrCode) : (s.finish c).deadline = s.deadline := rfl
@[simp] theorem State.finish_need (c : ErrCode) : (s.finish c).need = s.need := rfl
@[simp] theorem State.finish_expect (c : ErrCode) : (s.finish c).expect = s.expect := rfl
@[simp] theorem State.finish_now (c : ErrCode) : (s.finish c).now = s.now := rfl
@[simp] theorem State.finish_de (c : ErrCode) : (s.finish c).de = s.de := rfl
@[simp] theorem State.finish_pending (c : ErrCode) : (s.finish c).pending = s.pending := rfl
@[simp] theorem State.finish_held (c : ErrCode) : (s.finish c).held = s.held := rfl
@[simp] theorem State.finish_oracle (c : ErrCode) : (s.finish c).oracle = s.oracle := rfl
@[simp] theorem State.finish_cfg (c : ErrCode) : (s.finish c).cfg = s.cfg := rfl
@[simp] theorem State.finish_trace (c : ErrCode) : (s.finish c).trace = s.trace := rfl

@[simp] theorem State.setAcc_done (a : Half) : (s.setAcc a).done = s.done := rfl
@[simp] theorem State.setAcc_err (a : Half) : (s.setAcc a).err = s.err := rfl
@[simp] theorem State.setAcc_isOpen (a : Half) : (s.setAcc a).isOpen = s.isOpen := rfl
@[simp] theorem State.setAcc_errcode (a : Half) : (s.setAcc a).errcode = s.errcode := rfl
@[simp] theorem State.setAcc_phase (a : Half) : (s.setAcc a).phase = s.phase := rfl
@[simp] theorem State.setAcc_baud (a : Half) : (s.setAcc a).baud = s.baud := rfl
@[simp] theorem State.setAcc_parity (a : Half) : (s.setAcc a).parity = s.parity := rfl
@[simp] theorem State.setAcc_acc (a : Half) : (s.setAcc a).acc = a := rfl
@[simp] theorem State.setAcc_arg (a : Half) : (s.setAcc a).arg = s.arg := rfl
@[simp] theorem State.setAcc_txlen (a : Half) : (s.setAcc a).txlen = s.txlen := rfl
@[simp] theorem State.setAcc_rxlen (a : Half) : (s.setAcc a).rxlen = s.rxlen := rfl
@[simp] theorem State.setAcc_respAddr (a : Half) : (s.setAcc a).respAddr = s.respAddr := rfl
@[simp] theorem State.setAcc_respFc (a : Half) : (s.setAcc a).respFc = s.respFc := rfl
@[simp] theorem State.setAcc_respBc (a : Half) : (s.setAcc a).respBc = s.respBc := rfl
@[simp] theorem State.setAcc_crcRx (a : Half) : (s.setAcc a).crcRx = s.crcRx := rfl
@[simp] theorem State.setAcc_crcCalc (a : Half) : (s.setAcc a).crcCalc = s.crcCalc := rfl
@[simp] theorem State.setAcc_tstart (a : Half) : (s.setAcc a).tstart = s.tstart := rfl
@[simp] theorem State.setAcc_txbuf (a : Half) : (s.setAcc a).txbuf = s.txbuf := rfl
@[simp] theorem State.setAcc_rxbuf (a : Half) : (s.setAcc a).rxbuf = s.rxbuf := rfl
@[simp] theorem State.setAcc_fifo (a : Half) : (s.setAcc a).fifo = s.fifo := rfl
@[simp] theorem State.setAcc_txi (a : Half) : (s.setAcc a).txi = s.txi := rfl
@[simp] theorem State.setAcc_txbit (a : Half) : (s.setAcc a).txbit = s.txbit := rfl
@[simp] theorem State.setAcc_deadline (a : Half) : (s.setAcc a).deadline = s.deadline := rfl
@[simp] theorem State.setAcc_need (a : Half) : (s.setAcc a).need = s.need := rfl
@[simp] theorem State.setAcc_expect (a : Half) : (s.setAcc a).expect = s.expect := rfl
@[simp] theorem State.setAcc_now (a : Half) : (s.setAcc a).now = s.now := rfl
@[simp] theorem State.setAcc_de (a : Half) : (s.setAcc a).de = s.de := rfl
@[simp] theorem State.setAcc_pending (a : Half) : (s.setAcc a).pending = s.pending := rfl
@[simp] theorem State.setAcc_held (a : Half) : (s.setAcc a).held = s.held := rfl
@[simp] theorem State.setAcc_oracle (a : Half) : (s.setAcc a).oracle = s.oracle := rfl
@[simp] theorem State.setAcc_cfg (a : Half) : (s.setAcc a).cfg = s.cfg := rfl
@[simp] theorem State.setAcc_trace (a : Half) : (s.setAcc a).trace = s.trace := rfl

@[simp] theorem State.setTx_done (m : Mem) (n : BitVec 9) : (s.setTx m n).done = s.done := rfl
@[simp] theorem State.setTx_err (m : Mem) (n : BitVec 9) : (s.setTx m n).err = s.err := rfl
@[simp] theorem State.setTx_isOpen (m : Mem) (n : BitVec 9) : (s.setTx m n).isOpen = s.isOpen := rfl
@[simp] theorem State.setTx_errcode (m : Mem) (n : BitVec 9) : (s.setTx m n).errcode = s.errcode := rfl
@[simp] theorem State.setTx_phase (m : Mem) (n : BitVec 9) : (s.setTx m n).phase = s.phase := rfl
@[simp] theorem State.setTx_baud (m : Mem) (n : BitVec 9) : (s.setTx m n).baud = s.baud := rfl
@[simp] theorem State.setTx_parity (m : Mem) (n : BitVec 9) : (s.setTx m n).parity = s.parity := rfl
@[simp] theorem State.setTx_acc (m : Mem) (n : BitVec 9) : (s.setTx m n).acc = s.acc := rfl
@[simp] theorem State.setTx_arg (m : Mem) (n : BitVec 9) : (s.setTx m n).arg = s.arg := rfl
@[simp] theorem State.setTx_txlen (m : Mem) (n : BitVec 9) : (s.setTx m n).txlen = n := rfl
@[simp] theorem State.setTx_rxlen (m : Mem) (n : BitVec 9) : (s.setTx m n).rxlen = s.rxlen := rfl
@[simp] theorem State.setTx_respAddr (m : Mem) (n : BitVec 9) : (s.setTx m n).respAddr = s.respAddr := rfl
@[simp] theorem State.setTx_respFc (m : Mem) (n : BitVec 9) : (s.setTx m n).respFc = s.respFc := rfl
@[simp] theorem State.setTx_respBc (m : Mem) (n : BitVec 9) : (s.setTx m n).respBc = s.respBc := rfl
@[simp] theorem State.setTx_crcRx (m : Mem) (n : BitVec 9) : (s.setTx m n).crcRx = s.crcRx := rfl
@[simp] theorem State.setTx_crcCalc (m : Mem) (n : BitVec 9) : (s.setTx m n).crcCalc = s.crcCalc := rfl
@[simp] theorem State.setTx_tstart (m : Mem) (n : BitVec 9) : (s.setTx m n).tstart = s.tstart := rfl
@[simp] theorem State.setTx_txbuf (m : Mem) (n : BitVec 9) : (s.setTx m n).txbuf = m := rfl
@[simp] theorem State.setTx_rxbuf (m : Mem) (n : BitVec 9) : (s.setTx m n).rxbuf = s.rxbuf := rfl
@[simp] theorem State.setTx_fifo (m : Mem) (n : BitVec 9) : (s.setTx m n).fifo = s.fifo := rfl
@[simp] theorem State.setTx_txi (m : Mem) (n : BitVec 9) : (s.setTx m n).txi = s.txi := rfl
@[simp] theorem State.setTx_txbit (m : Mem) (n : BitVec 9) : (s.setTx m n).txbit = s.txbit := rfl
@[simp] theorem State.setTx_deadline (m : Mem) (n : BitVec 9) : (s.setTx m n).deadline = s.deadline := rfl
@[simp] theorem State.setTx_need (m : Mem) (n : BitVec 9) : (s.setTx m n).need = s.need := rfl
@[simp] theorem State.setTx_expect (m : Mem) (n : BitVec 9) : (s.setTx m n).expect = s.expect := rfl
@[simp] theorem State.setTx_now (m : Mem) (n : BitVec 9) : (s.setTx m n).now = s.now := rfl
@[simp] theorem State.setTx_de (m : Mem) (n : BitVec 9) : (s.setTx m n).de = s.de := rfl
@[simp] theorem State.setTx_pending (m : Mem) (n : BitVec 9) : (s.setTx m n).pending = s.pending := rfl
@[simp] theorem State.setTx_held (m : Mem) (n : BitVec 9) : (s.setTx m n).held = s.held := rfl
@[simp] theorem State.setTx_oracle (m : Mem) (n : BitVec 9) : (s.setTx m n).oracle = s.oracle := rfl
@[simp] theorem State.setTx_cfg (m : Mem) (n : BitVec 9) : (s.setTx m n).cfg = s.cfg := rfl
@[simp] theorem State.setTx_trace (m : Mem) (n : BitVec 9) : (s.setTx m n).trace = s.trace := rfl

@[simp] theorem State.setResp_done (v : Verdict) : (s.setResp v).done = s.done := rfl
@[simp] theorem State.setResp_err (v : Verdict) : (s.setResp v).err = s.err := rfl
@[simp] theorem State.setResp_isOpen (v : Verdict) : (s.setResp v).isOpen = s.isOpen := rfl
@[simp] theorem State.setResp_errcode (v : Verdict) : (s.setResp v).errcode = s.errcode := rfl
@[simp] theorem State.setResp_phase (v : Verdict) : (s.setResp v).phase = s.phase := rfl
@[simp] theorem State.setResp_baud (v : Verdict) : (s.setResp v).baud = s.baud := rfl
@[simp] theorem State.setResp_parity (v : Verdict) : (s.setResp v).parity = s.parity := rfl
@[simp] theorem State.setResp_acc (v : Verdict) : (s.setResp v).acc = s.acc := rfl
@[simp] theorem State.setResp_arg (v : Verdict) : (s.setResp v).arg = s.arg := rfl
@[simp] theorem State.setResp_txlen (v : Verdict) : (s.setResp v).txlen = s.txlen := rfl
@[simp] theorem State.setResp_rxlen (v : Verdict) : (s.setResp v).rxlen = s.rxlen := rfl
@[simp] theorem State.setResp_respAddr (v : Verdict) : (s.setResp v).respAddr = v.addr := rfl
@[simp] theorem State.setResp_respFc (v : Verdict) : (s.setResp v).respFc = v.fc := rfl
@[simp] theorem State.setResp_respBc (v : Verdict) : (s.setResp v).respBc = v.bc := rfl
@[simp] theorem State.setResp_crcRx (v : Verdict) : (s.setResp v).crcRx = v.crcRx := rfl
@[simp] theorem State.setResp_crcCalc (v : Verdict) : (s.setResp v).crcCalc = v.crcCalc := rfl
@[simp] theorem State.setResp_tstart (v : Verdict) : (s.setResp v).tstart = s.tstart := rfl
@[simp] theorem State.setResp_txbuf (v : Verdict) : (s.setResp v).txbuf = s.txbuf := rfl
@[simp] theorem State.setResp_rxbuf (v : Verdict) : (s.setResp v).rxbuf = s.rxbuf := rfl
@[simp] theorem State.setResp_fifo (v : Verdict) : (s.setResp v).fifo = s.fifo := rfl
@[simp] theorem State.setResp_txi (v : Verdict) : (s.setResp v).txi = s.txi := rfl
@[simp] theorem State.setResp_txbit (v : Verdict) : (s.setResp v).txbit = s.txbit := rfl
@[simp] theorem State.setResp_deadline (v : Verdict) : (s.setResp v).deadline = s.deadline := rfl
@[simp] theorem State.setResp_need (v : Verdict) : (s.setResp v).need = s.need := rfl
@[simp] theorem State.setResp_expect (v : Verdict) : (s.setResp v).expect = s.expect := rfl
@[simp] theorem State.setResp_now (v : Verdict) : (s.setResp v).now = s.now := rfl
@[simp] theorem State.setResp_de (v : Verdict) : (s.setResp v).de = s.de := rfl
@[simp] theorem State.setResp_pending (v : Verdict) : (s.setResp v).pending = s.pending := rfl
@[simp] theorem State.setResp_held (v : Verdict) : (s.setResp v).held = s.held := rfl
@[simp] theorem State.setResp_oracle (v : Verdict) : (s.setResp v).oracle = s.oracle := rfl
@[simp] theorem State.setResp_cfg (v : Verdict) : (s.setResp v).cfg = s.cfg := rfl
@[simp] theorem State.setResp_trace (v : Verdict) : (s.setResp v).trace = s.trace := rfl

@[simp] theorem State.setLine_done (b : BaudSel) (p : Parity) : (s.setLine b p).done = s.done := rfl
@[simp] theorem State.setLine_err (b : BaudSel) (p : Parity) : (s.setLine b p).err = s.err := rfl
@[simp] theorem State.setLine_isOpen (b : BaudSel) (p : Parity) : (s.setLine b p).isOpen = true := rfl
@[simp] theorem State.setLine_errcode (b : BaudSel) (p : Parity) : (s.setLine b p).errcode = s.errcode := rfl
@[simp] theorem State.setLine_phase (b : BaudSel) (p : Parity) : (s.setLine b p).phase = s.phase := rfl
@[simp] theorem State.setLine_baud (b : BaudSel) (p : Parity) : (s.setLine b p).baud = b := rfl
@[simp] theorem State.setLine_parity (b : BaudSel) (p : Parity) : (s.setLine b p).parity = p := rfl
@[simp] theorem State.setLine_acc (b : BaudSel) (p : Parity) : (s.setLine b p).acc = s.acc := rfl
@[simp] theorem State.setLine_arg (b : BaudSel) (p : Parity) : (s.setLine b p).arg = s.arg := rfl
@[simp] theorem State.setLine_txlen (b : BaudSel) (p : Parity) : (s.setLine b p).txlen = s.txlen := rfl
@[simp] theorem State.setLine_rxlen (b : BaudSel) (p : Parity) : (s.setLine b p).rxlen = s.rxlen := rfl
@[simp] theorem State.setLine_respAddr (b : BaudSel) (p : Parity) : (s.setLine b p).respAddr = s.respAddr := rfl
@[simp] theorem State.setLine_respFc (b : BaudSel) (p : Parity) : (s.setLine b p).respFc = s.respFc := rfl
@[simp] theorem State.setLine_respBc (b : BaudSel) (p : Parity) : (s.setLine b p).respBc = s.respBc := rfl
@[simp] theorem State.setLine_crcRx (b : BaudSel) (p : Parity) : (s.setLine b p).crcRx = s.crcRx := rfl
@[simp] theorem State.setLine_crcCalc (b : BaudSel) (p : Parity) : (s.setLine b p).crcCalc = s.crcCalc := rfl
@[simp] theorem State.setLine_tstart (b : BaudSel) (p : Parity) : (s.setLine b p).tstart = startWord s.cfg b := rfl
@[simp] theorem State.setLine_txbuf (b : BaudSel) (p : Parity) : (s.setLine b p).txbuf = s.txbuf := rfl
@[simp] theorem State.setLine_rxbuf (b : BaudSel) (p : Parity) : (s.setLine b p).rxbuf = s.rxbuf := rfl
@[simp] theorem State.setLine_fifo (b : BaudSel) (p : Parity) : (s.setLine b p).fifo = [] := rfl
@[simp] theorem State.setLine_txi (b : BaudSel) (p : Parity) : (s.setLine b p).txi = s.txi := rfl
@[simp] theorem State.setLine_txbit (b : BaudSel) (p : Parity) : (s.setLine b p).txbit = s.txbit := rfl
@[simp] theorem State.setLine_deadline (b : BaudSel) (p : Parity) : (s.setLine b p).deadline = s.deadline := rfl
@[simp] theorem State.setLine_need (b : BaudSel) (p : Parity) : (s.setLine b p).need = s.need := rfl
@[simp] theorem State.setLine_expect (b : BaudSel) (p : Parity) : (s.setLine b p).expect = s.expect := rfl
@[simp] theorem State.setLine_now (b : BaudSel) (p : Parity) : (s.setLine b p).now = s.now := rfl
@[simp] theorem State.setLine_de (b : BaudSel) (p : Parity) : (s.setLine b p).de = s.de := rfl
@[simp] theorem State.setLine_pending (b : BaudSel) (p : Parity) : (s.setLine b p).pending = s.pending := rfl
@[simp] theorem State.setLine_held (b : BaudSel) (p : Parity) : (s.setLine b p).held = s.held := rfl
@[simp] theorem State.setLine_oracle (b : BaudSel) (p : Parity) : (s.setLine b p).oracle = s.oracle := rfl
@[simp] theorem State.setLine_cfg (b : BaudSel) (p : Parity) : (s.setLine b p).cfg = s.cfg := rfl
@[simp] theorem State.setLine_trace (b : BaudSel) (p : Parity) : (s.setLine b p).trace = s.trace := rfl

@[simp] theorem State.unsetLine_done : (s.unsetLine).done = s.done := rfl
@[simp] theorem State.unsetLine_err : (s.unsetLine).err = s.err := rfl
@[simp] theorem State.unsetLine_isOpen : (s.unsetLine).isOpen = false := rfl
@[simp] theorem State.unsetLine_errcode : (s.unsetLine).errcode = s.errcode := rfl
@[simp] theorem State.unsetLine_phase : (s.unsetLine).phase = s.phase := rfl
@[simp] theorem State.unsetLine_baud : (s.unsetLine).baud = s.baud := rfl
@[simp] theorem State.unsetLine_parity : (s.unsetLine).parity = s.parity := rfl
@[simp] theorem State.unsetLine_acc : (s.unsetLine).acc = s.acc := rfl
@[simp] theorem State.unsetLine_arg : (s.unsetLine).arg = s.arg := rfl
@[simp] theorem State.unsetLine_txlen : (s.unsetLine).txlen = s.txlen := rfl
@[simp] theorem State.unsetLine_rxlen : (s.unsetLine).rxlen = s.rxlen := rfl
@[simp] theorem State.unsetLine_respAddr : (s.unsetLine).respAddr = s.respAddr := rfl
@[simp] theorem State.unsetLine_respFc : (s.unsetLine).respFc = s.respFc := rfl
@[simp] theorem State.unsetLine_respBc : (s.unsetLine).respBc = s.respBc := rfl
@[simp] theorem State.unsetLine_crcRx : (s.unsetLine).crcRx = s.crcRx := rfl
@[simp] theorem State.unsetLine_crcCalc : (s.unsetLine).crcCalc = s.crcCalc := rfl
@[simp] theorem State.unsetLine_tstart : (s.unsetLine).tstart = s.tstart := rfl
@[simp] theorem State.unsetLine_txbuf : (s.unsetLine).txbuf = s.txbuf := rfl
@[simp] theorem State.unsetLine_rxbuf : (s.unsetLine).rxbuf = s.rxbuf := rfl
@[simp] theorem State.unsetLine_fifo : (s.unsetLine).fifo = [] := rfl
@[simp] theorem State.unsetLine_txi : (s.unsetLine).txi = s.txi := rfl
@[simp] theorem State.unsetLine_txbit : (s.unsetLine).txbit = s.txbit := rfl
@[simp] theorem State.unsetLine_deadline : (s.unsetLine).deadline = s.deadline := rfl
@[simp] theorem State.unsetLine_need : (s.unsetLine).need = s.need := rfl
@[simp] theorem State.unsetLine_expect : (s.unsetLine).expect = s.expect := rfl
@[simp] theorem State.unsetLine_now : (s.unsetLine).now = s.now := rfl
@[simp] theorem State.unsetLine_de : (s.unsetLine).de = s.de := rfl
@[simp] theorem State.unsetLine_pending : (s.unsetLine).pending = s.pending := rfl
@[simp] theorem State.unsetLine_held : (s.unsetLine).held = s.held := rfl
@[simp] theorem State.unsetLine_oracle : (s.unsetLine).oracle = s.oracle := rfl
@[simp] theorem State.unsetLine_cfg : (s.unsetLine).cfg = s.cfg := rfl
@[simp] theorem State.unsetLine_trace : (s.unsetLine).trace = s.trace := rfl

@[simp] theorem State.beginExchange_done (e : Bool) : (s.beginExchange e).done = false := rfl
@[simp] theorem State.beginExchange_err (e : Bool) : (s.beginExchange e).err = false := rfl
@[simp] theorem State.beginExchange_isOpen (e : Bool) : (s.beginExchange e).isOpen = s.isOpen := rfl
@[simp] theorem State.beginExchange_errcode (e : Bool) : (s.beginExchange e).errcode = .none := rfl
@[simp] theorem State.beginExchange_phase (e : Bool) : (s.beginExchange e).phase = s.phase := rfl
@[simp] theorem State.beginExchange_baud (e : Bool) : (s.beginExchange e).baud = s.baud := rfl
@[simp] theorem State.beginExchange_parity (e : Bool) : (s.beginExchange e).parity = s.parity := rfl
@[simp] theorem State.beginExchange_acc (e : Bool) : (s.beginExchange e).acc = s.acc := rfl
@[simp] theorem State.beginExchange_arg (e : Bool) : (s.beginExchange e).arg = s.arg := rfl
@[simp] theorem State.beginExchange_txlen (e : Bool) : (s.beginExchange e).txlen = s.txlen := rfl
@[simp] theorem State.beginExchange_rxlen (e : Bool) : (s.beginExchange e).rxlen = 0 := rfl
@[simp] theorem State.beginExchange_respAddr (e : Bool) : (s.beginExchange e).respAddr = 0 := rfl
@[simp] theorem State.beginExchange_respFc (e : Bool) : (s.beginExchange e).respFc = 0 := rfl
@[simp] theorem State.beginExchange_respBc (e : Bool) : (s.beginExchange e).respBc = 0 := rfl
@[simp] theorem State.beginExchange_crcRx (e : Bool) : (s.beginExchange e).crcRx = 0 := rfl
@[simp] theorem State.beginExchange_crcCalc (e : Bool) : (s.beginExchange e).crcCalc = 0 := rfl
@[simp] theorem State.beginExchange_tstart (e : Bool) : (s.beginExchange e).tstart = s.tstart := rfl
@[simp] theorem State.beginExchange_txbuf (e : Bool) : (s.beginExchange e).txbuf = s.txbuf := rfl
@[simp] theorem State.beginExchange_rxbuf (e : Bool) : (s.beginExchange e).rxbuf = s.rxbuf := rfl
@[simp] theorem State.beginExchange_fifo (e : Bool) : (s.beginExchange e).fifo = [] := rfl
@[simp] theorem State.beginExchange_txi (e : Bool) : (s.beginExchange e).txi = 0 := rfl
@[simp] theorem State.beginExchange_txbit (e : Bool) : (s.beginExchange e).txbit = 0 := rfl
@[simp] theorem State.beginExchange_deadline (e : Bool) : (s.beginExchange e).deadline = s.deadline := rfl
@[simp] theorem State.beginExchange_need (e : Bool) : (s.beginExchange e).need = s.need := rfl
@[simp] theorem State.beginExchange_expect (e : Bool) : (s.beginExchange e).expect = e := rfl
@[simp] theorem State.beginExchange_now (e : Bool) : (s.beginExchange e).now = s.now := rfl
@[simp] theorem State.beginExchange_de (e : Bool) : (s.beginExchange e).de = s.de := rfl
@[simp] theorem State.beginExchange_pending (e : Bool) : (s.beginExchange e).pending = s.pending := rfl
@[simp] theorem State.beginExchange_held (e : Bool) : (s.beginExchange e).held = s.held := rfl
@[simp] theorem State.beginExchange_oracle (e : Bool) : (s.beginExchange e).oracle = s.oracle := rfl
@[simp] theorem State.beginExchange_cfg (e : Bool) : (s.beginExchange e).cfg = s.cfg := rfl
@[simp] theorem State.beginExchange_trace (e : Bool) : (s.beginExchange e).trace = s.trace := rfl

@[simp] theorem State.enter_done (p : Phase) : (s.enter p).done = s.done := rfl
@[simp] theorem State.enter_err (p : Phase) : (s.enter p).err = s.err := rfl
@[simp] theorem State.enter_isOpen (p : Phase) : (s.enter p).isOpen = s.isOpen := rfl
@[simp] theorem State.enter_errcode (p : Phase) : (s.enter p).errcode = s.errcode := rfl
@[simp] theorem State.enter_phase (p : Phase) : (s.enter p).phase = p := rfl
@[simp] theorem State.enter_baud (p : Phase) : (s.enter p).baud = s.baud := rfl
@[simp] theorem State.enter_parity (p : Phase) : (s.enter p).parity = s.parity := rfl
@[simp] theorem State.enter_acc (p : Phase) : (s.enter p).acc = s.acc := rfl
@[simp] theorem State.enter_arg (p : Phase) : (s.enter p).arg = s.arg := rfl
@[simp] theorem State.enter_txlen (p : Phase) : (s.enter p).txlen = s.txlen := rfl
@[simp] theorem State.enter_rxlen (p : Phase) : (s.enter p).rxlen = s.rxlen := rfl
@[simp] theorem State.enter_respAddr (p : Phase) : (s.enter p).respAddr = s.respAddr := rfl
@[simp] theorem State.enter_respFc (p : Phase) : (s.enter p).respFc = s.respFc := rfl
@[simp] theorem State.enter_respBc (p : Phase) : (s.enter p).respBc = s.respBc := rfl
@[simp] theorem State.enter_crcRx (p : Phase) : (s.enter p).crcRx = s.crcRx := rfl
@[simp] theorem State.enter_crcCalc (p : Phase) : (s.enter p).crcCalc = s.crcCalc := rfl
@[simp] theorem State.enter_tstart (p : Phase) : (s.enter p).tstart = s.tstart := rfl
@[simp] theorem State.enter_txbuf (p : Phase) : (s.enter p).txbuf = s.txbuf := rfl
@[simp] theorem State.enter_rxbuf (p : Phase) : (s.enter p).rxbuf = s.rxbuf := rfl
@[simp] theorem State.enter_fifo (p : Phase) : (s.enter p).fifo = s.fifo := rfl
@[simp] theorem State.enter_txi (p : Phase) : (s.enter p).txi = s.txi := rfl
@[simp] theorem State.enter_txbit (p : Phase) : (s.enter p).txbit = s.txbit := rfl
@[simp] theorem State.enter_deadline (p : Phase) : (s.enter p).deadline = s.deadline := rfl
@[simp] theorem State.enter_need (p : Phase) : (s.enter p).need = s.need := rfl
@[simp] theorem State.enter_expect (p : Phase) : (s.enter p).expect = s.expect := rfl
@[simp] theorem State.enter_now (p : Phase) : (s.enter p).now = s.now := rfl
@[simp] theorem State.enter_de (p : Phase) : (s.enter p).de = s.de := rfl
@[simp] theorem State.enter_pending (p : Phase) : (s.enter p).pending = s.pending := rfl
@[simp] theorem State.enter_held (p : Phase) : (s.enter p).held = s.held := rfl
@[simp] theorem State.enter_oracle (p : Phase) : (s.enter p).oracle = s.oracle := rfl
@[simp] theorem State.enter_cfg (p : Phase) : (s.enter p).cfg = s.cfg := rfl
@[simp] theorem State.enter_trace (p : Phase) : (s.enter p).trace = s.trace := rfl

@[simp] theorem State.await_done (p : Phase) (n : Nat) : (s.await p n).done = s.done := rfl
@[simp] theorem State.await_err (p : Phase) (n : Nat) : (s.await p n).err = s.err := rfl
@[simp] theorem State.await_isOpen (p : Phase) (n : Nat) : (s.await p n).isOpen = s.isOpen := rfl
@[simp] theorem State.await_errcode (p : Phase) (n : Nat) : (s.await p n).errcode = s.errcode := rfl
@[simp] theorem State.await_phase (p : Phase) (n : Nat) : (s.await p n).phase = p := rfl
@[simp] theorem State.await_baud (p : Phase) (n : Nat) : (s.await p n).baud = s.baud := rfl
@[simp] theorem State.await_parity (p : Phase) (n : Nat) : (s.await p n).parity = s.parity := rfl
@[simp] theorem State.await_acc (p : Phase) (n : Nat) : (s.await p n).acc = s.acc := rfl
@[simp] theorem State.await_arg (p : Phase) (n : Nat) : (s.await p n).arg = s.arg := rfl
@[simp] theorem State.await_txlen (p : Phase) (n : Nat) : (s.await p n).txlen = s.txlen := rfl
@[simp] theorem State.await_rxlen (p : Phase) (n : Nat) : (s.await p n).rxlen = s.rxlen := rfl
@[simp] theorem State.await_respAddr (p : Phase) (n : Nat) : (s.await p n).respAddr = s.respAddr := rfl
@[simp] theorem State.await_respFc (p : Phase) (n : Nat) : (s.await p n).respFc = s.respFc := rfl
@[simp] theorem State.await_respBc (p : Phase) (n : Nat) : (s.await p n).respBc = s.respBc := rfl
@[simp] theorem State.await_crcRx (p : Phase) (n : Nat) : (s.await p n).crcRx = s.crcRx := rfl
@[simp] theorem State.await_crcCalc (p : Phase) (n : Nat) : (s.await p n).crcCalc = s.crcCalc := rfl
@[simp] theorem State.await_tstart (p : Phase) (n : Nat) : (s.await p n).tstart = s.tstart := rfl
@[simp] theorem State.await_txbuf (p : Phase) (n : Nat) : (s.await p n).txbuf = s.txbuf := rfl
@[simp] theorem State.await_rxbuf (p : Phase) (n : Nat) : (s.await p n).rxbuf = s.rxbuf := rfl
@[simp] theorem State.await_fifo (p : Phase) (n : Nat) : (s.await p n).fifo = s.fifo := rfl
@[simp] theorem State.await_txi (p : Phase) (n : Nat) : (s.await p n).txi = s.txi := rfl
@[simp] theorem State.await_txbit (p : Phase) (n : Nat) : (s.await p n).txbit = s.txbit := rfl
@[simp] theorem State.await_deadline (p : Phase) (n : Nat) : (s.await p n).deadline = s.now + n := rfl
@[simp] theorem State.await_need (p : Phase) (n : Nat) : (s.await p n).need = s.need := rfl
@[simp] theorem State.await_expect (p : Phase) (n : Nat) : (s.await p n).expect = s.expect := rfl
@[simp] theorem State.await_now (p : Phase) (n : Nat) : (s.await p n).now = s.now := rfl
@[simp] theorem State.await_de (p : Phase) (n : Nat) : (s.await p n).de = s.de := rfl
@[simp] theorem State.await_pending (p : Phase) (n : Nat) : (s.await p n).pending = s.pending := rfl
@[simp] theorem State.await_held (p : Phase) (n : Nat) : (s.await p n).held = s.held := rfl
@[simp] theorem State.await_oracle (p : Phase) (n : Nat) : (s.await p n).oracle = s.oracle := rfl
@[simp] theorem State.await_cfg (p : Phase) (n : Nat) : (s.await p n).cfg = s.cfg := rfl
@[simp] theorem State.await_trace (p : Phase) (n : Nat) : (s.await p n).trace = s.trace := rfl

@[simp] theorem State.receive_done (b : Byte) (r : List Byte) : (s.receive b r).done = s.done := rfl
@[simp] theorem State.receive_err (b : Byte) (r : List Byte) : (s.receive b r).err = s.err := rfl
@[simp] theorem State.receive_isOpen (b : Byte) (r : List Byte) : (s.receive b r).isOpen = s.isOpen := rfl
@[simp] theorem State.receive_errcode (b : Byte) (r : List Byte) : (s.receive b r).errcode = s.errcode := rfl
@[simp] theorem State.receive_phase (b : Byte) (r : List Byte) : (s.receive b r).phase = s.phase := rfl
@[simp] theorem State.receive_baud (b : Byte) (r : List Byte) : (s.receive b r).baud = s.baud := rfl
@[simp] theorem State.receive_parity (b : Byte) (r : List Byte) : (s.receive b r).parity = s.parity := rfl
@[simp] theorem State.receive_acc (b : Byte) (r : List Byte) : (s.receive b r).acc = s.acc := rfl
@[simp] theorem State.receive_arg (b : Byte) (r : List Byte) : (s.receive b r).arg = s.arg := rfl
@[simp] theorem State.receive_txlen (b : Byte) (r : List Byte) : (s.receive b r).txlen = s.txlen := rfl
@[simp] theorem State.receive_rxlen (b : Byte) (r : List Byte) : (s.receive b r).rxlen = s.rxlen + 1 := rfl
@[simp] theorem State.receive_respAddr (b : Byte) (r : List Byte) : (s.receive b r).respAddr = s.respAddr := rfl
@[simp] theorem State.receive_respFc (b : Byte) (r : List Byte) : (s.receive b r).respFc = s.respFc := rfl
@[simp] theorem State.receive_respBc (b : Byte) (r : List Byte) : (s.receive b r).respBc = s.respBc := rfl
@[simp] theorem State.receive_crcRx (b : Byte) (r : List Byte) : (s.receive b r).crcRx = s.crcRx := rfl
@[simp] theorem State.receive_crcCalc (b : Byte) (r : List Byte) : (s.receive b r).crcCalc = s.crcCalc := rfl
@[simp] theorem State.receive_tstart (b : Byte) (r : List Byte) : (s.receive b r).tstart = s.tstart := rfl
@[simp] theorem State.receive_txbuf (b : Byte) (r : List Byte) : (s.receive b r).txbuf = s.txbuf := rfl
@[simp] theorem State.receive_rxbuf (b : Byte) (r : List Byte) : (s.receive b r).rxbuf = s.rxbuf.write s.rxlen.toNat b := rfl
@[simp] theorem State.receive_fifo (b : Byte) (r : List Byte) : (s.receive b r).fifo = r := rfl
@[simp] theorem State.receive_txi (b : Byte) (r : List Byte) : (s.receive b r).txi = s.txi := rfl
@[simp] theorem State.receive_txbit (b : Byte) (r : List Byte) : (s.receive b r).txbit = s.txbit := rfl
@[simp] theorem State.receive_deadline (b : Byte) (r : List Byte) : (s.receive b r).deadline = s.deadline := rfl
@[simp] theorem State.receive_need (b : Byte) (r : List Byte) : (s.receive b r).need = s.need := rfl
@[simp] theorem State.receive_expect (b : Byte) (r : List Byte) : (s.receive b r).expect = s.expect := rfl
@[simp] theorem State.receive_now (b : Byte) (r : List Byte) : (s.receive b r).now = s.now := rfl
@[simp] theorem State.receive_de (b : Byte) (r : List Byte) : (s.receive b r).de = s.de := rfl
@[simp] theorem State.receive_pending (b : Byte) (r : List Byte) : (s.receive b r).pending = s.pending := rfl
@[simp] theorem State.receive_held (b : Byte) (r : List Byte) : (s.receive b r).held = s.held := rfl
@[simp] theorem State.receive_oracle (b : Byte) (r : List Byte) : (s.receive b r).oracle = s.oracle := rfl
@[simp] theorem State.receive_cfg (b : Byte) (r : List Byte) : (s.receive b r).cfg = s.cfg := rfl
@[simp] theorem State.receive_trace (b : Byte) (r : List Byte) : (s.receive b r).trace = s.trace := rfl

@[simp] theorem State.observe_done (o : Obs) : (s.observe o).done = s.done := rfl
@[simp] theorem State.observe_err (o : Obs) : (s.observe o).err = s.err := rfl
@[simp] theorem State.observe_isOpen (o : Obs) : (s.observe o).isOpen = s.isOpen := rfl
@[simp] theorem State.observe_errcode (o : Obs) : (s.observe o).errcode = s.errcode := rfl
@[simp] theorem State.observe_phase (o : Obs) : (s.observe o).phase = s.phase := rfl
@[simp] theorem State.observe_baud (o : Obs) : (s.observe o).baud = s.baud := rfl
@[simp] theorem State.observe_parity (o : Obs) : (s.observe o).parity = s.parity := rfl
@[simp] theorem State.observe_acc (o : Obs) : (s.observe o).acc = s.acc := rfl
@[simp] theorem State.observe_arg (o : Obs) : (s.observe o).arg = s.arg := rfl
@[simp] theorem State.observe_txlen (o : Obs) : (s.observe o).txlen = s.txlen := rfl
@[simp] theorem State.observe_rxlen (o : Obs) : (s.observe o).rxlen = s.rxlen := rfl
@[simp] theorem State.observe_respAddr (o : Obs) : (s.observe o).respAddr = s.respAddr := rfl
@[simp] theorem State.observe_respFc (o : Obs) : (s.observe o).respFc = s.respFc := rfl
@[simp] theorem State.observe_respBc (o : Obs) : (s.observe o).respBc = s.respBc := rfl
@[simp] theorem State.observe_crcRx (o : Obs) : (s.observe o).crcRx = s.crcRx := rfl
@[simp] theorem State.observe_crcCalc (o : Obs) : (s.observe o).crcCalc = s.crcCalc := rfl
@[simp] theorem State.observe_tstart (o : Obs) : (s.observe o).tstart = s.tstart := rfl
@[simp] theorem State.observe_txbuf (o : Obs) : (s.observe o).txbuf = s.txbuf := rfl
@[simp] theorem State.observe_rxbuf (o : Obs) : (s.observe o).rxbuf = s.rxbuf := rfl
@[simp] theorem State.observe_fifo (o : Obs) : (s.observe o).fifo = s.fifo := rfl
@[simp] theorem State.observe_txi (o : Obs) : (s.observe o).txi = s.txi := rfl
@[simp] theorem State.observe_txbit (o : Obs) : (s.observe o).txbit = s.txbit := rfl
@[simp] theorem State.observe_deadline (o : Obs) : (s.observe o).deadline = s.deadline := rfl
@[simp] theorem State.observe_need (o : Obs) : (s.observe o).need = s.need := rfl
@[simp] theorem State.observe_expect (o : Obs) : (s.observe o).expect = s.expect := rfl
@[simp] theorem State.observe_now (o : Obs) : (s.observe o).now = s.now := rfl
@[simp] theorem State.observe_de (o : Obs) : (s.observe o).de = s.de := rfl
@[simp] theorem State.observe_pending (o : Obs) : (s.observe o).pending = s.pending := rfl
@[simp] theorem State.observe_held (o : Obs) : (s.observe o).held = s.held := rfl
@[simp] theorem State.observe_oracle (o : Obs) : (s.observe o).oracle = s.oracle := rfl
@[simp] theorem State.observe_cfg (o : Obs) : (s.observe o).cfg = s.cfg := rfl
@[simp] theorem State.observe_trace (o : Obs) : (s.observe o).trace = o :: s.trace := rfl

@[simp] theorem State.driveEnable_done (l : Bool) : (s.driveEnable l).done = s.done := rfl
@[simp] theorem State.driveEnable_err (l : Bool) : (s.driveEnable l).err = s.err := rfl
@[simp] theorem State.driveEnable_isOpen (l : Bool) : (s.driveEnable l).isOpen = s.isOpen := rfl
@[simp] theorem State.driveEnable_errcode (l : Bool) : (s.driveEnable l).errcode = s.errcode := rfl
@[simp] theorem State.driveEnable_phase (l : Bool) : (s.driveEnable l).phase = s.phase := rfl
@[simp] theorem State.driveEnable_baud (l : Bool) : (s.driveEnable l).baud = s.baud := rfl
@[simp] theorem State.driveEnable_parity (l : Bool) : (s.driveEnable l).parity = s.parity := rfl
@[simp] theorem State.driveEnable_acc (l : Bool) : (s.driveEnable l).acc = s.acc := rfl
@[simp] theorem State.driveEnable_arg (l : Bool) : (s.driveEnable l).arg = s.arg := rfl
@[simp] theorem State.driveEnable_txlen (l : Bool) : (s.driveEnable l).txlen = s.txlen := rfl
@[simp] theorem State.driveEnable_rxlen (l : Bool) : (s.driveEnable l).rxlen = s.rxlen := rfl
@[simp] theorem State.driveEnable_respAddr (l : Bool) : (s.driveEnable l).respAddr = s.respAddr := rfl
@[simp] theorem State.driveEnable_respFc (l : Bool) : (s.driveEnable l).respFc = s.respFc := rfl
@[simp] theorem State.driveEnable_respBc (l : Bool) : (s.driveEnable l).respBc = s.respBc := rfl
@[simp] theorem State.driveEnable_crcRx (l : Bool) : (s.driveEnable l).crcRx = s.crcRx := rfl
@[simp] theorem State.driveEnable_crcCalc (l : Bool) : (s.driveEnable l).crcCalc = s.crcCalc := rfl
@[simp] theorem State.driveEnable_tstart (l : Bool) : (s.driveEnable l).tstart = s.tstart := rfl
@[simp] theorem State.driveEnable_txbuf (l : Bool) : (s.driveEnable l).txbuf = s.txbuf := rfl
@[simp] theorem State.driveEnable_rxbuf (l : Bool) : (s.driveEnable l).rxbuf = s.rxbuf := rfl
@[simp] theorem State.driveEnable_fifo (l : Bool) : (s.driveEnable l).fifo = s.fifo := rfl
@[simp] theorem State.driveEnable_txi (l : Bool) : (s.driveEnable l).txi = s.txi := rfl
@[simp] theorem State.driveEnable_txbit (l : Bool) : (s.driveEnable l).txbit = s.txbit := rfl
@[simp] theorem State.driveEnable_deadline (l : Bool) : (s.driveEnable l).deadline = s.deadline := rfl
@[simp] theorem State.driveEnable_need (l : Bool) : (s.driveEnable l).need = s.need := rfl
@[simp] theorem State.driveEnable_expect (l : Bool) : (s.driveEnable l).expect = s.expect := rfl
@[simp] theorem State.driveEnable_now (l : Bool) : (s.driveEnable l).now = s.now := rfl
@[simp] theorem State.driveEnable_de (l : Bool) : (s.driveEnable l).de = l := rfl
@[simp] theorem State.driveEnable_pending (l : Bool) : (s.driveEnable l).pending = s.pending := rfl
@[simp] theorem State.driveEnable_held (l : Bool) : (s.driveEnable l).held = s.held := rfl
@[simp] theorem State.driveEnable_oracle (l : Bool) : (s.driveEnable l).oracle = s.oracle := rfl
@[simp] theorem State.driveEnable_cfg (l : Bool) : (s.driveEnable l).cfg = s.cfg := rfl
@[simp] theorem State.driveEnable_trace (l : Bool) : (s.driveEnable l).trace = Obs.de s.now l :: s.trace := rfl

@[simp] theorem State.endChar_done (b : Byte) : (s.endChar b).done = s.done := rfl
@[simp] theorem State.endChar_err (b : Byte) : (s.endChar b).err = s.err := rfl
@[simp] theorem State.endChar_isOpen (b : Byte) : (s.endChar b).isOpen = s.isOpen := rfl
@[simp] theorem State.endChar_errcode (b : Byte) : (s.endChar b).errcode = s.errcode := rfl
@[simp] theorem State.endChar_phase (b : Byte) : (s.endChar b).phase = s.phase := rfl
@[simp] theorem State.endChar_baud (b : Byte) : (s.endChar b).baud = s.baud := rfl
@[simp] theorem State.endChar_parity (b : Byte) : (s.endChar b).parity = s.parity := rfl
@[simp] theorem State.endChar_acc (b : Byte) : (s.endChar b).acc = s.acc := rfl
@[simp] theorem State.endChar_arg (b : Byte) : (s.endChar b).arg = s.arg := rfl
@[simp] theorem State.endChar_txlen (b : Byte) : (s.endChar b).txlen = s.txlen := rfl
@[simp] theorem State.endChar_rxlen (b : Byte) : (s.endChar b).rxlen = s.rxlen := rfl
@[simp] theorem State.endChar_respAddr (b : Byte) : (s.endChar b).respAddr = s.respAddr := rfl
@[simp] theorem State.endChar_respFc (b : Byte) : (s.endChar b).respFc = s.respFc := rfl
@[simp] theorem State.endChar_respBc (b : Byte) : (s.endChar b).respBc = s.respBc := rfl
@[simp] theorem State.endChar_crcRx (b : Byte) : (s.endChar b).crcRx = s.crcRx := rfl
@[simp] theorem State.endChar_crcCalc (b : Byte) : (s.endChar b).crcCalc = s.crcCalc := rfl
@[simp] theorem State.endChar_tstart (b : Byte) : (s.endChar b).tstart = s.tstart := rfl
@[simp] theorem State.endChar_txbuf (b : Byte) : (s.endChar b).txbuf = s.txbuf := rfl
@[simp] theorem State.endChar_rxbuf (b : Byte) : (s.endChar b).rxbuf = s.rxbuf := rfl
@[simp] theorem State.endChar_fifo (b : Byte) : (s.endChar b).fifo = s.fifo := rfl
@[simp] theorem State.endChar_txi (b : Byte) : (s.endChar b).txi = s.txi + 1 := rfl
@[simp] theorem State.endChar_txbit (b : Byte) : (s.endChar b).txbit = 0 := rfl
@[simp] theorem State.endChar_deadline (b : Byte) : (s.endChar b).deadline = s.deadline := rfl
@[simp] theorem State.endChar_need (b : Byte) : (s.endChar b).need = s.need := rfl
@[simp] theorem State.endChar_expect (b : Byte) : (s.endChar b).expect = s.expect := rfl
@[simp] theorem State.endChar_now (b : Byte) : (s.endChar b).now = s.now := rfl
@[simp] theorem State.endChar_de (b : Byte) : (s.endChar b).de = s.de := rfl
@[simp] theorem State.endChar_pending (b : Byte) : (s.endChar b).pending = s.pending := rfl
@[simp] theorem State.endChar_held (b : Byte) : (s.endChar b).held = s.held := rfl
@[simp] theorem State.endChar_oracle (b : Byte) : (s.endChar b).oracle = s.oracle := rfl
@[simp] theorem State.endChar_cfg (b : Byte) : (s.endChar b).cfg = s.cfg := rfl
@[simp] theorem State.endChar_trace (b : Byte) : (s.endChar b).trace = Obs.txChar s.now b :: s.trace := rfl

end Updates

end Sys2Proof.Machine
end

