-- ==== Sys2Proof/Laws/Ops.lean ====
section
/-! SUPPORT. What each shared operation can do, said once: sequencing, completing a reception, line input,
the transmitter, host accesses and the choice of the next step. -/

namespace Sys2Proof.Machine

@[simp] theorem andThen_of_next (s : State) (f : State → Res) : andThen (.next s) f = f s := rfl

/-- A sequence answers a next state exactly when both parts do. -/
theorem andThen_eq_next {r : Res} {f : State → Res} {t : State} :
    andThen r f = .next t ↔ ∃ u, r = .next u ∧ f u = .next t := by
  cases r <;> simp [andThen]

/-- Completing a reception answers exactly when every received byte is written. -/
theorem decodeReceived_eq_next {s t : State} :
    decodeReceived s = .next t ↔
      ∃ bs, s.rxbuf.span 0 s.rxlen.toNat = some bs ∧
        t = (s.setResp (decodeFrame s.cfg bs)).finish (decodeFrame s.cfg bs).code := by
  unfold decodeReceived
  cases s.rxbuf.span 0 s.rxlen.toNat with
  | none => simp
  | some bs =>
    constructor
    · intro h
      cases h
      exact ⟨bs, rfl, rfl⟩
    · rintro ⟨_, h, rfl⟩
      cases h
      rfl

/-- Line input changes nothing but the FIFO. -/
theorem lineInput_eq (input : Option Byte) (s : State) :
    lineInput input s = { s with fifo := (lineInput input s).fifo } := by
  unfold lineInput
  cases input with
  | none => rfl
  | some b => dsimp only; split <;> rfl

/-- The FIFO after line input (R151). -/
theorem lineInput_fifo (input : Option Byte) (s : State) :
    (lineInput input s).fifo =
      match input with
      | none => s.fifo
      | some b =>
        if s.isOpen = true ∧ s.fifo.length < Config.fifoCap then s.fifo ++ [b] else s.fifo := by
  unfold lineInput
  cases input with
  | none => rfl
  | some b => dsimp only; split <;> rfl

/-- What precedes the engine on a Tick: time, the FIFO, DE and its observation. -/
theorem beginTick_eq (input : Option Byte) (s : State) :
    beginTick input s =
      { s with
        now := s.now + 1
        fifo := (lineInput input { s with now := s.now + 1 }).fifo
        de := s.phase == .tx
        trace := Obs.de (s.now + 1) (s.phase == .tx) :: s.trace } := by
  simp only [beginTick, State.driveEnable]
  rw [lineInput_eq]

/-- The end of transmission either waits for a response or completes the exchange (R154). -/
theorem txComplete_cases (s : State) :
    (s.expect = true ∧ s.txComplete = s.await .waitFirst (tStart s.cfg s.baud)) ∨
      (s.expect = false ∧ s.txComplete = s.finish .none) := by
  unfold State.txComplete
  cases s.expect <;> simp

/-- What one tick of the transmitter can do (R152). -/
theorem txTick_eq_next {s t : State} (h : txTick s = .next t) :
    (s.txbit + 1 ≠ charBits s.cfg s.parity ∧ t = { s with txbit := s.txbit + 1 }) ∨
      (s.txbit + 1 = charBits s.cfg s.parity ∧ ∃ b, s.txbuf.get s.txi = some b ∧
        ((s.txi + 1 ≠ s.txlen.toNat ∧ t = s.endChar b) ∨
          (s.txi + 1 = s.txlen.toNat ∧ t = (s.endChar b).txComplete))) := by
  unfold txTick at h
  split at h
  · rename_i hb
    refine Or.inr ⟨hb, ?_⟩
    split at h
    · cases h
    · rename_i b hg
      refine ⟨b, hg, ?_⟩
      split at h
      · rename_i he
        cases h
        exact Or.inr ⟨he, rfl⟩
      · rename_i he
        cases h
        exact Or.inl ⟨he, rfl⟩
  · rename_i hb
    cases h
    exact Or.inl ⟨hb, rfl⟩

/-- A host read answers only by adding its value to the observation (R64). -/
theorem performRead_eq_next {off : BitVec 12} {width : Nat} {s t : State} :
    performRead off width s = .next t ↔
      legalAccess off width = true ∧ ∃ v, readReg s (regAt off) = some v ∧
        t = s.observe (.hostRead off v) := by
  unfold performRead
  cases legalAccess off width with
  | false => simp
  | true =>
    cases readReg s (regAt off) with
    | none => simp
    | some v =>
      constructor
      · intro h
        cases h
        exact ⟨rfl, v, rfl, rfl⟩
      · rintro ⟨_, _, h, rfl⟩
        cases h
        rfl

/-- A write whose time has come is a legal access that is performed (R62, R142). -/
theorem writeNow_eq_next {a : HostWrite} {s t : State} :
    writeNow a s = .next t ↔
      legalAccess a.off a.width = true ∧ performWrite a.off a.value s = .next t := by
  unfold writeNow
  cases legalAccess a.off a.width <;> simp

/-- A write that need not wait finds BUSY 0. -/
theorem busy_of_mustWait {a : HostWrite} {s : State} (h : mustWait a s = false) : s.busy = false :=
  (Bool.or_eq_false_iff.mp h).1

/-- While BUSY every write waits (R142). -/
theorem mustWait_of_busy (a : HostWrite) {s : State} (h : s.busy = true) : mustWait a s = true := by
  simp [mustWait, h]

/-- With BUSY 0 and no write held, none waits. -/
theorem mustWait_of_idle (a : HostWrite) {s : State} (h : s.busy = false) (hh : s.held = []) :
    mustWait a s = false := by
  simp [mustWait, h, hh]

/-- A host write answers by being held, when it has to wait, or by being performed (R142). -/
theorem hostWrite_eq_next {a : HostWrite} {s t : State} :
    hostWrite a s = .next t ↔
      legalAccess a.off a.width = true ∧
        ((mustWait a s = true ∧ a.canHold = true ∧ t = { s with held := s.held ++ [a] }) ∨
          (mustWait a s = false ∧ performWrite a.off a.value s = .next t)) := by
  unfold hostWrite
  cases legalAccess a.off a.width <;> cases mustWait a s <;> cases a.canHold <;> simp [eq_comm]

/-- The held write's step performs the oldest held write, or is not enabled and changes nothing. -/
theorem performHeld_cases (s : State) :
    ((s.held = [] ∨ s.busy = true) ∧ performHeld s = .next s) ∨
      ∃ a rest, s.held = a :: rest ∧ s.busy = false ∧
        performHeld s = writeNow a { s with held := rest } := by
  unfold performHeld
  cases hh : s.held with
  | nil => exact Or.inl ⟨Or.inl rfl, rfl⟩
  | cons a rest =>
    cases hb : s.busy with
    | true => exact Or.inl ⟨Or.inr rfl, rfl⟩
    | false => exact Or.inr ⟨a, rest, rfl, rfl, rfl⟩

/-- Issuing a word either runs the command it decodes to or is BAD_COMMAND (R84, R85). -/
theorem issueCommand_cases (w : Word) (s : State) :
    (∃ i, decode w = .ok i ∧ issueCommand w s = exec i s.accept) ∨
      ((∃ e, decode w = .error e) ∧ issueCommand w s = .next (s.accept.finish .badCommand)) := by
  unfold issueCommand
  cases h : decode w with
  | ok i => exact Or.inl ⟨i, rfl, rfl⟩
  | error e => exact Or.inr ⟨⟨e, rfl⟩, rfl⟩

/-- The next listed event is the step (R12). -/
theorem step_of_listed {s : State} {e : Event} {rest : List Event} (h : s.pending = e :: rest) :
    step s = envStep e { s with pending := rest } := by
  unfold step nextStep
  rw [h]

/-- With no event listed. -/
theorem step_of_unlisted {s : State} (h : s.pending = []) : step s = unscheduled s := by
  unfold step nextStep
  rw [h]

/-- Everything a step can be: the next listed event, or with none listed a held write that BUSY no longer
stops, or a Tick with free line input. -/
theorem step_cases (s : State) :
    (∃ e rest, s.pending = e :: rest ∧ step s = envStep e { s with pending := rest }) ∨
    (s.pending = [] ∧ (s.held = [] ∨ s.busy = true) ∧
      step s = tick (Config.lineInput s.oracle) { s with oracle := s.oracle + 1 }) ∨
    (s.pending = [] ∧ ∃ a rest, s.held = a :: rest ∧ s.busy = false ∧
      step s = writeNow a { s with held := rest }) := by
  by_cases hp : s.pending = []
  · refine Or.inr ?_
    rw [step_of_unlisted hp]
    unfold unscheduled
    rcases performHeld_cases s with ⟨h, _⟩ | ⟨a, rest, hh, hb, e⟩
    · exact Or.inl ⟨hp, h, if_pos h⟩
    · exact Or.inr ⟨hp, a, rest, hh, hb, (if_neg (by simp [hh, hb])).trans e⟩
  · obtain ⟨e, rest, h⟩ := List.exists_cons_of_ne_nil hp
    exact Or.inl ⟨e, rest, h, step_of_listed h⟩

end Sys2Proof.Machine
end

