-- ==== Sys2Proof/Laws/Engine.lean ====
section
/-! SUPPORT. The receive state machine: what consuming bytes leaves in RXBUF, RXLEN and the FIFO, and that
consumption reaches no further than the current phase allows. -/

namespace Sys2Proof.Machine

open Sys2Proof.Safety

/-- The received bytes stand in RXBUF, in canonical form, and RXLEN is within the buffer. -/
structure Received (s : State) : Prop where
  wf : s.rxbuf.wf rxCap = true
  written : ReceivedWritten s

theorem rxCap_eq : rxCap = 260 := rfl

/-- RXLEN counts up without wrapping, as long as it is within the buffer. -/
theorem rxlen_succ {n : BitVec 9} (h : n.toNat < 260) : (n + 1).toNat = n.toNat + 1 := by
  rw [BitVec.toNat_add, show (1 : BitVec 9).toNat = 1 from rfl]
  omega

/-- Receiving a byte below the capacity keeps the received bytes together. -/
theorem Received.receive {s : State} (h : Received s) {b : Byte} {rest : List Byte}
    (hl : s.rxlen.toNat < 260) : Received (s.receive b rest) := by
  refine ⟨?_, ?_⟩
  · simpa using Mem.wf_write b (by rw [rxCap_eq]; exact hl) h.wf
  · intro i hi
    simp only [State.receive_rxlen, rxlen_succ hl] at hi
    simp only [State.receive_rxbuf, Mem.isSome_get_write]
    by_cases hi' : i = s.rxlen.toNat
    · exact Or.inl hi'
    · exact Or.inr (h.written i (by omega))

/-- What consuming bytes up to a limit does (R156, R158). -/
structure Drained (limit : Nat) (s t : State) : Prop where
  shape : t = { s with fifo := t.fifo, rxbuf := t.rxbuf, rxlen := t.rxlen }
  received : Received t
  grows : s.rxlen.toNat ≤ t.rxlen.toNat
  within : t.rxlen.toNat ≤ limit
  keeps : ∀ i < s.rxlen.toNat, t.rxbuf.get i = s.rxbuf.get i
  shorter : t.fifo.length ≤ s.fifo.length
  stops : t.fifo = [] ∨ t.rxlen.toNat = limit

theorem Drained.refl {limit : Nat} {s : State} (h : Received s) (hl : s.rxlen.toNat ≤ limit)
    (hs : s.fifo = [] ∨ s.rxlen.toNat = limit) : Drained limit s s :=
  ⟨rfl, h, Nat.le_refl _, hl, fun _ _ => rfl, Nat.le_refl _, hs⟩

/-- Consuming up to a limit within the buffer (R156, R158). -/
theorem drainTo_drained {limit : Nat} (hlim : limit ≤ 260) : ∀ (q : List Byte) (s : State),
    s.fifo = q → Received s → s.rxlen.toNat ≤ limit → Drained limit s (drainTo limit q s) := by
  intro q
  induction q with
  | nil =>
    intro s hq h hl
    exact Drained.refl h hl (Or.inl hq)
  | cons b rest ih =>
    intro s hq h hl
    simp only [drainTo]
    split
    · rename_i hlt
      have hlt' : s.rxlen.toNat < 260 := by omega
      have d := ih (s.receive b rest) rfl (h.receive hlt')
        (by simp only [State.receive_rxlen, rxlen_succ hlt']; omega)
      have hg := d.grows
      simp only [State.receive_rxlen, rxlen_succ hlt'] at hg
      refine ⟨d.shape.trans rfl, d.received, by omega, d.within, fun i hi => ?_, ?_, d.stops⟩
      · rw [d.keeps i (by simp only [State.receive_rxlen, rxlen_succ hlt']; omega)]
        simpa using Mem.get_write_other s.rxbuf b (by omega)
      · have := d.shorter
        simp only [State.receive_fifo] at this
        rw [hq, List.length_cons]
        omega
    · rename_i hlt
      exact Drained.refl h hl (Or.inr (by omega))

/-- SILENCE with a byte waiting at a full buffer (R164). -/
theorem drainSilence_full {b : Byte} {rest : List Byte} {s : State} (h : s.rxlen.toNat = 260) :
    drainSilence (b :: rest) s = s.finish .frameTooLong := if_pos h

/-- SILENCE with a byte waiting and room for it (R159). -/
theorem drainSilence_more {b : Byte} {rest : List Byte} {s : State} (h : s.rxlen.toNat ≠ 260) :
    drainSilence (b :: rest) s = drainSilence rest (s.receive b rest) := if_neg h

/-- What SILENCE does with waiting bytes (R159, R164): they are consumed and the silence restarts, or the
buffer is full and the exchange ends. -/
theorem drainSilence_cases : ∀ (q : List Byte) (s : State),
    s.fifo = q → Received s → s.rxlen.toNat ≤ 260 →
    (∃ t, Drained 260 s t ∧ t.fifo = [] ∧
      drainSilence q s = { t with deadline := s.now + tSil s.cfg s.baud }) ∨
    (∃ t, Drained 260 s t ∧ t.rxlen.toNat = 260 ∧ drainSilence q s = t.finish .frameTooLong) := by
  intro q
  induction q with
  | nil =>
    intro s hq h hl
    exact Or.inl ⟨s, Drained.refl h hl (Or.inl hq), hq, rfl⟩
  | cons b rest ih =>
    intro s hq h hl
    by_cases he : s.rxlen.toNat = 260
    · rw [drainSilence_full he]
      exact Or.inr ⟨s, Drained.refl h hl (Or.inr he), he, rfl⟩
    · rw [drainSilence_more he]
      have hlt : s.rxlen.toNat < 260 := by omega
      have lift : ∀ t, Drained 260 (s.receive b rest) t → Drained 260 s t := by
        intro t d
        have hg := d.grows
        simp only [State.receive_rxlen, rxlen_succ hlt] at hg
        refine ⟨d.shape.trans rfl, d.received, by omega, d.within, fun i hi => ?_, ?_, d.stops⟩
        · rw [d.keeps i (by simp only [State.receive_rxlen, rxlen_succ hlt]; omega)]
          simpa using Mem.get_write_other s.rxbuf b (by omega)
        · have := d.shorter
          simp only [State.receive_fifo] at this
          rw [hq, List.length_cons]
          omega
      rcases ih (s.receive b rest) rfl (h.receive hlt)
        (by simp only [State.receive_rxlen, rxlen_succ hlt]; omega) with
        ⟨t, d, hf, e⟩ | ⟨t, d, hf, e⟩
      · exact Or.inl ⟨t, lift t d, hf, e⟩
      · exact Or.inr ⟨t, lift t d, hf, e⟩

/-- Received bytes can be decoded. -/
theorem decodeReceived_of_received {s : State} (h : Received s) :
    ∃ bs, s.rxbuf.span 0 s.rxlen.toNat = some bs ∧
      decodeReceived s = .next ((s.setResp (decodeFrame s.cfg bs)).finish (decodeFrame s.cfg bs).code) := by
  have hs : (s.rxbuf.span 0 s.rxlen.toNat).isSome = true :=
    Mem.span_isSome_iff.mpr fun i hi => by simpa using h.written i hi
  obtain ⟨bs, hbs⟩ := Option.isSome_iff_exists.mp hs
  exact ⟨bs, hbs, decodeReceived_eq_next.mpr ⟨bs, hbs, rfl⟩⟩

/-- `decode` never answers a code that only commands or the transport report (R202). -/
theorem decodeFrame_code (p : Params) (bs : List Byte) :
    (decodeFrame p bs).code = .none ∨ (decodeFrame p bs).code = .incompleteFrame ∨
      (decodeFrame p bs).code = .shortResponse ∨ (decodeFrame p bs).code = .crcMismatch := by
  simp only [decodeFrame, checkFrame]
  split
  · simp
  · split
    · simp
    · split
      · simp
      · dsimp only
        split <;> simp

end Sys2Proof.Machine
end

