-- ==== Sys2Proof/Laws/Invariant.lean ====
section
/-! SUPPORT. The block's invariant in the middle of a Tick, and that the receive state machine keeps it. -/

namespace Sys2Proof.Machine

open Sys2Proof.Safety

/-- What holds of every state but the engine's own part. -/
structure Steady (s : State) : Prop where
  canonical : BuffersCanonical s
  report : ReportConsistent s
  busy : BusyConsistent s
  fifo : FifoConsistent s
  start : StartTimeoutShown s
  positive : DurationsPositive s

/-- The invariant between the parts of a Tick that does not transmit: the deadline may be due. -/
structure Mid (s : State) : Prop where
  steady : Steady s
  notSending : s.phase ≠ .tx
  waiting : WaitingSound s
  inHeader : HeaderSound s
  inBody : BodySound s
  inSilence : SilenceSound s
  due : Receiving s.phase = true →
    s.now ≤ s.deadline ∧ s.deadline ≤ s.now + waitTicks s.cfg s.baud s.phase

theorem Inv.steady {s : State} (h : Inv s) : Steady s :=
  ⟨h.1, h.2.1, h.2.2.1, h.2.2.2.1, h.2.2.2.2.1, h.2.2.2.2.2.1⟩

/-- A completion with any reported code keeps what holds of every state (R203). -/
theorem Steady.finish {s : State} (h : Steady s) {c : ErrCode} (hc : c ≠ .invalidFunction) :
    Steady (s.finish c) := by
  refine ⟨h.canonical, ⟨?_, ?_, hc⟩, ?_, h.fifo, h.start, h.positive⟩
  · intro _
    simp
  · intro hd
    simp at hd
  · intro hb
    simp [State.busy] at hb

/-- An idle state meets the engine's part of the invariant. -/
theorem Mid.of_idle {s : State} (h : Steady s) (hp : s.phase = .idle) : Mid s := by
  constructor <;> simp_all [WaitingSound, HeaderSound, BodySound, SilenceSound, Receiving]

theorem Mid.finish {s : State} (h : Steady s) {c : ErrCode} (hc : c ≠ .invalidFunction) :
    Mid (s.finish c) := Mid.of_idle (h.finish hc) rfl

theorem decodeFrame_code_ne (p : Params) (bs : List Byte) : (decodeFrame p bs).code ≠ .invalidFunction := by
  rcases decodeFrame_code p bs with h | h | h | h <;> simp [h]

/-- Writing RESP0 and RESP1 and completing keeps what holds of every state. -/
theorem Steady.complete {s : State} (h : Steady s) (v : Verdict) {c : ErrCode}
    (hc : c ≠ .invalidFunction) : Steady ((s.setResp v).finish c) := by
  refine ⟨h.canonical, ⟨?_, ?_, hc⟩, ?_, h.fifo, h.start, h.positive⟩
  · intro _
    simp
  · intro hd
    simp at hd
  · intro hb
    simp [State.busy] at hb

/-- Completing a reception keeps the invariant and never faults. -/
theorem decodeReceived_mid {s : State} (h : Steady s) (hw : ReceivedWritten s) :
    ∃ t, decodeReceived s = .next t ∧ Mid t ∧ t.phase = .idle ∧ t.now = s.now := by
  obtain ⟨bs, _, e⟩ := decodeReceived_of_received ⟨h.canonical.2, hw⟩
  exact ⟨_, e, Mid.of_idle (h.complete _ (decodeFrame_code_ne _ bs)) rfl, rfl, rfl⟩

/-- Consuming bytes keeps what holds of every state. -/
theorem Drained.steady {limit : Nat} {s t : State} (d : Drained limit s t) (h : Steady s) :
    Steady t := by
  have e := d.shape
  refine ⟨⟨?_, d.received.wf⟩, ?_, ?_, ⟨?_, ?_⟩, ?_, ?_⟩
  · rw [e]
    exact h.canonical.1
  · rw [e]
    exact h.report
  · rw [e]
    exact h.busy
  · exact Nat.le_trans d.shorter h.fifo.1
  · intro ho
    have : s.fifo = [] := h.fifo.2 (by rw [e] at ho; exact ho)
    have hl := d.shorter
    rw [this] at hl
    exact List.length_eq_zero_iff.mp (Nat.le_zero.mp hl)
  · rw [e]
    exact h.start
  · rw [e]
    exact h.positive

theorem Drained.phase {limit : Nat} {s t : State} (d : Drained limit s t) : t.phase = s.phase := by
  rw [d.shape]
theorem Drained.now {limit : Nat} {s t : State} (d : Drained limit s t) : t.now = s.now := by
  rw [d.shape]
theorem Drained.cfg {limit : Nat} {s t : State} (d : Drained limit s t) : t.cfg = s.cfg := by
  rw [d.shape]
theorem Drained.baud {limit : Nat} {s t : State} (d : Drained limit s t) : t.baud = s.baud := by
  rw [d.shape]
theorem Drained.deadline {limit : Nat} {s t : State} (d : Drained limit s t) :
    t.deadline = s.deadline := by
  rw [d.shape]
theorem Drained.need {limit : Nat} {s t : State} (d : Drained limit s t) : t.need = s.need := by
  rw [d.shape]

/-- The header of three received bytes. -/
theorem header_of_get {s : State} {fc bc : Byte} (h1 : s.rxbuf.get 1 = some fc)
    (h2 : s.rxbuf.get 2 = some bc) : header s = (fc, bc) := by
  simp [header, h1, h2]

/-- Bytes received after the header leave it as it was. -/
theorem Drained.header {limit : Nat} {s t : State} (d : Drained limit s t)
    (h : 3 ≤ s.rxlen.toNat) : Safety.header t = Safety.header s := by
  simp [Safety.header, d.keeps 1 (by omega), d.keeps 2 (by omega)]

/-- A known function code declares at least five and at most 260 bytes (R121). -/
theorem declaredLen_bounds {fc bc : Byte} {n : Nat} (h : declaredLen fc bc = some n) :
    5 ≤ n ∧ n ≤ 260 := by
  have hb : bc.toNat < 256 := bc.isLt
  unfold declaredLen at h
  split at h
  · cases h
    omega
  · split at h
    · cases h
      omega
    · cases h

/-- WAIT_FIRST keeps the invariant. -/
theorem waitFirstStep_mid {s : State} (h : Mid s) (hp : s.phase = .waitFirst) :
    Mid (waitFirstStep s) ∧ (waitFirstStep s).now = s.now := by
  unfold waitFirstStep
  cases hf : s.fifo with
  | nil => exact ⟨h, rfl⟩
  | cons b rest =>
    have hb : s.busy = true := by simp [State.busy, hp]
    have hlen := h.steady.fifo.1
    rw [hf] at hlen
    refine ⟨⟨⟨⟨h.steady.canonical.1, ?_⟩, h.steady.report, ?_, ⟨?_, ?_⟩, h.steady.start, h.steady.positive⟩,
      ?_, ?_, ?_, ?_, ?_, ?_⟩, rfl⟩
    · exact Mem.wf_write b (by decide) h.steady.canonical.2
    · intro _
      exact h.steady.busy hb
    · simp only [State.await_fifo]
      simp only [List.length_cons] at hlen
      omega
    · intro ho
      have : s.isOpen = true := (h.steady.busy hb).1
      simp only [State.await_isOpen] at ho
      rw [this] at ho
      cases ho
    · simp
    · intro hx
      cases hx
    · intro _
      refine ⟨by simp, by simp, ?_⟩
      intro i hi
      have : i = 0 := by simpa using hi
      subst this
      simp
    · intro hx
      cases hx
    · intro hx
      cases hx
    · intro _
      simp [waitTicks]

/-- Dispatch keeps the invariant (R157). -/
theorem dispatch_mid {s : State} {fc bc : Byte} (h : Steady s) (hb : s.busy = true)
    (hl : s.rxlen.toNat = 3) (hw : ReceivedWritten s) (hh : header s = (fc, bc)) :
    Mid (dispatch fc bc s) ∧ (dispatch fc bc s).now = s.now := by
  unfold dispatch
  cases hd : declaredLen fc bc with
  | some n =>
    have hn := declaredLen_bounds hd
    refine ⟨⟨⟨h.canonical, h.report, fun _ => h.busy hb, h.fifo, h.start, h.positive⟩, by simp, ?_, ?_, ?_, ?_, ?_⟩,
      rfl⟩
    · intro hx
      cases hx
    · intro hx
      cases hx
    · intro _
      refine ⟨by simp [hl], by simp [hl]; omega, hn.2, ?_, hw⟩
      change declaredLen (header s).1 (header s).2 = some n
      rw [hh]
      exact hd
    · intro hx
      cases hx
    · intro _
      simp [waitTicks]
  | none =>
    refine ⟨⟨⟨h.canonical, h.report, fun _ => h.busy hb, h.fifo, h.start, h.positive⟩, by simp, ?_, ?_, ?_, ?_, ?_⟩,
      rfl⟩
    · intro hx
      cases hx
    · intro hx
      cases hx
    · intro hx
      cases hx
    · intro _
      refine ⟨by simp [hl], by simp [hl, rxCap_eq], ?_, hw⟩
      change declaredLen (header s).1 (header s).2 = none
      rw [hh]
      exact hd
    · intro _
      simp [waitTicks]

/-- HDR keeps the invariant and never faults. -/
theorem hdrStep_mid {s : State} (h : Mid s) (hp : s.phase = .hdr) :
    ∃ t, hdrStep s = .next t ∧ Mid t ∧ t.now = s.now := by
  obtain ⟨hl1, hl3, hw⟩ := h.inHeader hp
  have d := drainTo_drained (limit := 3) (by omega) s.fifo s rfl
    ⟨h.steady.canonical.2, hw⟩ (by omega)
  have hst := d.steady h.steady
  generalize hg : drainTo 3 s.fifo s = t at d hst
  have hpt : t.phase = .hdr := d.phase.trans hp
  have hbt : t.busy = true := by simp [State.busy, hpt]
  unfold hdrStep
  simp only [hg]
  by_cases h3 : t.rxlen = 3
  · rw [if_pos h3]
    have h3n : t.rxlen.toNat = 3 := by rw [h3]; rfl
    obtain ⟨fc, hfc⟩ := Option.isSome_iff_exists.mp (d.received.written 1 (by omega))
    obtain ⟨bc, hbc⟩ := Option.isSome_iff_exists.mp (d.received.written 2 (by omega))
    rw [hfc, hbc]
    obtain ⟨hm, hn⟩ := dispatch_mid hst hbt h3n d.received.written (header_of_get hfc hbc)
    exact ⟨_, rfl, hm, hn.trans d.now⟩
  · rw [if_neg h3]
    have h3n : t.rxlen.toNat ≠ 3 := fun e => h3 (BitVec.eq_of_toNat_eq e)
    have hg' := d.grows
    have hw' := d.within
    refine ⟨t, rfl, ⟨hst, by simp [hpt], ?_, ?_, ?_, ?_, ?_⟩, d.now⟩
    · intro hx
      rw [hpt] at hx
      cases hx
    · intro _
      exact ⟨by omega, by omega, d.received.written⟩
    · intro hx
      rw [hpt] at hx
      cases hx
    · intro hx
      rw [hpt] at hx
      cases hx
    · rw [d.phase, d.now, d.deadline, d.baud, d.cfg]
      exact h.due

/-- BODY keeps the invariant and never faults. -/
theorem bodyStep_mid {s : State} (h : Mid s) (hp : s.phase = .body) :
    ∃ t, bodyStep s = .next t ∧ Mid t ∧ t.now = s.now := by
  obtain ⟨hl3, hln, hcap, hdec, hw⟩ := h.inBody hp
  rw [rxCap_eq] at hcap
  have d := drainTo_drained (limit := s.need) hcap s.fifo s rfl
    ⟨h.steady.canonical.2, hw⟩ (by omega)
  have hst := d.steady h.steady
  generalize hg : drainTo s.need s.fifo s = t at d hst
  have hpt : t.phase = .body := d.phase.trans hp
  unfold bodyStep
  simp only [hg]
  by_cases hn : t.rxlen.toNat = t.need
  · rw [if_pos hn]
    obtain ⟨u, hu, hm, _, hnow⟩ := decodeReceived_mid hst d.received.written
    exact ⟨u, hu, hm, hnow.trans d.now⟩
  · rw [if_neg hn]
    have hg' := d.grows
    have hw' := d.within
    refine ⟨t, rfl, ⟨hst, by simp [hpt], ?_, ?_, ?_, ?_, ?_⟩, d.now⟩
    · intro hx
      rw [hpt] at hx
      cases hx
    · intro hx
      rw [hpt] at hx
      cases hx
    · intro _
      rw [d.need] at hn ⊢
      exact ⟨by omega, by omega, by rw [rxCap_eq]; exact hcap, by rw [d.header hl3]; exact hdec,
        d.received.written⟩
    · intro hx
      rw [hpt] at hx
      cases hx
    · rw [d.phase, d.now, d.deadline, d.baud, d.cfg]
      exact h.due

/-- SILENCE keeps the invariant. -/
theorem silenceStep_mid {s : State} (h : Mid s) (hp : s.phase = .silence) :
    Mid (silenceStep s) ∧ (silenceStep s).now = s.now := by
  obtain ⟨hl3, hcap, hdec, hw⟩ := h.inSilence hp
  rw [rxCap_eq] at hcap
  have hsil : silenceStep s = s ∨ silenceStep s = drainSilence s.fifo s := by
    unfold silenceStep
    cases s.fifo with
    | nil => exact Or.inl rfl
    | cons b rest => exact Or.inr rfl
  rcases hsil with e | e
  · rw [e]
    exact ⟨h, rfl⟩
  · rw [e]
    rcases drainSilence_cases s.fifo s rfl ⟨h.steady.canonical.2, hw⟩ hcap with
      ⟨t, d, hf, e'⟩ | ⟨t, d, _, e'⟩
    · have hst := d.steady h.steady
      have hpt : t.phase = .silence := d.phase.trans hp
      have hbt : t.busy = true := by simp [State.busy, hpt]
      rw [e']
      refine ⟨⟨⟨hst.canonical, hst.report, fun _ => hst.busy hbt, hst.fifo, hst.start, hst.positive⟩, ?_, ?_, ?_, ?_,
        ?_, ?_⟩, d.now⟩
      · simp [hpt]
      · intro hx
        simp [hpt] at hx
      · intro hx
        simp [hpt] at hx
      · intro hx
        simp [hpt] at hx
      · intro _
        have hg := d.grows
        have hw' := d.within
        refine ⟨by simp only; omega, by rw [rxCap_eq]; exact hw', ?_, d.received.written⟩
        change declaredLen (header t).1 (header t).2 = none
        rw [d.header hl3]
        exact hdec
      · intro _
        simp [hpt, waitTicks, d.now, d.baud, d.cfg]
    · rw [e']
      exact ⟨Mid.finish (d.steady h.steady) (by simp), d.now⟩

/-- Every phase's rule keeps the invariant and never faults (R155 to R159). -/
theorem phaseStep_mid {s : State} (h : Mid s) :
    ∃ t, phaseStep s = .next t ∧ Mid t ∧ t.now = s.now := by
  unfold phaseStep
  cases hp : s.phase with
  | idle => exact ⟨s, rfl, h, rfl⟩
  | tx => exact ⟨s, rfl, h, rfl⟩
  | waitFirst => exact ⟨_, rfl, waitFirstStep_mid h hp⟩
  | hdr => exact hdrStep_mid h hp
  | body => exact bodyStep_mid h hp
  | silence => exact ⟨_, rfl, silenceStep_mid h hp⟩

theorem rxLoop_mid (fuel : Nat) : ∀ {s : State}, Mid s →
    ∃ t, rxLoop fuel s = .next t ∧ Mid t ∧ t.now = s.now := by
  induction fuel with
  | zero =>
    intro s h
    exact ⟨s, rfl, h, rfl⟩
  | succ n ih =>
    intro s h
    obtain ⟨t, ht, hm, hn⟩ := phaseStep_mid h
    unfold rxLoop
    rw [ht, andThen_of_next]
    split
    · exact ⟨t, rfl, hm, hn⟩
    · obtain ⟨u, hu, hmu, hnu⟩ := ih hm
      exact ⟨u, hu, hmu, hnu.trans hn⟩

/-- Consumption keeps the invariant and never faults (R165). -/
theorem rxConsume_mid {s : State} (h : Mid s) :
    ∃ t, rxConsume s = .next t ∧ Mid t ∧ t.now = s.now := rxLoop_mid 4 h

/-- An idle state meets the invariant once what holds of every state does. -/
theorem Inv.of_idle {s : State} (h : Steady s) (hp : s.phase = .idle) : Inv s := by
  refine ⟨h.canonical, h.report, h.busy, h.fifo, h.start, h.positive, ?_, ?_, ?_, ?_, ?_, ?_⟩ <;>
    · intro hx
      simp [hp, Receiving] at hx

/-- The deadline check restores the invariant and never faults (R161). -/
theorem deadlineCheck_inv {s : State} (h : Mid s) :
    ∃ t, deadlineCheck s = .next t ∧ Inv t := by
  have ended : ReceivedWritten s → ∃ t, decodeReceived s = .next t ∧ Inv t := by
    intro hw
    obtain ⟨t, ht, hm, hp, _⟩ := decodeReceived_mid h.steady hw
    exact ⟨t, ht, Inv.of_idle hm.steady hp⟩
  unfold deadlineCheck
  by_cases hd : s.now ≥ s.deadline
  · rw [if_pos hd]
    cases hp : s.phase with
    | idle => exact ⟨s, rfl, Inv.of_idle h.steady hp⟩
    | tx => exact absurd hp h.notSending
    | waitFirst => exact ⟨_, rfl, Inv.of_idle (h.steady.finish (by simp)) rfl⟩
    | hdr => exact ended (h.inHeader hp).2.2
    | body => exact ended (h.inBody hp).2.2.2.2
    | silence => exact ended (h.inSilence hp).2.2.2
  · rw [if_neg hd]
    refine ⟨s, rfl, h.steady.canonical, h.steady.report, h.steady.busy, h.steady.fifo, h.steady.start, h.steady.positive,
      fun hx => absurd hx h.notSending, h.waiting, h.inHeader, h.inBody, h.inSilence, ?_⟩
    intro hr
    exact ⟨by omega, (h.due hr).2⟩

/-- Line input keeps the FIFO within its capacity, and empty while the line is closed (R151). -/
theorem lineInput_fifoConsistent {s : State} (h : FifoConsistent s) (input : Option Byte) :
    FifoConsistent (lineInput input s) := by
  unfold lineInput
  cases input with
  | none => exact h
  | some b =>
    dsimp only
    split
    · rename_i hc
      refine ⟨by simp; omega, ?_⟩
      intro ho
      simp [hc.1] at ho
    · exact h

/-- Line input, time and DE keep what holds of every state. -/
theorem beginTick_steady {s : State} (h : Steady s) (input : Option Byte) :
    Steady (beginTick input s) := by
  have hf := lineInput_fifoConsistent (s := { s with now := s.now + 1 }) h.fifo input
  rw [lineInput_eq] at hf
  rw [beginTick_eq]
  exact ⟨h.canonical, h.report, h.busy, hf, h.start, h.positive⟩

/-- Before the engine runs, a Tick that does not transmit is in the middle of the invariant. -/
theorem beginTick_mid {s : State} (h : Inv s) (hp : s.phase ≠ .tx) (input : Option Byte) :
    Mid (beginTick input s) := by
  have hs := beginTick_steady (Inv.steady h) input
  rw [beginTick_eq] at hs ⊢
  obtain ⟨_, _, _, _, _, _, _, hwait, hhdr, hbody, hsil, hdue⟩ := h
  exact ⟨hs, hp, hwait, hhdr, hbody, hsil, fun hr => ⟨(hdue hr).1, Nat.le_succ_of_le (hdue hr).2 |>.trans
    (by simp only; omega)⟩⟩

/-- The end of transmission meets the invariant (R154). -/
theorem txComplete_inv {s : State} (h : Steady s) (hb : s.busy = true) (hl : s.rxlen = 0) :
    Inv s.txComplete := by
  rcases txComplete_cases s with ⟨he, e⟩ | ⟨_, e⟩
  · rw [e]
    refine ⟨h.canonical, h.report, fun _ => h.busy hb, h.fifo, h.start, h.positive, ?_, ?_, ?_, ?_, ?_, ?_⟩
    · intro hx
      cases hx
    · intro _
      exact ⟨hl, he⟩
    · intro hx
      cases hx
    · intro hx
      cases hx
    · intro hx
      cases hx
    · intro _
      have := (h.positive s.baud).1
      simp [waitTicks]
      omega
  · rw [e]
    exact Inv.of_idle (h.finish (by simp)) rfl

/-- The transmitter keeps the invariant and never faults (R152). -/
theorem txTick_inv {s : State} (h : Steady s) (hp : s.phase = .tx) (ht : SendingSound s) :
    ∃ t, txTick s = .next t ∧ Inv t := by
  obtain ⟨hi, hcap, hbit, hl, hw⟩ := ht hp
  have hb : s.busy = true := by simp [State.busy, hp]
  unfold txTick
  by_cases hc : s.txbit + 1 = charBits s.cfg s.parity
  · rw [if_pos hc]
    obtain ⟨b, hg⟩ := Option.isSome_iff_exists.mp (hw s.txi hi)
    rw [hg]
    have hst : Steady (s.endChar b) := ⟨h.canonical, h.report, h.busy, h.fifo, h.start, h.positive⟩
    by_cases he : s.txi + 1 = s.txlen.toNat
    · simp only [if_pos he]
      exact ⟨_, rfl, txComplete_inv hst hb hl⟩
    · simp only [if_neg he]
      refine ⟨_, rfl, hst.canonical, hst.report, hst.busy, hst.fifo, hst.start, hst.positive, ?_, ?_, ?_, ?_, ?_, ?_⟩
      · intro _
        refine ⟨by simp; omega, hcap, ?_, hl, hw⟩
        simp only [State.endChar_txbit, State.endChar_parity, State.endChar_cfg]
        omega
      all_goals
        intro hx
        simp [hp, Receiving] at hx
  · rw [if_neg hc]
    refine ⟨_, rfl, h.canonical, h.report, h.busy, h.fifo, h.start, h.positive, ?_, ?_, ?_, ?_, ?_, ?_⟩
    · intro _
      exact ⟨hi, hcap, by simp only; omega, hl, hw⟩
    all_goals
      intro hx
      simp [hp, Receiving] at hx

end Sys2Proof.Machine
end

