-- ==== Sys2Proof/Laws/Commands.lean ====
section
/-! SUPPORT. What each command can do, and that every command and every host write keeps the block's
invariant. -/

namespace Sys2Proof.Machine

open Sys2Proof.Safety

/-- What CRC_BUF can answer (R104). -/
theorem execCrcBuf_eq_next {sel : BufSel} {n : BitVec 9} {s t : State}
    (h : execCrcBuf sel n s = .next t) :
    (capOf sel < n.toNat ∧ t = s.finish .badLength) ∨
      (n.toNat ≤ capOf sel ∧ ∃ bs, (bufOf sel s).span 0 n.toNat = some bs ∧
        t = (s.setAcc (crc16 s.cfg bs)).finish .none) := by
  unfold execCrcBuf at h
  split at h
  · rename_i hn
    cases h
    exact Or.inl ⟨hn, rfl⟩
  · rename_i hn
    split at h
    · cases h
    · rename_i bs hbs
      cases h
      exact Or.inr ⟨by omega, bs, hbs, rfl⟩

/-- What ENC_RAW can answer (R111). -/
theorem execEncRaw_eq_next {n addr fc : Byte} {s t : State} (h : execEncRaw n addr fc s = .next t) :
    (252 < n.toNat ∧ t = s.finish .badLength) ∨
      (n.toNat ≤ 252 ∧ ∃ payload, s.txbuf.span 2 n.toNat = some payload ∧
        t = (s.setTx (wrapPayload s.cfg s.txbuf n.toNat addr fc payload)
          (BitVec.ofNat 9 (n.toNat + 4))).finish .none) := by
  have hc : txCap - 4 = 252 := rfl
  unfold execEncRaw at h
  split at h
  · rename_i hn
    cases h
    exact Or.inl ⟨by omega, rfl⟩
  · rename_i hn
    split at h
    · cases h
    · rename_i payload hp
      cases h
      exact Or.inr ⟨by omega, payload, hp, rfl⟩

/-- What DECODE can answer (R125). -/
theorem execDecode_eq_next {s t : State} (h : execDecode s = .next t) :
    (260 < s.rxlen.toNat ∧ t = s.finish .badLength) ∨
      (s.rxlen.toNat ≤ 260 ∧ ∃ bs, s.rxbuf.span 0 s.rxlen.toNat = some bs ∧
        t = (s.setResp (decodeFrame s.cfg bs)).finish (decodeFrame s.cfg bs).code) := by
  have hc : rxCap = 260 := rfl
  unfold execDecode at h
  split at h
  · rename_i hn
    cases h
    exact Or.inl ⟨by omega, rfl⟩
  · rename_i hn
    obtain ⟨bs, hbs, e⟩ := decodeReceived_eq_next.mp h
    exact Or.inr ⟨by omega, bs, hbs, e⟩

/-- What OPEN can answer (R140). -/
theorem execOpen_eq_next {baud : BitVec 3} {parity : BitVec 2} {s t : State}
    (h : execOpen baud parity s = .next t) :
    (∃ b p, baudOf baud = some b ∧ parityOf parity = some p ∧ t = (s.setLine b p).finish .none) ∨
      ((baudOf baud = none ∨ parityOf parity = none) ∧ t = s.finish .badCommand) := by
  unfold execOpen at h
  cases hb : baudOf baud with
  | none =>
    rw [hb] at h
    cases h
    exact Or.inr ⟨Or.inl rfl, rfl⟩
  | some b =>
    cases hp : parityOf parity with
    | none =>
      rw [hb, hp] at h
      cases h
      exact Or.inr ⟨Or.inr rfl, rfl⟩
    | some p =>
      rw [hb, hp] at h
      cases h
      exact Or.inl ⟨b, p, rfl, rfl, rfl⟩

/-- What XFER can answer at issue (R143). -/
theorem execXfer_eq_next {e : Bool} {s t : State} (h : execXfer e s = .next t) :
    (s.isOpen = false ∧ t = s.finish .notOpen) ∨
      (s.isOpen = true ∧ 256 < s.txlen.toNat ∧ t = s.finish .badLength) ∨
      (s.isOpen = true ∧ s.txlen.toNat ≤ 256 ∧ (∃ bs, s.txbuf.span 0 s.txlen.toNat = some bs) ∧
        t = s.startExchange e) := by
  have hc : txCap = 256 := rfl
  unfold execXfer at h
  split at h
  · rename_i ho
    cases h
    exact Or.inl ⟨ho, rfl⟩
  · rename_i ho
    have ho' : s.isOpen = true := by simpa using ho
    split at h
    · rename_i hn
      cases h
      exact Or.inr (Or.inl ⟨ho', by omega, rfl⟩)
    · rename_i hn
      split at h
      · cases h
      · rename_i bs hbs
        cases h
        exact Or.inr (Or.inr ⟨ho', by omega, ⟨bs, hbs⟩, rfl⟩)

/-- Acceptance keeps what holds of every state, on an idle block (R204). -/
theorem Steady.accept {s : State} (h : Steady s) (hp : s.phase = .idle) : Steady s.accept := by
  refine ⟨h.canonical, ⟨?_, ?_, by simp⟩, ?_, h.fifo, h.start, h.positive⟩
  · intro hd
    simp at hd
  · intro _
    simp
  · intro hb
    simp [State.busy, hp] at hb

/-- A completed idle state meets the invariant. -/
theorem Inv.finish {s : State} (h : Steady s) {c : ErrCode} (hc : c ≠ .invalidFunction) :
    Inv (s.finish c) := Inv.of_idle (h.finish hc) rfl

theorem Steady.setAcc {s : State} (h : Steady s) (a : Half) : Steady (s.setAcc a) :=
  ⟨h.canonical, h.report, h.busy, h.fifo, h.start, h.positive⟩

theorem Steady.setTx {s : State} (h : Steady s) {m : Mem} (n : BitVec 9)
    (hm : m.wf txCap = true) : Steady (s.setTx m n) :=
  ⟨⟨hm, h.canonical.2⟩, h.report, h.busy, h.fifo, h.start, h.positive⟩

/-- Wrapping a payload that fits keeps TXBUF canonical (R111). -/
theorem wrapPayload_wf (p : Params) {m : Mem} {n : Nat} (addr fc : Byte) (payload : List Byte) (hn : n ≤ 252)
    (hm : m.wf txCap = true) : (wrapPayload p m n addr fc payload).wf txCap = true := by
  have hc : txCap = 256 := rfl
  unfold wrapPayload
  exact Mem.wf_write _ (by omega) (Mem.wf_write _ (by omega) (Mem.wf_write _ (by omega)
    (Mem.wf_write _ (by omega) hm)))

/-- Opening the line keeps what holds of every state (R140). -/
theorem Steady.setLine {s : State} (h : Steady s) (hp : s.phase = .idle) (b : BaudSel) (p : Parity) :
    Steady (s.setLine b p) := by
  refine ⟨h.canonical, h.report, ?_, ⟨by simp, fun _ => rfl⟩, ?_, h.positive⟩
  · intro hb
    simp [State.busy, hp] at hb
  · intro _
    rfl

/-- Closing the line keeps what holds of every state (R141). -/
theorem Steady.unsetLine {s : State} (h : Steady s) (hp : s.phase = .idle) : Steady s.unsetLine := by
  refine ⟨h.canonical, h.report, ?_, ⟨by simp, fun _ => rfl⟩, ?_, h.positive⟩
  · intro hb
    simp [State.busy, hp] at hb
  · intro ho
    simp at ho

/-- XFER's acceptance keeps what holds of every state (R143). -/
theorem Steady.beginExchange {s : State} (h : Steady s) (ho : s.isOpen = true) (e : Bool) :
    Steady (s.beginExchange e) := by
  refine ⟨h.canonical, ⟨?_, ?_, by simp⟩, ?_, ⟨by simp, fun _ => rfl⟩, h.start, h.positive⟩
  · intro hd
    simp at hd
  · intro _
    simp
  · intro _
    simp [ho]

theorem charBits_pos (p : Params) (parity : Parity) : 0 < charBits p parity := by
  unfold charBits
  omega

/-- An accepted XFER meets the invariant, transmitting or with nothing to send (R143, R145). -/
theorem startExchange_inv {s : State} (h : Steady s) (ho : s.isOpen = true)
    (hl : s.txlen.toNat ≤ 256) (hw : ∀ i < s.txlen.toNat, (s.txbuf.get i).isSome = true) (e : Bool) :
    Inv (s.startExchange e) := by
  have hb := h.beginExchange ho e
  unfold State.startExchange
  split
  · rcases txComplete_cases (s.beginExchange e) with ⟨he, q⟩ | ⟨_, q⟩
    · rw [q]
      refine ⟨hb.canonical, hb.report, fun _ => by simp [ho], hb.fifo, hb.start, hb.positive, ?_, ?_, ?_, ?_, ?_, ?_⟩
      · intro hx
        cases hx
      · intro _
        exact ⟨rfl, he⟩
      · intro hx
        cases hx
      · intro hx
        cases hx
      · intro hx
        cases hx
      · intro _
        have := (h.positive s.baud).1
        simp [waitTicks]
        omega
    · rw [q]
      exact Inv.of_idle (hb.finish (by simp)) rfl
  · rename_i hne
    have hpos : 0 < s.txlen.toNat := by
      rcases Nat.eq_zero_or_pos s.txlen.toNat with hz | hz
      · exact absurd (BitVec.eq_of_toNat_eq hz) hne
      · exact hz
    refine ⟨hb.canonical, hb.report, fun _ => by simp [ho], hb.fifo, hb.start, hb.positive, ?_, ?_, ?_, ?_, ?_, ?_⟩
    · intro _
      exact ⟨hpos, hl, charBits_pos _ _, rfl, hw⟩
    all_goals
      intro hx
      simp [Receiving] at hx

/-- No control register is a buffer's entry. -/
theorem controlReg_ne (k i : Nat) : controlReg k ≠ .txbuf i ∧ controlReg k ≠ .rxbuf i := by
  unfold controlReg
  split <;> simp

/-- Every TXBUF and RXBUF register of the window is an entry of its buffer (R60). -/
theorem regAt_index (off : BitVec 12) :
    (∀ i, regAt off = .txbuf i → i < 256) ∧ (∀ i, regAt off = .rxbuf i → i < 260) := by
  unfold regAt
  constructor <;>
    · intro i hi
      split_ifs at hi
      · first
          | exact absurd hi (controlReg_ne _ i).1
          | exact absurd hi (controlReg_ne _ i).2
      all_goals cases hi
      all_goals omega

/-- A host write that stores keeps what holds of every state (R25 to R34). -/
theorem storeReg_steady {s : State} (h : Steady s) (off : BitVec 12) (v : Word) :
    Steady (storeReg (regAt off) v s) := by
  cases hr : regAt off with
  | txbuf i =>
    exact ⟨⟨Mem.wf_write _ ((regAt_index off).1 i hr) h.canonical.1, h.canonical.2⟩, h.report, h.busy,
      h.fifo, h.start, h.positive⟩
  | rxbuf i =>
    exact ⟨⟨h.canonical.1, Mem.wf_write _ ((regAt_index off).2 i hr) h.canonical.2⟩, h.report, h.busy,
      h.fifo, h.start, h.positive⟩
  | _ => exact ⟨h.canonical, h.report, h.busy, h.fifo, h.start, h.positive⟩

end Sys2Proof.Machine
end

