-- ==== Sys2Proof/Laws/Encoding.lean ====
section
/-! SUPPORT. Command words as numbers: what the formats of 30_encoding.md R81 add up to, and the opcode
map both ways (R82). -/

namespace Sys2Proof

/-- Concatenation as a number. -/
theorem toNat_append_eq {v w : Nat} (x : BitVec v) (y : BitVec w) :
    (x ++ y).toNat = x.toNat * 2 ^ w + y.toNat := by
  rw [BitVec.toNat_append, ← Nat.shiftLeft_add_eq_or_of_lt y.isLt, Nat.shiftLeft_eq]

/-- A field of a word as a number. -/
theorem field_toNat (w : Word) (start len : Nat) :
    (w.extractLsb' start len).toNat = w.toNat / 2 ^ start % 2 ^ len := by
  rw [BitVec.extractLsb'_toNat, Nat.shiftRight_eq_div_pow]

theorem encode_crcByte_toNat (b : Byte) : (encode (.crcByte b)).toNat = 0x02000000 + b.toNat := by
  refine (toNat_append_eq (0x02#8 ++ 0#16) b).trans ?_
  simp

theorem encode_crcBuf_toNat (sel : BufSel) (n : BitVec 9) :
    (encode (.crcBuf sel n)).toNat = 0x03000000 + sel.bit.toNat * 65536 + n.toNat := by
  refine (toNat_append_eq (0x03#8 ++ 0#7 ++ sel.bit ++ 0#7) n).trans ?_
  cases sel <;> rfl

theorem encode_encRaw_toNat (n addr fc : Byte) :
    (encode (.encRaw n addr fc)).toNat =
      0x10000000 + n.toNat * 65536 + addr.toNat * 256 + fc.toNat := by
  refine (toNat_append_eq (0x10#8 ++ n ++ addr) fc).trans ?_
  simp only [toNat_append_eq]
  simp
  omega

theorem encode_encWords_toNat (addr fc : Byte) :
    (encode (.encWords addr fc)).toNat = 0x11000000 + addr.toNat * 256 + fc.toNat := by
  refine (toNat_append_eq (0x11#8 ++ 0#8 ++ addr) fc).trans ?_
  simp only [toNat_append_eq]
  simp
  omega

/-- The opcode map, from the command to its number (R82). -/
theorem opcodeOf_bits (op : Opcode) : opcodeOf op.bits = some op := by
  cases op <;> decide

/-- The opcode map, from the number to the command (R82). -/
theorem opcodeOf_eq_some {b : Byte} {op : Opcode} (h : opcodeOf b = some op) : op.bits = b := by
  unfold opcodeOf at h
  split_ifs at h <;> (cases h; simp_all [Opcode.bits])

/-- A word with a known opcode and no 1 in a reserved bit decodes to that command (R80, R84). -/
theorem decode_of_legal {w : Word} {op : Opcode} (hop : w.extractLsb' 24 8 = op.bits)
    (hm : w &&& ~~~(legalMask op) = 0#32) : decode w = .ok (operands op w) := by
  simp [decode, hop, opcodeOf_bits, hm]

/-- What a word that decodes looks like (R80, R84). -/
theorem decode_eq_ok {w : Word} {i : Instr} (h : decode w = .ok i) :
    ∃ op : Opcode, w.extractLsb' 24 8 = op.bits ∧ w &&& ~~~(legalMask op) = 0#32 ∧
      i = operands op w := by
  unfold decode at h
  split at h
  · cases h
  · rename_i op ho
    split_ifs at h with hm
    cases h
    exact ⟨op, (opcodeOf_eq_some ho).symm, hm, rfl⟩

end Sys2Proof
end

