-- ==== Sys2Proof/Laws/PerInstr.lean ====
section
/-! SUPPORT. Facts about every command as syntax, one lemma per constructor. Family LegalWord: the word of
a command carries its opcode and no 1 in a bit its format marks 0 (30_encoding.md R81, R86). -/

namespace Sys2Proof.Laws.LegalWord

/-- The opcode of a command (R82). -/
def opcode : Instr → Opcode
  | .crcInit => .crcInit
  | .crcByte _ => .crcByte
  | .crcBuf _ _ => .crcBuf
  | .encRaw _ _ _ => .encRaw
  | .encWords _ _ => .encWords
  | .decodeBuf => .decodeBuf
  | .openLine _ _ => .openLine
  | .closeLine => .closeLine
  | .xfer _ => .xfer

/-- The command's word has its opcode and only operand bits of its format. -/
def Statement (i : Instr) : Prop :=
  (encode i).extractLsb' 24 8 = (opcode i).bits ∧
    encode i &&& ~~~(legalMask (opcode i)) = 0#32

/-- A word masked by two fields, the lower one cleared and the upper one without a common 1, is 0. -/
theorem masked_eq_zero {v w : Nat} (x x' : BitVec v) (y : BitVec w) (h : x &&& x' = 0#v) :
    (x ++ y) &&& (x' ++ 0#w) = 0#(v + w) := by
  rw [BitVec.and_append, h, BitVec.and_zero]
  apply BitVec.eq_of_toNat_eq
  simp

/-- The same with the mask written as one number. -/
theorem masked_by {v w : Nat} {mask : BitVec (v + w)} {x' : BitVec v} (hm : mask = x' ++ 0#w)
    (x : BitVec v) (y : BitVec w) (h : x &&& x' = 0#v) : (x ++ y) &&& mask = 0#(v + w) :=
  hm ▸ masked_eq_zero x x' y h

theorem crcInit : Statement .crcInit := ⟨rfl, rfl⟩

theorem crcByte (b : Byte) : Statement (.crcByte b) := by
  refine ⟨?_, ?_⟩
  · exact (BitVec.extractLsb'_append_eq_of_le (xhi := 0x02#8 ++ 0#16) (xlo := b) (by decide)).trans rfl
  · exact masked_by (mask := ~~~(legalMask .crcByte)) (x' := 0x00FFFF#24) (by decide) (0x02#8 ++ 0#16) b rfl

theorem crcBuf (sel : BufSel) (n : BitVec 9) : Statement (.crcBuf sel n) := by
  refine ⟨?_, ?_⟩
  · refine (BitVec.extractLsb'_append_eq_of_le (xhi := 0x03#8 ++ 0#7 ++ sel.bit ++ 0#7) (xlo := n)
      (by decide)).trans ?_
    cases sel <;> rfl
  · exact masked_by (mask := ~~~(legalMask .crcBuf)) (x' := 0x007F7F#23) (by decide) (0x03#8 ++ 0#7 ++ sel.bit ++ 0#7) n (by cases sel <;> rfl)

theorem encRaw (n addr fc : Byte) : Statement (.encRaw n addr fc) := by
  refine ⟨?_, by simp [opcode, legalMask]⟩
  refine (BitVec.extractLsb'_append_eq_of_le (xhi := 0x10#8 ++ n ++ addr) (xlo := fc) (by decide)).trans ?_
  refine (BitVec.extractLsb'_append_eq_of_le (xhi := 0x10#8 ++ n) (xlo := addr) (by decide)).trans ?_
  exact (BitVec.extractLsb'_append_eq_of_le (xhi := 0x10#8) (xlo := n) (by decide)).trans rfl

theorem encWords (addr fc : Byte) : Statement (.encWords addr fc) := by
  refine ⟨?_, ?_⟩
  · refine (BitVec.extractLsb'_append_eq_of_le (xhi := 0x11#8 ++ 0#8 ++ addr) (xlo := fc)
      (by decide)).trans ?_
    exact (BitVec.extractLsb'_append_eq_of_le (xhi := 0x11#8 ++ 0#8) (xlo := addr) (by decide)).trans rfl
  · exact masked_by (mask := ~~~(legalMask .encWords)) (x' := 0x00FF00#24) (by decide) (0x11#8 ++ 0#8 ++ addr) fc
      (masked_eq_zero (0x11#8 ++ 0#8) 0x00FF#16 addr rfl)

theorem decodeBuf : Statement .decodeBuf := ⟨rfl, rfl⟩

theorem openLine (baud : BitVec 3) (parity : BitVec 2) : Statement (.openLine baud parity) := by
  revert baud parity
  unfold Statement
  decide

theorem closeLine : Statement .closeLine := ⟨rfl, rfl⟩

theorem xfer (expect : Bool) : Statement (.xfer expect) := by
  cases expect <;> exact ⟨rfl, rfl⟩

end Sys2Proof.Laws.LegalWord
end

