-- ==== Sys2Proof/Laws/Receive.lean ====
section
/-! SUPPORT. What consuming the waiting bytes leaves in RXBUF, RXLEN, the FIFO, the phase and the report:
one lemma for the whole of `rxConsume` (43_transport.md R155 to R159, R162 to R165). -/

namespace Sys2Proof.Machine

open Sys2Proof.Safety

/-- From `s` to `t` the first `m` bytes of `all`, the bytes received and those waiting, have moved into
RXBUF in order; the others still wait (R156, R158, R159). -/
structure Moved (all : List Byte) (m : Nat) (s t : State) : Prop where
  len : t.rxlen.toNat = m
  rest : t.fifo = all.drop m
  holds : Holds t.rxbuf 0 (all.take m)
  keeps : ∀ i, m ≤ i → t.rxbuf.get i = s.rxbuf.get i

/-- A loop of receptions: bytes moved, and nothing else changed. -/
structure Taken (all : List Byte) (m : Nat) (s t : State) : Prop where
  moved : Moved all m s t
  shape : t = { s with fifo := t.fifo, rxbuf := t.rxbuf, rxlen := t.rxlen }

theorem Taken.refl {s : State} {r : List Byte} (hr : r.length = s.rxlen.toNat)
    (hh : Holds s.rxbuf 0 r) : Taken (r ++ s.fifo) s.rxlen.toNat s s := by
  refine ⟨⟨rfl, ?_, ?_, fun _ _ => rfl⟩, rfl⟩
  · rw [← hr, List.drop_left]
  · rw [← hr, List.take_left]
    exact hh

theorem holds_receive {s : State} {r : List Byte} {b : Byte} {rest : List Byte}
    (hr : r.length = s.rxlen.toNat) (hh : Holds s.rxbuf 0 r) :
    Holds (s.receive b rest).rxbuf 0 (r ++ [b]) := by
  intro i hi
  simp only [List.length_append, List.length_singleton] at hi
  simp only [State.receive_rxbuf, Nat.zero_add]
  by_cases h : i = s.rxlen.toNat
  · subst h
    rw [Mem.get_write, if_pos rfl, ← hr, List.getElem?_append_right (Nat.le_refl _)]
    simp
  · rw [Mem.get_write_other _ _ h, List.getElem?_append_left (by omega)]
    have := hh i (by omega)
    simpa using this

theorem length_receive {s : State} {r : List Byte} {b : Byte} {rest : List Byte}
    (hr : r.length = s.rxlen.toNat) (hl : s.rxlen.toNat < 260) :
    (r ++ [b]).length = (s.receive b rest).rxlen.toNat := by
  simp only [State.receive_rxlen, rxlen_succ hl]
  simp [hr]

/-- One byte received first, then the rest. -/
theorem Taken.receive {s t : State} {r : List Byte} {b : Byte} {rest : List Byte} {m : Nat}
    (d : Taken (r ++ [b] ++ rest) m (s.receive b rest) t) (hm : s.rxlen.toNat < m) :
    Taken (r ++ b :: rest) m s t := by
  rw [List.append_assoc, List.singleton_append] at d
  refine ⟨⟨d.moved.len, d.moved.rest, d.moved.holds, fun i hi => ?_⟩, d.shape.trans rfl⟩
  rw [d.moved.keeps i hi]
  simpa using Mem.get_write_other s.rxbuf b (show i ≠ s.rxlen.toNat by omega)

/-- HDR and BODY move bytes up to their limit (R156, R158). -/
theorem drainTo_taken {limit : Nat} (hlim : limit ≤ 260) : ∀ (q : List Byte) (s : State)
    (r : List Byte), s.fifo = q → r.length = s.rxlen.toNat → Holds s.rxbuf 0 r → r.length ≤ limit →
    Taken (r ++ q) (min limit (r ++ q).length) s (drainTo limit q s) := by
  intro q
  induction q with
  | nil =>
    intro s r hq hr hh hl
    have d := Taken.refl hr hh
    rw [hq, ← hr] at d
    simpa [drainTo, Nat.min_eq_right hl] using d
  | cons b rest ih =>
    intro s r hq hr hh hl
    simp only [drainTo]
    split
    · rename_i hlt
      have d := ih (s.receive b rest) (r ++ [b]) rfl (length_receive hr (by omega))
        (holds_receive hr hh) (by simp; omega)
      have e : r ++ [b] ++ rest = r ++ b :: rest := by simp
      refine Taken.receive (by rw [e] at d ⊢; exact d) ?_
      simp
      omega
    · have d := Taken.refl hr hh
      have hm : min limit (r ++ b :: rest).length = s.rxlen.toNat := by
        simp
        omega
      rw [hq] at d
      rw [hm]
      exact d

/-- SILENCE moves bytes up to RX_CAP and restarts, or ends with a byte too many (R159, R164). -/
theorem drainSilence_taken : ∀ (q : List Byte) (s : State) (r : List Byte),
    s.fifo = q → r.length = s.rxlen.toNat → Holds s.rxbuf 0 r → r.length ≤ 260 →
    ∃ t, Taken (r ++ q) (min 260 (r ++ q).length) s t ∧
      drainSilence q s =
        if (r ++ q).length ≤ 260 then { t with deadline := s.now + tSil s.cfg s.baud }
        else t.finish .frameTooLong := by
  intro q
  induction q with
  | nil =>
    intro s r hq hr hh hl
    have d := Taken.refl hr hh
    rw [hq, ← hr] at d
    refine ⟨s, by simpa [Nat.min_eq_right hl] using d, ?_⟩
    rw [if_pos (by simpa using hl)]
    rfl
  | cons b rest ih =>
    intro s r hq hr hh hl
    by_cases he : s.rxlen.toNat = 260
    · rw [drainSilence_full he]
      have hm : min 260 (r ++ b :: rest).length = s.rxlen.toNat := by
        simp
        omega
      have d := Taken.refl hr hh
      rw [hq] at d
      refine ⟨s, by rw [hm]; exact d, ?_⟩
      rw [if_neg (by simp; omega)]
    · rw [drainSilence_more he]
      obtain ⟨t, d, eq⟩ := ih (s.receive b rest) (r ++ [b]) rfl (length_receive hr (by omega))
        (holds_receive hr hh) (by simp; omega)
      have e : r ++ [b] ++ rest = r ++ b :: rest := by simp
      rw [e] at eq
      refine ⟨t, Taken.receive (by rw [e] at d ⊢; exact d) (by simp; omega), ?_⟩
      rw [eq]
      rfl

/-- Decoding what a state has received, its bytes named (R162). -/
theorem decodeReceived_holds {s : State} {r : List Byte} (hr : r.length = s.rxlen.toNat)
    (hh : Holds s.rxbuf 0 r) :
    decodeReceived s =
      .next ((s.setResp (decodeFrame s.cfg r)).finish (decodeFrame s.cfg r).code) := by
  refine decodeReceived_eq_next.mpr ⟨r, ?_, rfl⟩
  rw [← hr]
  exact Mem.span_eq_some hh

/-- A completion after `decode` reports its verdict (R203). -/
theorem reports_setResp_finish (s : State) (v : Verdict) : Reports ((s.setResp v).finish v.code) v := by
  refine ⟨rfl, rfl, ?_, rfl, rfl, rfl, rfl, rfl, rfl⟩
  simp only [State.finish_err]
  cases v.code <;> rfl

/-- RESP0 and RESP1 are 0, as throughout an exchange (R225). -/
def NoResult (s : State) : Prop :=
  s.respAddr = 0 ∧ s.respFc = 0 ∧ s.respBc = 0 ∧ s.crcRx = 0 ∧ s.crcCalc = 0

/-- The deadline of the wait that stands after consumption: the old one, unless the phase is new or a
byte restarted the silence (R155, R157, R159). -/
def standingDeadline (s : State) (all : List Byte) : Nat :=
  if receptionPhase all = s.phase ∧ (s.fifo = [] ∨ receptionPhase all ≠ .silence) then s.deadline
  else s.now + waitTicks s.cfg s.baud (receptionPhase all)

/-- What consumption makes of the bytes `all`, received and waiting: those up to the limit have moved; the
exchange is over with its report, or the wait stands with this deadline. -/
structure Consumed (all : List Byte) (deadline : Nat) (s t : State) : Prop where
  shape : t =
    { s with
      fifo := t.fifo, rxbuf := t.rxbuf, rxlen := t.rxlen, phase := t.phase, deadline := t.deadline,
      need := t.need, done := t.done, err := t.err, errcode := t.errcode, respAddr := t.respAddr,
      respFc := t.respFc, respBc := t.respBc, crcRx := t.crcRx, crcCalc := t.crcCalc }
  moved : Moved all (min (receiveLimit all) all.length) s t
  known : receptionPhase all = .idle → KnownFc (all.getD 1 0) →
    Reports t (decodeFrame s.cfg (all.take (min (receiveLimit all) all.length)))
  unknown : receptionPhase all = .idle → ¬ KnownFc (all.getD 1 0) →
    Reports t (undecoded .frameTooLong)
  stands : receptionPhase all ≠ .idle →
    t.phase = receptionPhase all ∧ t.deadline = deadline ∧ t.done = s.done ∧
      (receptionPhase all = .body → t.need = receiveLimit all) ∧ NoResult t

/-- Consumption after a first part that only moved bytes and entered a new wait. -/
theorem Consumed.after {all : List Byte} {d d' m : Nat} {s u t : State} (o : Consumed all d u t)
    (hs : u =
      { s with
        fifo := u.fifo, rxbuf := u.rxbuf, rxlen := u.rxlen, phase := u.phase, deadline := u.deadline,
        need := u.need })
    (hm : Moved all m s u) (hle : m ≤ min (receiveLimit all) all.length)
    (hd : receptionPhase all ≠ .idle → d = d') : Consumed all d' s t := by
  have hcfg : u.cfg = s.cfg := by rw [hs]
  refine ⟨?_, ⟨o.moved.len, o.moved.rest, o.moved.holds, fun i hi => ?_⟩, ?_, o.unknown, fun h => ?_⟩
  · have e := o.shape
    rw [hs] at e
    exact e
  · rw [o.moved.keeps i hi, hm.keeps i (by omega)]
  · rw [← hcfg]
    exact o.known
  · obtain ⟨a, b, c, e⟩ := o.stands h
    exact ⟨a, b.trans (hd h), c.trans (by rw [hs]), e⟩

theorem rxLoop_idle (fuel : Nat) {s : State} (h : s.phase = .idle) : rxLoop fuel s = .next s := by
  cases fuel with
  | zero => rfl
  | succ fuel =>
    unfold rxLoop phaseStep
    simp [h]

/-- Exactly the known function codes declare a length (R121). -/
theorem declaredLen_known {fc bc : Byte} : (∃ n, declaredLen fc bc = some n) ↔ KnownFc fc := by
  unfold declaredLen
  by_cases h1 : fc = 0x03#8 ∨ fc = 0x04#8
  · rw [if_pos h1]
    exact ⟨fun _ => h1.elim Or.inl fun h => Or.inr (Or.inl h), fun _ => ⟨_, rfl⟩⟩
  · rw [if_neg h1]
    by_cases h2 : fc = 0x06#8
    · rw [if_pos h2]
      exact ⟨fun _ => Or.inr (Or.inr h2), fun _ => ⟨_, rfl⟩⟩
    · rw [if_neg h2]
      refine ⟨(fun ⟨_, h⟩ => by cases h), ?_⟩
      rintro (h | h | h)
      · exact absurd (Or.inl h) h1
      · exact absurd (Or.inr h) h1
      · exact absurd h h2

theorem getD_append_front {r q : List Byte} {i : Nat} (h : i < r.length) :
    (r ++ q).getD i 0 = r.getD i 0 := by
  simp [List.getD_eq_getElem?_getD, List.getElem?_append_left h]

/-- Limit and phase once the header is complete, by the length it declares. -/
theorem receiveLimit_header {all : List Byte} (h : 3 ≤ all.length) :
    receiveLimit all = (declaredLen (all.getD 1 0) (all.getD 2 0)).getD rxCap := by
  unfold receiveLimit
  rw [if_neg (by omega)]

theorem receptionPhase_known {all : List Byte} {n : Nat} (h : 3 ≤ all.length)
    (hd : declaredLen (all.getD 1 0) (all.getD 2 0) = some n) :
    receptionPhase all = if all.length < n then .body else .idle := by
  unfold receptionPhase
  rw [if_neg (by omega), if_neg (by omega), hd]

theorem receptionPhase_unknown {all : List Byte} (h : 3 ≤ all.length)
    (hd : declaredLen (all.getD 1 0) (all.getD 2 0) = none) :
    receptionPhase all = if all.length ≤ 260 then .silence else .idle := by
  unfold receptionPhase
  rw [if_neg (by omega), if_neg (by omega), hd]
  rfl

/-- Consumption from BODY (R158, R162). -/
theorem rxLoop_body {s : State} {r : List Byte} (fuel : Nat) (hp : s.phase = .body)
    (hr : r.length = s.rxlen.toNat) (hh : Holds s.rxbuf 0 r) (h3 : 3 ≤ r.length)
    (hd : declaredLen (r.getD 1 0) (r.getD 2 0) = some s.need) (hl : r.length < s.need)
    (hz : NoResult s) :
    ∃ t, rxLoop (fuel + 1) s = .next t ∧ Consumed (r ++ s.fifo) s.deadline s t := by
  have hb := declaredLen_bounds hd
  have d := drainTo_taken hb.2 s.fifo s r rfl hr hh (by omega)
  rw [← getD_append_front (q := s.fifo) (show 1 < r.length by omega),
    ← getD_append_front (q := s.fifo) (show 2 < r.length by omega)] at hd
  have hlen : 3 ≤ (r ++ s.fifo).length := by
    simp
    omega
  generalize r ++ s.fifo = all at *
  have hlim : receiveLimit all = s.need := by rw [receiveLimit_header hlen, hd]; rfl
  have hph := receptionPhase_known hlen hd
  have hdef : phaseStep s = bodyStep s := by unfold phaseStep; rw [hp]
  generalize hg : drainTo s.need s.fifo s = t at d
  have hcfg : t.cfg = s.cfg := by rw [d.shape]
  have hneed : t.need = s.need := by rw [d.shape]
  have hpt : t.phase = .body := by rw [d.shape]; exact hp
  by_cases hc : all.length < s.need
  · rw [if_pos hc] at hph
    have hs : bodyStep s = .next t := by
      unfold bodyStep
      simp only [hg]
      rw [if_neg]
      have := d.moved.len
      omega
    refine ⟨t, ?_, ⟨by rw [d.shape], by rw [hlim]; exact d.moved, ?_, ?_, fun _ => ?_⟩⟩
    · unfold rxLoop
      rw [hdef, hs, andThen_of_next, if_pos (hpt.trans hp.symm)]
    · intro h
      rw [hph] at h
      cases h
    · intro h
      rw [hph] at h
      cases h
    · refine ⟨hpt.trans hph.symm, by rw [d.shape], by rw [d.shape], fun _ => by rw [hlim, hneed], ?_⟩
      rw [d.shape]
      exact hz
  · rw [if_neg hc] at hph
    have hm : min s.need all.length = s.need := by omega
    rw [hm] at d
    have hdr := decodeReceived_holds (s := t) (r := all.take s.need)
      (by rw [d.moved.len, List.length_take]; omega) d.moved.holds
    have hs : bodyStep s = decodeReceived t := by
      unfold bodyStep
      simp only [hg]
      rw [if_pos (by rw [d.moved.len, hneed])]
    rw [hcfg] at hdr
    refine ⟨(t.setResp (decodeFrame s.cfg (all.take s.need))).finish
        (decodeFrame s.cfg (all.take s.need)).code, ?_, ⟨?_, ?_, ?_, ?_, ?_⟩⟩
    · unfold rxLoop
      rw [hdef, hs, hdr, andThen_of_next, if_neg (by simp [hp]), rxLoop_idle _ rfl]
    · have e := d.shape
      generalize t.fifo = a at e ⊢
      generalize t.rxbuf = b at e ⊢
      generalize t.rxlen = c at e ⊢
      rw [e]
      rfl
    · rw [hlim, hm]
      exact ⟨d.moved.len, d.moved.rest, d.moved.holds, d.moved.keeps⟩
    · intro _ _
      rw [hlim, hm]
      exact reports_setResp_finish _ _
    · intro _ h
      exact absurd (declaredLen_known.mp ⟨_, hd⟩) h
    · intro h
      exact absurd hph h

/-- Consumption from SILENCE (R159, R164). -/
theorem rxLoop_silence {s : State} {r : List Byte} (fuel : Nat) (hp : s.phase = .silence)
    (hr : r.length = s.rxlen.toNat) (hh : Holds s.rxbuf 0 r) (h3 : 3 ≤ r.length)
    (hd : declaredLen (r.getD 1 0) (r.getD 2 0) = none) (hl : r.length ≤ 260) (hz : NoResult s) :
    ∃ t, rxLoop (fuel + 1) s = .next t ∧
      Consumed (r ++ s.fifo) (if s.fifo = [] then s.deadline else s.now + tSil s.cfg s.baud) s t := by
  have hdef : phaseStep s = .next (silenceStep s) := by unfold phaseStep; rw [hp]
  obtain ⟨t, d, e⟩ := drainSilence_taken s.fifo s r rfl hr hh hl
  have hall : s.fifo = [] → (r ++ s.fifo).length ≤ 260 := fun h => by rw [h]; simpa using hl
  rw [← getD_append_front (q := s.fifo) (show 1 < r.length by omega),
    ← getD_append_front (q := s.fifo) (show 2 < r.length by omega)] at hd
  have hlen : 3 ≤ (r ++ s.fifo).length := by
    simp
    omega
  have hrefl := Taken.refl hr hh
  have hmin : s.fifo = [] → min 260 (r ++ s.fifo).length = s.rxlen.toNat := fun h => by
    rw [h, List.append_nil]
    omega
  generalize r ++ s.fifo = all at *
  have hlim : receiveLimit all = 260 := by rw [receiveLimit_header hlen, hd]; rfl
  have hph := receptionPhase_unknown hlen hd
  have hk : ¬ KnownFc (all.getD 1 0) := by
    intro h
    obtain ⟨n, h⟩ := declaredLen_known (bc := all.getD 2 0).mpr h
    rw [hd] at h
    cases h
  have hpt : t.phase = .silence := by rw [d.shape]; exact hp
  by_cases hf : s.fifo = []
  · have hs : silenceStep s = s := by unfold silenceStep; rw [hf]
    rw [if_pos (hall hf)] at hph
    refine ⟨s, ?_, ⟨rfl, by rw [hlim, hmin hf]; exact hrefl.moved, ?_, ?_, fun _ => ?_⟩⟩
    · unfold rxLoop
      rw [hdef, hs, andThen_of_next, if_pos rfl]
    · intro h
      rw [hph] at h
      cases h
    · intro h
      rw [hph] at h
      cases h
    · exact ⟨hp.trans hph.symm, by rw [if_pos hf], rfl, (fun h => by rw [hph] at h; cases h), hz⟩
  · have hs : silenceStep s = drainSilence s.fifo s := by
      unfold silenceStep
      cases h : s.fifo with
      | nil => exact absurd h hf
      | cons b rest => rfl
    rw [hs, e] at hdef
    by_cases hc : all.length ≤ 260
    · rw [if_pos hc] at hph hdef
      refine ⟨{ t with deadline := s.now + tSil s.cfg s.baud }, ?_, ⟨?_, ?_, ?_, ?_, fun _ => ?_⟩⟩
      · unfold rxLoop
        rw [hdef, andThen_of_next, if_pos (by simp [hpt, hp])]
      · have e := d.shape
        generalize t.fifo = a at e ⊢
        generalize t.rxbuf = b at e ⊢
        generalize t.rxlen = c at e ⊢
        rw [e]
      · rw [hlim]
        exact ⟨d.moved.len, d.moved.rest, d.moved.holds, d.moved.keeps⟩
      · intro h
        rw [hph] at h
        cases h
      · intro h
        rw [hph] at h
        cases h
      · refine ⟨hpt.trans hph.symm, by simp [hf], ?_, (fun h => by rw [hph] at h; cases h), ?_⟩
        · change t.done = s.done
          rw [d.shape]
        · change NoResult t
          rw [d.shape]
          exact hz
    · rw [if_neg hc] at hph hdef
      refine ⟨t.finish .frameTooLong, ?_, ⟨?_, ?_, ?_, ?_, ?_⟩⟩
      · unfold rxLoop
        rw [hdef, andThen_of_next, if_neg (by simp [hp]), rxLoop_idle _ rfl]
      · have e := d.shape
        generalize t.fifo = a at e ⊢
        generalize t.rxbuf = b at e ⊢
        generalize t.rxlen = c at e ⊢
        rw [e]
        rfl
      · rw [hlim]
        exact ⟨d.moved.len, d.moved.rest, d.moved.holds, d.moved.keeps⟩
      · intro _ h
        exact absurd h hk
      · intro _ _
        obtain ⟨h1, h2, h3, h4, h5⟩ : NoResult t := by
          rw [d.shape]
          exact hz
        exact ⟨rfl, rfl, rfl, rfl, h1, h2, h3, h4, h5⟩
      · intro h
        exact absurd hph h

/-- Consumption from HDR (R156, R157), through the phase its dispatch selects. -/
theorem rxLoop_hdr {s : State} {r : List Byte} (fuel : Nat) (hp : s.phase = .hdr)
    (hr : r.length = s.rxlen.toNat) (hh : Holds s.rxbuf 0 r) (h1 : 1 ≤ r.length) (h3 : r.length < 3)
    (hz : NoResult s) :
    ∃ t, rxLoop (fuel + 2) s = .next t ∧
      Consumed (r ++ s.fifo) (standingDeadline s (r ++ s.fifo)) s t := by
  have d := drainTo_taken (limit := 3) (by omega) s.fifo s r rfl hr hh (by omega)
  have hdef : phaseStep s = hdrStep s := by unfold phaseStep; rw [hp]
  generalize hg : drainTo 3 s.fifo s = t at d
  generalize hall : r ++ s.fifo = all at d
  have hal : 1 ≤ all.length := by
    rw [← hall]
    simp
    omega
  have hpt : t.phase = .hdr := by rw [d.shape]; exact hp
  have hcfg : t.cfg = s.cfg := by rw [d.shape]
  have hbaud : t.baud = s.baud := by rw [d.shape]
  have hnow : t.now = s.now := by rw [d.shape]
  have hzt : NoResult t := by rw [d.shape]; exact hz
  by_cases hc : all.length < 3
  · rw [show min 3 all.length = all.length by omega] at d
    have hs : hdrStep s = .next t := by
      unfold hdrStep
      simp only [hg]
      rw [if_neg]
      intro h
      have := d.moved.len
      rw [h] at this
      simp at this
      omega
    have hlim : receiveLimit all = 3 := by unfold receiveLimit; rw [if_pos hc]
    have hph : receptionPhase all = .hdr := by
      unfold receptionPhase
      rw [if_neg (by omega), if_pos hc]
    refine ⟨t, ?_, ⟨by rw [d.shape], ?_, ?_, ?_, fun _ => ?_⟩⟩
    · unfold rxLoop
      rw [hdef, hs, andThen_of_next, if_pos (hpt.trans hp.symm)]
    · rw [hlim, show min 3 all.length = all.length by omega]
      exact d.moved
    · intro h
      rw [hph] at h
      cases h
    · intro h
      rw [hph] at h
      cases h
    · refine ⟨hpt.trans hph.symm, ?_, by rw [d.shape], (fun h => by rw [hph] at h; cases h), hzt⟩
      unfold standingDeadline
      rw [hph, if_pos ⟨hp.symm, Or.inr (by simp)⟩, d.shape]
  · rw [show min 3 all.length = 3 by omega] at d
    have ht3 : (all.take 3).length = 3 := by rw [List.length_take]; omega
    have gt : ∀ i, i < 3 → (all.take 3).getD i 0 = all.getD i 0 := by
      intro i hi
      rw [List.getD_eq_getElem?_getD, List.getElem?_take_of_lt hi, List.getD_eq_getElem?_getD]
    have gi : ∀ i, i < 3 → t.rxbuf.get i = some (all.getD i 0) := by
      intro i hi
      have := d.moved.holds i (by omega)
      rw [Nat.zero_add] at this
      rw [this, List.getElem?_take_of_lt hi, List.getElem?_eq_getElem (by omega),
        List.getD_eq_getElem _ _ (by omega)]
    have hs : hdrStep s = .next (dispatch (all.getD 1 0) (all.getD 2 0) t) := by
      unfold hdrStep
      simp only [hg]
      rw [if_pos (BitVec.eq_of_toNat_eq d.moved.len), gi 1 (by omega), gi 2 (by omega)]
    have enter : ∀ (u v : State) (n : Nat) (p : Phase) (w : Nat),
        dispatch (all.getD 1 0) (all.getD 2 0) t = u → u = ({ t with need := n }).await p w → p ≠ .hdr →
        rxLoop (fuel + 1) u = .next v → 3 ≤ min (receiveLimit all) all.length → ∀ dl, Consumed all dl u v →
        (receptionPhase all ≠ .idle → dl = standingDeadline s all) →
        ∃ t, rxLoop (fuel + 2) s = .next t ∧ Consumed all (standingDeadline s all) s t := by
      intro u v n p w hu he hp' hv h3' dl o hdl
      refine ⟨v, ?_, o.after (m := 3) ?_ ?_ h3' hdl⟩
      · unfold rxLoop
        rw [hdef, hs, hu, andThen_of_next, if_neg (by rw [he, hp]; simpa using hp')]
        exact hv
      · have e := d.shape
        rw [he]
        simp only [State.await]
        generalize t.fifo = a at e ⊢
        generalize t.rxbuf = b at e ⊢
        generalize t.rxlen = c at e ⊢
        rw [e]
      · rw [he]
        exact ⟨d.moved.len, d.moved.rest, d.moved.holds, d.moved.keeps⟩
    cases hdl : declaredLen (all.getD 1 0) (all.getD 2 0) with
    | some k =>
      have hk := declaredLen_bounds hdl
      generalize hu : ({ t with need := k } : State).await .body (tRead t.cfg t.baud) = u
      have hf : u.fifo = all.drop 3 := by rw [← hu]; exact d.moved.rest
      obtain ⟨v, hv, o⟩ := rxLoop_body (s := u) (r := all.take 3) fuel (by rw [← hu]; rfl)
        (by rw [← hu, ht3]; exact d.moved.len.symm) (by rw [← hu]; exact d.moved.holds) (by omega)
        (by rw [gt 1 (by omega), gt 2 (by omega), hdl, ← hu]; rfl)
        (by rw [ht3, ← hu]; change 3 < k; omega) (by rw [← hu]; exact hzt)
      rw [hf, List.take_append_drop] at o
      refine enter u v k _ _ (by unfold dispatch; rw [hdl]; exact hu) hu.symm (by simp) hv ?_ _ o ?_
      · rw [receiveLimit_header (by omega), hdl, Option.getD_some]
        omega
      · intro hne
        have hph := receptionPhase_known (by omega) hdl
        split at hph
        · unfold standingDeadline
          rw [hph, if_neg (by simp [hp]), ← hu]
          simp [waitTicks, hcfg, hbaud, hnow]
        · exact absurd hph hne
    | none =>
      generalize hu : ({ t with need := t.need } : State).await .silence (tSil t.cfg t.baud) = u
      have hf : u.fifo = all.drop 3 := by rw [← hu]; exact d.moved.rest
      obtain ⟨v, hv, o⟩ := rxLoop_silence (s := u) (r := all.take 3) fuel (by rw [← hu]; rfl)
        (by rw [← hu, ht3]; exact d.moved.len.symm) (by rw [← hu]; exact d.moved.holds) (by omega)
        (by rw [gt 1 (by omega), gt 2 (by omega), hdl]) (by omega) (by rw [← hu]; exact hzt)
      rw [hf, List.take_append_drop] at o
      refine enter u v t.need _ _ (by unfold dispatch; rw [hdl]; exact hu) hu.symm (by simp) hv ?_ _ o ?_
      · rw [receiveLimit_header (by omega), hdl, Option.getD_none, rxCap_eq]
        omega
      · intro hne
        have hph := receptionPhase_unknown (by omega) hdl
        split at hph
        · have hd : standingDeadline s all = s.now + tSil s.cfg s.baud := by
            unfold standingDeadline
            rw [hph, if_neg (by simp [hp])]
            rfl
          rw [hd, ← hu]
          simp [hcfg, hbaud, hnow]
        · exact absurd hph hne

theorem receptionPhase_ne_waitFirst {b : Byte} {rest : List Byte} :
    receptionPhase (b :: rest) ≠ .waitFirst := by
  unfold receptionPhase
  rw [if_neg (by simp)]
  split
  · simp
  · split <;> split <;> simp

theorem one_le_receiveLimit (all : List Byte) : 1 ≤ receiveLimit all := by
  unfold receiveLimit
  split
  · omega
  · cases h : declaredLen (all.getD 1 0) (all.getD 2 0) with
    | some k =>
      have := declaredLen_bounds h
      simp
      omega
    | none => simp [rxCap]

/-- Consumption from WAIT_FIRST (R155), through the header read. -/
theorem rxLoop_waitFirst {s : State} (fuel : Nat) (hp : s.phase = .waitFirst) (hl : s.rxlen = 0)
    (hz : NoResult s) :
    ∃ t, rxLoop (fuel + 3) s = .next t ∧ Consumed s.fifo (standingDeadline s s.fifo) s t := by
  have hdef : phaseStep s = .next (waitFirstStep s) := by unfold phaseStep; rw [hp]
  cases hf : s.fifo with
  | nil =>
    have hs : waitFirstStep s = s := by unfold waitFirstStep; rw [hf]
    refine ⟨s, ?_, ⟨rfl, ⟨by rw [hl]; rfl, by rw [hf]; rfl, ?_, fun _ _ => rfl⟩, ?_, ?_, ?_⟩⟩
    · unfold rxLoop
      rw [hdef, hs, andThen_of_next, if_pos rfl]
    · intro i hi
      simp at hi
    · intro h
      cases h
    · intro h
      cases h
    · intro _
      refine ⟨hp, ?_, rfl, (fun h => by cases h), hz⟩
      unfold standingDeadline
      rw [if_pos ⟨hp.symm, Or.inl hf⟩]
  | cons b rest =>
    generalize hu : ({ s with fifo := rest, rxbuf := s.rxbuf.write 0 b, rxlen := 1 } : State).await .hdr
      (tRead s.cfg s.baud) = u
    have hs : waitFirstStep s = u := by
      unfold waitFirstStep
      rw [hf]
      exact hu
    have hh : Holds u.rxbuf 0 [b] := by
      intro i hi
      have : i = 0 := by simpa using hi
      subst this
      rw [← hu]
      simp
    have hfu : u.fifo = rest := by rw [← hu]; rfl
    obtain ⟨t, ht, o⟩ := rxLoop_hdr (s := u) (r := [b]) fuel (by rw [← hu]; rfl) (by rw [← hu]; rfl) hh
      (by simp) (by simp) (by rw [← hu]; exact hz)
    rw [hfu, List.singleton_append] at o
    refine ⟨t, ?_, o.after (m := 1) ?_ ⟨?_, hfu, hh, fun i hi => ?_⟩ ?_ fun hne => ?_⟩
    · unfold rxLoop
      rw [hdef, hs, andThen_of_next, if_neg (by rw [← hu]; simp [hp])]
      exact ht
    · rw [← hu]
      rfl
    · rw [← hu]
      rfl
    · rw [← hu]
      exact Mem.get_write_other s.rxbuf b (by omega)
    · have := one_le_receiveLimit (b :: rest)
      simp
      omega
    · have e : u.phase = .hdr ∧ u.deadline = s.now + tRead s.cfg s.baud ∧ u.now = s.now ∧
          u.cfg = s.cfg ∧ u.baud = s.baud := by
        rw [← hu]
        exact ⟨rfl, rfl, rfl, rfl, rfl⟩
      simp only [standingDeadline, e, hp]
      rw [if_neg (c := receptionPhase (b :: rest) = .waitFirst ∧ _) fun h =>
        receptionPhase_ne_waitFirst h.1]
      split
      · rename_i h
        rw [h.1]
        rfl
      · rfl

/-- A receiving phase is busy, does not drive the line, and its Tick consumes and checks the deadline
(R150). -/
theorem receiving_facts {s : State} (hr : Receiving s.phase = true) :
    s.busy = true ∧ (s.phase == Phase.tx) = false ∧
      ∀ u : State, u.phase = s.phase → engine u = andThen (rxConsume u) deadlineCheck := by
  unfold State.busy engine
  cases hp : s.phase <;> rw [hp] at hr <;>
    first | exact Bool.noConfusion hr | exact ⟨rfl, rfl, fun u h => by rw [h]⟩

/-- While the wait stands every byte has moved. -/
theorem moved_all {all : List Byte} (h : receptionPhase all ≠ .idle) :
    min (receiveLimit all) all.length = all.length := by
  unfold receptionPhase at h
  unfold receiveLimit
  by_cases h0 : all.length < 3
  · rw [if_pos h0]
    omega
  · rw [if_neg (by omega), if_neg h0] at h
    rw [if_neg h0]
    split at h
    · rename_i hd
      rw [hd, Option.getD_some]
      split at h
      · omega
      · exact absurd rfl h
    · rename_i hd
      rw [hd, Option.getD_none]
      split at h
      · omega
      · exact absurd rfl h

/-- What `rxConsume` does with the bytes received and waiting, from every receiving phase (R165). -/
theorem rxConsume_consumed {s : State} {r : List Byte} (h : Mid s) (hr : Receiving s.phase = true)
    (hl : r.length = s.rxlen.toNat) (hh : Holds s.rxbuf 0 r) :
    ∃ t, rxConsume s = .next t ∧ Consumed (r ++ s.fifo) (standingDeadline s (r ++ s.fifo)) s t := by
  have hz : NoResult s := (h.steady.busy (receiving_facts hr).1).2.2
  have hd : ∀ i, i < r.length → r.getD i 0 = (s.rxbuf.get i).getD 0 := by
    intro i hi
    have := hh i hi
    rw [Nat.zero_add] at this
    rw [this, List.getD_eq_getElem?_getD]
  have relabel : ∀ {t : State} {d d' : Nat}, (receptionPhase (r ++ s.fifo) ≠ .idle → d = d') →
      Consumed (r ++ s.fifo) d s t → Consumed (r ++ s.fifo) d' s t := fun hd o =>
    ⟨o.shape, o.moved, o.known, o.unknown, fun hx =>
      have st := o.stands hx
      ⟨st.1, st.2.1.trans (hd hx), st.2.2⟩⟩
  unfold rxConsume
  cases hp : s.phase with
  | idle => rw [hp] at hr; cases hr
  | tx => rw [hp] at hr; cases hr
  | waitFirst =>
    have hw := (h.waiting hp).1
    have : r = [] := by
      rw [hw] at hl
      exact List.length_eq_zero_iff.mp hl
    subst this
    exact rxLoop_waitFirst 1 hp hw hz
  | hdr =>
    obtain ⟨a, b, _⟩ := h.inHeader hp
    exact rxLoop_hdr 2 hp hl hh (by omega) (by omega) hz
  | body =>
    obtain ⟨a, b, _, c, _⟩ := h.inBody hp
    have hc : declaredLen (r.getD 1 0) (r.getD 2 0) = some s.need := by
      rw [hd 1 (by omega), hd 2 (by omega)]
      exact c
    obtain ⟨t, ht, o⟩ := rxLoop_body (r := r) 3 hp hl hh (by omega) hc (by omega) hz
    refine ⟨t, ht, relabel (fun hx => ?_) o⟩
    rw [← getD_append_front (q := s.fifo) (show 1 < r.length by omega),
      ← getD_append_front (q := s.fifo) (show 2 < r.length by omega)] at hc
    have hph := receptionPhase_known (by simp; omega) hc
    split at hph
    · unfold standingDeadline
      rw [hph, if_pos ⟨hp.symm, Or.inr (by simp)⟩]
    · exact absurd hph hx
  | silence =>
    obtain ⟨a, b, c, _⟩ := h.inSilence hp
    rw [rxCap_eq] at b
    have hc : declaredLen (r.getD 1 0) (r.getD 2 0) = none := by
      rw [hd 1 (by omega), hd 2 (by omega)]
      exact c
    obtain ⟨t, ht, o⟩ := rxLoop_silence (r := r) 3 hp hl hh (by omega) hc (by omega) hz
    refine ⟨t, ht, relabel (fun hx => ?_) o⟩
    rw [← getD_append_front (q := s.fifo) (show 1 < r.length by omega),
      ← getD_append_front (q := s.fifo) (show 2 < r.length by omega)] at hc
    have hph := receptionPhase_unknown (by simp; omega) hc
    split at hph
    · unfold standingDeadline
      rw [hph]
      by_cases hq : s.fifo = []
      · rw [if_pos hq, if_pos ⟨hp.symm, Or.inl hq⟩]
      · rw [if_neg hq, if_neg (by simp [hq])]
        rfl
    · exact absurd hph hx

end Sys2Proof.Machine
end

