-- ==== Sys2Proof/Tests/Slice0.lean ====
section
/-! SUPPORT. The model's own tests: the WellFormed smoke test, one decoded word per command, one-step
tests whose expected values are the spec's (95_test_vectors.md), and for every obligation with hypotheses
a witness that meets them, its clauses at boundary values. -/

namespace Sys2Proof.Tests

open Sys2Proof Sys2Proof.Machine Sys2Proof.Safety

/-! ### Helpers -/

/-- What a function says of the next state, if there is one. -/
def after {α : Type} (f : State → α) : Res → Option α
  | .next s => some (f s)
  | .fault _ => none
  | .refused _ => none

/-- A buffer that holds these bytes from index `start` on, and nothing else. -/
def bytesAt : Nat → List Byte → Mem
  | _, [] => []
  | start, b :: bs => (start, b) :: bytesAt (start + 1) bs

theorem get_bytesAt (bs : List Byte) : ∀ start i : Nat, (bytesAt start bs).get (start + i) = bs[i]? := by
  induction bs with
  | nil => intro start i; rfl
  | cons b bs ih =>
    intro start i
    cases i with
    | zero => simp [bytesAt, Mem.get]
    | succ i =>
      have h := ih (start + 1) i
      rw [Nat.add_assoc, Nat.add_comm 1 i] at h
      simp [bytesAt, Mem.get, h]

theorem holds_bytesAt (start : Nat) (bs : List Byte) : Holds (bytesAt start bs) start bs :=
  fun i _ => get_bytesAt bs start i

theorem isSome_bytesAt (bs : List Byte) : ∀ i < bs.length, (Mem.get (bytesAt 0 bs) i).isSome = true := by
  intro i hi
  have h := get_bytesAt bs 0 i
  rw [Nat.zero_add] at h
  rw [h, List.getElem?_eq_getElem hi]
  rfl

/-- After `OPEN 9600, N`. -/
def opened : State := { State.reset with isOpen := true, tstart := 4800 }

/-- The request of ENC1. -/
def request : List Byte := [0x01, 0x03, 0x00, 0x01, 0x00, 0x02, 0x95, 0xCB]

/-- The response R of 95_test_vectors.md section 2.4. -/
def response : List Byte := [0x01, 0x03, 0x04, 0x00, 0x0A, 0x00, 0x0B, 0x9B, 0xF6]

/-- An open line with a request in TXBUF. -/
def ready : State := { opened with txbuf := bytesAt 0 request, txlen := 8 }

/-- Sending the request, at the first tick of a character. -/
def sending : State := { ready with phase := .tx, expect := true }

/-- WAIT_FIRST with `left` ticks to the deadline. -/
def waiting (left : Nat) : State := { ready with phase := .waitFirst, expect := true, deadline := left }

/-- A wait of the phase with these bytes received and `left` ticks to the deadline. -/
def received (p : Phase) (bs : List Byte) (left need : Nat) : State :=
  { ready with
    phase := p, expect := true, deadline := left, need := need, rxbuf := bytesAt 0 bs,
    rxlen := BitVec.ofNat 9 bs.length }

/-- RXBUF filled by the host. -/
def loaded (bs : List Byte) : State :=
  { State.reset with rxbuf := bytesAt 0 bs, rxlen := BitVec.ofNat 9 bs.length }

/-- The default parameters make every wait last (R6). -/
theorem positive_params (b : BaudSel) :
    0 < tStart params b ∧ 0 < tRead params b ∧ 0 < tSil params b := by
  cases b <;> decide

/-- The invariant with other bytes waiting, on an open line. -/
theorem inv_fifo {s : State} (h : Inv s) (ho : s.isOpen = true) {q : List Byte}
    (hq : q.length ≤ Config.fifoCap) : Inv { s with fifo := q } := by
  obtain ⟨h1, h2, h3, _, h⟩ := h
  exact ⟨h1, h2, h3, ⟨hq, fun hc => absurd (ho.symm.trans hc) nofun⟩, h⟩

/-! ### Well-formedness and decoding -/

/-- R84: BAUDSEL 5 is illegal. -/
theorem test_wellFormed_baud : WellFormed (.openLine 5 0) = false := by decide

/-- R84: PARITY 3 is illegal. -/
theorem test_wellFormed_parity : WellFormed (.openLine 0 3) = false := by decide

/-- R84: the largest legal fields. -/
theorem test_wellFormed_largest : WellFormed (.openLine 4 2) = true := by decide

/-- CRCC1. -/
theorem test_decode_crcInit : decode 0x01000000 = .ok .crcInit := by decide

/-- CRCC2: opcode 0x02, BYTE 0x01. -/
theorem test_decode_crcByte : decode 0x02000001 = .ok (.crcByte 0x01) := by decide

/-- CRCC5 and CRCC6: SEL is bit 16, N is bits 8:0. -/
theorem test_decode_crcBuf :
    decode 0x03000101 = .ok (.crcBuf .tx 257) ∧ decode 0x03010104 = .ok (.crcBuf .rx 260) := by decide

/-- ENC5: N in 23:16, ADDR in 15:8, FC in 7:0. -/
theorem test_decode_encRaw : decode 0x10040103 = .ok (.encRaw 4 0x01 0x03) := by decide

/-- ENC3; ENC8 has bit 16 set. -/
theorem test_decode_encWords :
    decode 0x11000106 = .ok (.encWords 0x01 0x06) ∧ decode 0x11010103 = .error .reservedBit := by decide

/-- Section 2.3. -/
theorem test_decode_decodeBuf : decode 0x20000000 = .ok .decodeBuf := by decide

/-- LC1 (115200, Odd) and LC2 (19200, Even). -/
theorem test_decode_openLine :
    decode 0x30000024 = .ok (.openLine 4 2) ∧ decode 0x30000011 = .ok (.openLine 1 1) := by decide

/-- LC4. -/
theorem test_decode_closeLine : decode 0x31000000 = .ok .closeLine := by decide

/-- Section 2.4; TR22 has bit 1 set. -/
theorem test_decode_xfer :
    decode 0x32000001 = .ok (.xfer true) ∧ decode 0x32000002 = .error .reservedBit := by decide

/-- LC5. -/
theorem test_decode_unallocated :
    decode 0x00000000 = .error .unallocatedOpcode ∧ decode 0xFF000000 = .error .unallocatedOpcode := by
  decide

/-! ### One step each, expected values from 95_test_vectors.md -/

/-- CRCC1. -/
theorem test_crcInit :
    after (fun t => (t.acc, statusWord t)) (issueCommand 0x01000000 { State.reset with acc := 0x1234 }) =
      some (0xFFFF, 0x00000002) := by decide

/-- CRCC7. -/
theorem test_crcInit_strayBit :
    after (fun t => (t.acc, statusWord t)) (issueCommand 0x01000001 { State.reset with acc := 0x1234 }) =
      some (0x1234, 0x00000806) := by decide

/-- CRCC2. -/
theorem test_crcByte_first :
    after State.acc (issueCommand 0x02000001 State.reset) = some 0x807E := by decide

/-- CRCC3. -/
theorem test_crcByte_continues :
    after State.acc (issueCommand 0x02000002 { State.reset with acc := 0x1418 }) = some 0xCB95 := by decide

/-- R104's example. -/
theorem test_crcBuf :
    after State.acc (issueCommand 0x03010007 (loaded response)) = some 0xF69B := by decide +kernel

/-- CRCC5. -/
theorem test_crcBuf_tooLong :
    after (fun t => (t.acc, statusWord t)) (issueCommand 0x03000101 State.reset) =
      some (0xFFFF, 0x00000906) := by decide

/-- ENC5. -/
theorem test_encRaw :
    after (fun t => (t.txbuf, t.txlen, statusWord t))
        (issueCommand 0x10040103
          { State.reset with txbuf := bytesAt 2 [0x00, 0x01, 0x00, 0x02] }) =
      some (bytesAt 0 request, 8, 0x00000002) := by decide +kernel

/-- ENC7. -/
theorem test_encRaw_tooLong :
    after (fun t => (t.txbuf, t.txlen, statusWord t)) (issueCommand 0x10FD0103 State.reset) =
      some ([], 0, 0x00000906) := by decide

/-- ENC3. -/
theorem test_encWords :
    after (fun t => (t.txbuf, t.txlen))
        (issueCommand 0x11000106 { State.reset with arg := 0x00010003 }) =
      some (bytesAt 0 [0x01, 0x06, 0x00, 0x01, 0x00, 0x03, 0x98, 0x0B], 8) := by decide +kernel

/-- ENC8. -/
theorem test_encWords_reserved :
    after (fun t => (t.txbuf, statusWord t)) (issueCommand 0x11010103 State.reset) =
      some ([], 0x00000806) := by decide

/-- DEC1. -/
theorem test_decodeBuf :
    after (fun t => (statusWord t, resp0Word t, resp1Word t))
        (issueCommand 0x20000000 (loaded response)) =
      some (0x00000002, 0x00040301, 0xF69BF69B) := by decide +kernel

/-- DEC6: the declared length is checked before the shortest frame. -/
theorem test_decodeBuf_order :
    after (fun t => (statusWord t, resp0Word t, resp1Word t))
        (issueCommand 0x20000000 (loaded [0x01, 0x03, 0x00, 0xFF])) =
      some (0x00000306, 0x00000301, 0) := by decide

/-- LC1. -/
theorem test_openLine :
    after (fun t => (linecfgWord t, t.tstart, charBits t.cfg t.parity, statusWord t))
        (issueCommand 0x30000024 State.reset) =
      some (0x00000024, 57600, 11, 0x0000000A) := by decide

/-- LC3. -/
theorem test_openLine_illegal :
    after statusWord (issueCommand 0x30000005 State.reset) = some 0x00000806 ∧
      after statusWord (issueCommand 0x30000030 State.reset) = some 0x00000806 := by decide

/-- R141's example. -/
theorem test_closeLine :
    after (fun t => (t.isOpen, t.fifo)) (issueCommand 0x31000000 { opened with fifo := [0x55, 0x66] }) =
      some (false, []) := by decide

/-- LC4. -/
theorem test_closeLine_closed :
    after statusWord (issueCommand 0x31000000 State.reset) = some 0x00000002 := by decide

/-- TR20. -/
theorem test_xfer_notOpen :
    after statusWord (issueCommand 0x32000001 State.reset) = some 0x00000106 := by decide

/-- TR19: an empty request with a response expected listens until tick 4800. -/
theorem test_xfer_empty :
    after (fun t => (t.phase, t.deadline, t.rxlen)) (issueCommand 0x32000001 opened) =
      some (.waitFirst, 4800, 0) := by decide

/-- TR1's last tick: the last byte of R on the deadline tick of the body completes the frame. -/
theorem test_tick_lastByte :
    after (fun t => (statusWord t, t.rxlen, resp0Word t, resp1Word t))
        (tick (some 0xF6) (received .body (response.take 8) 1 9)) =
      some (0x0000000A, 9, 0x00040301, 0xF69BF69B) := by decide +kernel

/-- TR2: the deadline tick without a byte is TIMEOUT. -/
theorem test_tick_timeout :
    after (fun t => (statusWord t, t.rxlen)) (tick none (waiting 1)) = some (0x0000020E, 0) := by decide

/-- TR7: a partial body is INCOMPLETE_FRAME. -/
theorem test_tick_incomplete :
    after (fun t => (statusWord t, resp0Word t, resp1Word t))
        (tick none (received .body (response.take 8) 1 9)) =
      some (0x0000030E, 0x00040301, 0) := by decide

/-- TR10: an unknown frame of three bytes ended by silence is SHORT_RESPONSE. -/
theorem test_tick_silence :
    after (fun t => (statusWord t, resp0Word t))
        (tick none (received .silence [0x01, 0x83, 0x02] 1 0)) =
      some (0x0000040E, 0x00028301) := by decide

/-- P2: the third header byte selects BODY with need 9. -/
theorem test_tick_dispatch :
    after (fun t => (t.phase, t.need, t.deadline)) (tick (some 0x04) (received .hdr [0x01, 0x03] 1 0)) =
      some (.body, 9, 9601) := by decide

/-- P2: the first transmit-trace entry is (10, 01). -/
theorem test_tick_transmit :
    after (fun t => (txTrace t, t.txi, t.txbit, t.de))
        (tick none { sending with now := 9, txbit := 9 }) =
      some ([(10, 0x01)], 1, 0, true) := by decide

/-- A host read of a byte never written is the fault UninitRead (R45). -/
theorem test_read_unwritten : performRead 0x100 4 State.reset = .fault .uninitRead := rfl

/-- A 16-bit access is refused by name (R62). -/
theorem test_read_halfword : performRead 0x004 2 State.reset = .refused .misalignedHostAccess :=
  rfl

/-- LC6: a write to TXLEN during an exchange is held. -/
theorem test_write_held :
    after (fun t => (t.txlen, t.held.length)) (envStep (wr .txlen 4) sending) = some (8, 1) := by decide

/-- A Reset may come before a write that is still held, and leaves it held (R220). -/
theorem test_reset_before_held :
    after (fun t => (t.isOpen, t.done, t.held.length))
        (step { opened with held := [cmdWrite 0x01000000], pending := [.reset] }) =
      some (false, false, 1) := by decide

/-- A Tick may come before it too (R150). -/
theorem test_tick_before_held :
    after (fun t => (t.now, t.done, t.held.length))
        (step { opened with held := [cmdWrite 0x01000000], pending := [.tick none] }) =
      some (1, false, 1) := by decide

/-- DEC1 through the RXWORD view: RXWORD[0] is 0x0000000A. -/
theorem test_read_rxword : readReg (loaded response) (regAt 0xA00) = some 0x0000000A := by decide

/-! ### Witnesses: each obligation with hypotheses has states and operands that meet them -/

/-- 256 and 260 bytes 0x41, a full buffer (TR15). -/
def fullOf (n : Nat) : List Byte := List.replicate n 0x41

theorem witness_EncodeOfDecodedWordIsTheWord : decode 0x020000A5 = .ok (.crcByte 0xA5) := by decide

theorem witness_OperandFieldsAreTheWordsBits :
    decode 0x020000FF = .ok (.crcByte 0xFF) ∧ decode 0x030101FF = .ok (.crcBuf .rx 511) ∧
      decode 0x10FFFFFF = .ok (.encRaw 0xFF 0xFF 0xFF) ∧
      decode 0x1100FFFF = .ok (.encWords 0xFF 0xFF) ∧ decode 0x30000037 = .ok (.openLine 7 3) ∧
      decode 0x32000001 = .ok (.xfer true) := by decide

theorem witness_UnallocatedOpcodesAreBadCommand :
    ([0x00000000, 0x04000000, 0x0F000000, 0x12000000, 0x1F000000, 0x21000000, 0x2F000000,
        0x33000000, (0xFF000000 : Word)].all fun w => decide (w.extractLsb' 24 8 ∉
          [0x01, 0x02, 0x03, 0x10, 0x11, 0x20, 0x30, 0x31, (0x32 : Byte)])) = true ∧
      State.reset.phase = .idle := by decide +kernel

theorem witness_ReservedBitsAndIllegalFieldsAreBadCommand :
    State.reset.phase = .idle ∧
      (∃ p ∈ formats, (0x01000001 : Word).extractLsb' 24 8 = p.1 ∧
        (0x01000001 : Word) &&& (0x00FFFFFF &&& ~~~p.2) ≠ 0) ∧
      ((0x30000005 : Word).extractLsb' 24 8 = 0x30 ∧
        5 ≤ ((0x30000005 : Word).extractLsb' 0 3).toNat) ∧
      ((0x30000030 : Word).extractLsb' 24 8 = 0x30 ∧
        ((0x30000030 : Word).extractLsb' 4 2).toNat = 3) := by decide

theorem witness_DecodingAcceptsExactlyTheLegalWords :
    LegalWord 0x30000024 ∧ ¬ LegalWord 0x30000025 ∧ ¬ LegalWord 0x00000000 ∧
      (0x01, 0x000000) ∈ formats := by
  unfold LegalWord
  decide

theorem witness_StepRunsTheDecodedCommand :
    nextCommand (State.reset.withFetchWord 32 0x01000000) = some (0x01000000, State.reset) ∧
      decode 0x01000000 = .ok .crcInit := by decide

theorem witness_CrcLaws : params.crcPoly.getLsbD 15 = true ∧ (0x0A : Byte) ≠ 0x0B := by decide

theorem witness_CrcInitSetsTheAccumulator :
    State.reset.phase = .idle ∧ (0x01000001 : Word).extractLsb' 24 8 = 0x01 ∧
      (0x01000001 : Word) ≠ 0x01000000 := by decide

theorem witness_CrcByteContinuesTheAccumulator :
    State.reset.phase = .idle ∧ (0x02000100 : Word).extractLsb' 24 8 = 0x02 ∧
      (0x02000100 : Word) &&& 0x00FFFF00 ≠ 0 := by decide

theorem witness_CrcBufComputesOverTheBuffer :
    ((256#9).toNat ≤ 256 ∧ (fullOf 256).length = (256#9).toNat ∧
      Holds (bytesAt 0 (fullOf 256)) 0 (fullOf 256)) ∧
    ((260#9).toNat ≤ 260 ∧ (fullOf 260).length = (260#9).toNat ∧
      Holds (bytesAt 0 (fullOf 260)) 0 (fullOf 260)) ∧
    (256 < (257#9).toNat ∧ 260 < (261#9).toNat) ∧
    (∃ i < (1#9).toNat, State.reset.txbuf.get i = none) ∧
    (∃ i < (1#9).toNat, State.reset.rxbuf.get i = none) ∧
    ((0x03010104 : Word).extractLsb' 24 8 = 0x03 ∧ (0x03010104 : Word) &&& 0x00FEFE00 = 0) ∧
    (State.reset.phase = .idle ∧ (0x03000200 : Word).extractLsb' 24 8 = 0x03 ∧
      (0x03000200 : Word) &&& 0x00FEFE00 ≠ 0) := by
  refine ⟨⟨?_, ?_, holds_bytesAt 0 _⟩, ⟨?_, ?_, holds_bytesAt 0 _⟩, ?_, ?_, ?_, ?_, ?_⟩ <;> decide +kernel

theorem witness_EncRawBuildsAroundThePayload :
    ((252#8).toNat ≤ 252 ∧ (fullOf 252).length = (252#8).toNat ∧
      Holds (bytesAt 2 (fullOf 252)) 2 (fullOf 252)) ∧
    ((0#8).toNat ≤ 252 ∧ ([] : List Byte).length = (0#8).toNat ∧ Holds State.reset.txbuf 2 []) ∧
    252 < (253#8).toNat ∧
    ((1#8).toNat ≤ 252 ∧ ∃ i < (1#8).toNat, State.reset.txbuf.get (2 + i) = none) ∧
    (0x10FFFFFF : Word).extractLsb' 24 8 = 0x10 := by
  refine ⟨⟨?_, ?_, holds_bytesAt 2 _⟩, ⟨?_, ?_, ?_⟩, ?_, ⟨?_, ?_⟩, ?_⟩ <;> first | decide +kernel | exact holds_bytesAt 2 []

theorem witness_EncWordsBuildsFromArg :
    ((0x1100FFFF : Word).extractLsb' 24 8 = 0x11 ∧ (0x1100FFFF : Word) &&& 0x00FF0000 = 0) ∧
    State.reset.phase = .idle ∧ (0x11010103 : Word).extractLsb' 24 8 = 0x11 ∧
      (0x11010103 : Word) &&& 0x00FF0000 ≠ 0 := by decide

theorem witness_PseudoInstructionsBuildRequestsAndCrcs :
    State.reset.phase = .idle ∧ State.reset.held = [] := ⟨rfl, rfl⟩

theorem witness_FrameLengthByFunctionCode :
    (0x83 : Byte) ≠ 0x03 ∧ (0x83 : Byte) ≠ 0x04 ∧ (0x83 : Byte) ≠ 0x06 := by decide

/-- DEC3, DEC4; DEC5, DEC6; DEC10, DEC11; DEC2. -/
theorem witness_DecodeCheckOrder :
    ([] : List Byte).length < 3 ∧ ([0x01, 0x03] : List Byte).length < 3 ∧
      (3 ≤ (response.take 8).length ∧ KnownFc ((response.take 8).getD 1 0) ∧
        (response.take 8).length < frameLenOf (response.take 8)) ∧
      (3 ≤ ([0x01, 0x83, 0x02] : List Byte).length ∧
        ¬ KnownFc (([0x01, 0x83, 0x02] : List Byte).getD 1 0)) ∧
      (decodeFrame params (response.set 4 0x0B)).code = .crcMismatch := by decide +kernel

/-- DEC1, and DEC7 with a frame of five bytes. -/
theorem witness_CrcVerdictOfFullFrames :
    (3 ≤ response.length ∧ frameLenOf response ≤ response.length ∧ params.minFrame ≤ frameLenOf response) ∧
      (decodeFrame params response).code = .none ∧ (decodeFrame params (response.set 4 0x0B)).code ≠ .none ∧
      params.minFrame ≤ frameLenOf [0x01, 0x03, 0x00, 0x20, 0xF0] := by decide +kernel

/-- DEC2 (data byte) and the last CRC byte; DEC15 changes the length rule and is no witness. -/
theorem witness_CorruptedByteIsCrcMismatch :
    params.crcPoly.getLsbD 15 = true ∧ (decodeFrame params response).code = .none ∧
      (4 < frameLenOf response ∧ (0x0B : Byte) ≠ response.getD 4 0 ∧
        frameLenOf (response.set 4 0x0B) = frameLenOf response) ∧
      (8 < frameLenOf response ∧ (0xF7 : Byte) ≠ response.getD 8 0 ∧
        frameLenOf (response.set 8 0xF7) = frameLenOf response) := by decide +kernel

/-- DEC13. -/
theorem witness_BytesBeyondTheFrameAreIgnored :
    KnownFc (response.getD 1 0) ∧ 3 ≤ response.length ∧ response.length = frameLenOf response := by
  decide

theorem witness_UnknownFunctionCodesAreAccepted :
    ¬ KnownFc 0x83 ∧ params.minFrame ≤ 5 ∧ ((0x83 : Byte) = 0x83 ∨ (0x83 : Byte) = 0x84 ∨ (0x83 : Byte) = 0x86) := by decide

theorem witness_DecodeWritesTheVerdict :
    ((loaded (fullOf 260)).rxlen.toNat ≤ 260 ∧
      (fullOf 260).length = (loaded (fullOf 260)).rxlen.toNat ∧
      Holds (loaded (fullOf 260)).rxbuf 0 (fullOf 260)) ∧
    (decodeFrame params [0x01, 0x03]).code = .shortResponse ∧
    (decodeFrame params (response.take 8)).code = .incompleteFrame ∧
    260 < ({ State.reset with rxlen := 261 } : State).rxlen.toNat ∧
    (∃ i < ({ State.reset with rxlen := 1 } : State).rxlen.toNat, State.reset.rxbuf.get i = none) ∧
    State.reset.rxlen = 0 ∧
    (after State.rxlen (decodeReceived (loaded response))).isSome = true ∧
    (State.reset.phase = .idle ∧ (0x20000001 : Word).extractLsb' 24 8 = 0x20 ∧
      (0x20000001 : Word) ≠ 0x20000000) := by
  refine ⟨⟨?_, ?_, holds_bytesAt 0 _⟩, ?_, ?_, ?_, ?_, ?_, ?_, ?_⟩ <;> decide +kernel

/-- The first and the last register of the view, and an unwritten byte. -/
theorem witness_RegisterValueView :
    (0x0A00#12 = BitVec.ofNat 12 (0xA00 + 4 * 0) ∧ (loaded response).rxbuf.get (3 + 2 * 0) = some 0x00 ∧
      (loaded response).rxbuf.get (4 + 2 * 0) = some 0x0A) ∧
    (127 < 128 ∧ 0xBFC#12 = BitVec.ofNat 12 (0xA00 + 4 * 127) ∧
      (loaded (fullOf 260)).rxbuf.get (3 + 2 * 127) = some 0x41 ∧
      (loaded (fullOf 260)).rxbuf.get (4 + 2 * 127) = some 0x41) ∧
    (loaded (fullOf 4)).rxbuf.get (4 + 2 * 0) = none ∧ State.reset.rxbuf.get (3 + 2 * 127) = none := by
  decide +kernel

theorem witness_OpenConfiguresTheLine :
    ((4#3).toNat ≤ 4 ∧ (2#2).toNat ≤ 2) ∧ 5 ≤ (5#3).toNat ∧ (3#2).toNat = 3 := by decide

theorem witness_CloseIsIdempotent : exec .closeLine opened = .next (opened.unsetLine.finish .none) := rfl

theorem witness_XferAtIssue :
    State.reset.isOpen = false ∧
    (opened.isOpen = true ∧ 256 < ({ opened with txlen := 257 } : State).txlen.toNat) ∧
    (({ opened with txlen := 1 } : State).txlen.toNat ≤ 256 ∧
      ∃ i < ({ opened with txlen := 1 } : State).txlen.toNat, opened.txbuf.get i = none) ∧
    (({ opened with txlen := 256 } : State).txlen ≠ 0 ∧
      ({ opened with txlen := 256 } : State).txlen.toNat ≤ 256 ∧
      ∀ i < ({ opened with txlen := 256 } : State).txlen.toNat,
        (Mem.get (bytesAt 0 (fullOf 256)) i).isSome = true) ∧
    opened.txlen = 0 := by
  have hw : ∀ i < 256, (Mem.get (bytesAt 0 (fullOf 256)) i).isSome = true := by
    intro i hi
    exact isSome_bytesAt (fullOf 256) i (by rw [fullOf, List.length_replicate]; exact hi)
  refine ⟨?_, ?_, ?_, ⟨?_, ?_, hw⟩, ?_⟩ <;> decide +kernel

theorem witness_LineInputIsPushedOrDropped :
    (opened.isOpen = true ∧ opened.fifo.length < Config.fifoCap) ∧ State.reset.isOpen = false ∧
      Config.fifoCap ≤ (List.replicate Config.fifoCap (0x00 : Byte)).length ∧
      State.reset.phase = .idle ∧ sending.phase = .tx ∧
      (after State.txbit (tick (some 0x55) sending)) = some 1 := by
  refine ⟨⟨rfl, Nat.succ_pos _⟩, rfl, ?_, rfl, rfl, rfl⟩
  rw [List.length_replicate]

theorem witness_DriverEnableFollowsTransmission :
    after State.de (tick none sending) = some true ∧
      after State.de (tick none State.reset) = some false := by decide

/-- The same request with characters of one bit, so that one Tick is the whole transmission. -/
def short : State := { ready with cfg := { params with dataBits := 0, stopBits := 0 }, txlen := 1 }

theorem short_holds : Holds short.txbuf 0 [0x01] := by
  intro i hi
  obtain rfl : i = 0 := by simpa using hi
  rfl

theorem witness_RequestIsSentContiguously :
    (ready.isOpen = true ∧ ready.txlen.toNat = request.length ∧ 1 ≤ request.length ∧
      request.length ≤ 256 ∧ Holds ready.txbuf 0 request ∧
      (List.replicate 80 (none : Option Byte)).length =
        request.length * charBits ready.cfg ready.parity ∧
      ready.tstart.toNat = tStart ready.cfg ready.baud) ∧
    (({ opened with txlen := 256 } : State).txlen.toNat = (fullOf 256).length ∧
      Holds (bytesAt 0 (fullOf 256)) 0 (fullOf 256)) ∧
    (short.isOpen = true ∧ short.txlen.toNat = [(0x01 : Byte)].length ∧
      Holds short.txbuf 0 [0x01] ∧ .reset ∉ [rd .status, wr .txlen 4, .heldWrite] ∧
      ([rd .status, wr .txlen 4, .heldWrite].filter isTick).length + 1 =
        [(0x01 : Byte)].length * charBits short.cfg short.parity ∧
      after (fun t => (txTrace t, t.held.length))
          (runEvents ([rd .status, wr .txlen 4, .heldWrite] ++ [.tick none]) (short.startExchange true)) =
        some ([(1, 0x01)], 1)) := by
  refine ⟨⟨?_, ?_, ?_, ?_, holds_bytesAt 0 _, ?_, ?_⟩, ⟨?_, holds_bytesAt 0 _⟩, ?_, ?_, short_holds, ?_,
    ?_, ?_⟩ <;> decide +kernel

/-- The invariant of a phase, part by part. -/
theorem waiting_inv : Inv (waiting 1) ∧ Inv (waiting 4800) := by
  refine ⟨⟨?_, ?_, ?_, ?_, ?_, positive_params, ?_, ?_, ?_, ?_, ?_, ?_⟩, ⟨?_, ?_, ?_, ?_, ?_, positive_params, ?_, ?_, ?_, ?_, ?_, ?_⟩⟩ <;>
    decide

/-- On the last tick of the window and at its start. -/
theorem witness_FirstByteWindow :
    (Inv (waiting 1) ∧ Inv (waiting 4800)) ∧ (waiting 1).phase = .waitFirst ∧ (waiting 1).fifo = [] ∧
      0 < (waiting 1).deadline - (waiting 1).now :=
  ⟨waiting_inv, rfl, rfl, by decide⟩

theorem hdr_inv : Inv (received .hdr [0x01] 2 0) ∧ Inv (received .hdr [0x01] 1 0) ∧ Inv (received .hdr [0x01, 0x03] 1 0) ∧
    Inv (received .hdr [0x01, 0x06] 1 0) ∧ Inv (received .hdr [0x01, 0x83] 1 0) := by
  refine ⟨⟨?_, ?_, ?_, ?_, ?_, positive_params, ?_, ?_, ?_, ?_, ?_, ?_⟩,
    ⟨?_, ?_, ?_, ?_, ?_, positive_params, ?_, ?_, ?_, ?_, ?_, ?_⟩,
    ⟨?_, ?_, ?_, ?_, ?_, positive_params, ?_, ?_, ?_, ?_, ?_, ?_⟩,
    ⟨?_, ?_, ?_, ?_, ?_, positive_params, ?_, ?_, ?_, ?_, ?_, ?_⟩,
    ⟨?_, ?_, ?_, ?_, ?_, positive_params, ?_, ?_, ?_, ?_, ?_, ?_⟩⟩ <;>
    decide

/-- A second byte before the deadline; a third one on the deadline tick, for each class of function
code. -/
theorem witness_HeaderDispatch :
    (Inv (received .hdr [0x01] 2 0) ∧ (received .hdr [0x01] 2 0).rxlen = 1 ∧
      (received .hdr [0x01] 2 0).now + 1 < (received .hdr [0x01] 2 0).deadline) ∧
    (Inv (received .hdr [0x01, 0x03] 1 0) ∧ (received .hdr [0x01, 0x03] 1 0).rxlen = 2 ∧
      (received .hdr [0x01, 0x03] 1 0).rxbuf.get 1 = some 0x03) ∧
    (Inv (received .hdr [0x01, 0x06] 1 0) ∧ (received .hdr [0x01, 0x06] 1 0).rxbuf.get 1 = some 0x06) ∧
    (Inv (received .hdr [0x01, 0x83] 1 0) ∧ (received .hdr [0x01, 0x83] 1 0).rxbuf.get 1 = some 0x83 ∧
      ¬ KnownFc 0x83) :=
  ⟨⟨hdr_inv.1, rfl, by decide⟩, ⟨hdr_inv.2.2.1, rfl, rfl⟩, ⟨hdr_inv.2.2.2.1, rfl⟩, hdr_inv.2.2.2.2, rfl,
    by decide⟩

theorem body_inv : Inv (received .body [0x01, 0x03, 0x00] 2 5) ∧
    Inv (received .body [0x01, 0x03, 0x00] 1 5) ∧ Inv (received .body (response.take 8) 1 9) := by
  refine ⟨⟨?_, ?_, ?_, ?_, ?_, positive_params, ?_, ?_, ?_, ?_, ?_, ?_⟩,
    ⟨?_, ?_, ?_, ?_, ?_, positive_params, ?_, ?_, ?_, ?_, ?_, ?_⟩,
    ⟨?_, ?_, ?_, ?_, ?_, positive_params, ?_, ?_, ?_, ?_, ?_, ?_⟩⟩ <;>
    decide

/-- A byte before the last of the shortest frame; the last byte on the deadline tick. -/
theorem witness_BodyCompletesOnTheDeclaredLength :
    (Inv (received .body [0x01, 0x03, 0x00] 2 5) ∧
      (received .body [0x01, 0x03, 0x00] 2 5).rxlen.toNat + 1 <
        (received .body [0x01, 0x03, 0x00] 2 5).need ∧
      (received .body [0x01, 0x03, 0x00] 2 5).now + 1 <
        (received .body [0x01, 0x03, 0x00] 2 5).deadline) ∧
    (Inv (received .body (response.take 8) 1 9) ∧
      (received .body (response.take 8) 1 9).rxlen.toNat + 1 =
        (received .body (response.take 8) 1 9).need ∧
      (received .body (response.take 8) 1 9).cfg.minFrame ≤ 5) :=
  ⟨⟨body_inv.1, by decide, by decide⟩, body_inv.2.2, by decide, by decide⟩

/-- SILENCE on its last tick with these bytes received. -/
theorem silence_inv {bs : List Byte} (h3 : 3 ≤ bs.length) (h : bs.length ≤ 260)
    (hu : declaredLen (header (received .silence bs 1 0)).1 (header (received .silence bs 1 0)).2 = none)
    (hw : (bytesAt 0 bs).wf 260 = true) : Inv (received .silence bs 1 0) := by
  have hl : (received .silence bs 1 0).rxlen.toNat = bs.length := Nat.mod_eq_of_lt (by omega)
  refine ⟨⟨?_, hw⟩, ?_, ?_, ?_, ?_, positive_params, ?_, ?_, ?_, ?_, fun _ => ⟨?_, ?_, hu, ?_⟩, ?_⟩
  · change Mem.wf 256 (bytesAt 0 request) = true
    decide
  · exact ⟨nofun, fun _ => ⟨rfl, rfl⟩, nofun⟩
  · exact fun _ => ⟨rfl, rfl, rfl, rfl, rfl, rfl, rfl⟩
  · exact ⟨Nat.zero_le _, nofun⟩
  · intro _
    change (4800 : Word) = startWord params .b9600
    decide
  · exact nofun
  · exact nofun
  · exact nofun
  · exact nofun
  · rw [hl]; exact h3
  · rw [hl]; exact h
  · rw [ReceivedWritten, hl]; exact isSome_bytesAt bs
  · intro _
    change 0 < 1 ∧ 1 ≤ 0 + tSil params .b9600
    decide

theorem silence_inv_4 : Inv (received .silence [0x01, 0x83, 0x02, 0xC0] 1 0) :=
  silence_inv (by decide) (by decide) (by decide) (by decide)

theorem silence_inv_5 : Inv (received .silence [0x01, 0x83, 0x02, 0xC0, 0xF1] 1 0) :=
  silence_inv (by decide) (by decide) (by decide) (by decide)

theorem silence_inv_259 : Inv (received .silence (fullOf 259) 1 0) :=
  silence_inv (by decide +kernel) (by decide +kernel) (by decide) (by decide +kernel)

theorem silence_inv_260 : Inv (received .silence (fullOf 260) 1 0) :=
  silence_inv (by decide +kernel) (by decide +kernel) (by decide) (by decide +kernel)

/-- A wait before its deadline tick, each phase on it, and a byte there that completes nothing. -/
theorem witness_ReceptionEndsAtTheDeadline :
    (Inv (waiting 4800) ∧ Receiving (waiting 4800).phase = true ∧ (waiting 4800).fifo = [] ∧
      ([] : List Byte).length = (waiting 4800).rxlen.toNat ∧ Holds (waiting 4800).rxbuf 0 [] ∧
      (waiting 4800).now + 1 < (waiting 4800).deadline) ∧
    (Inv (waiting 1) ∧ (waiting 1).now + 1 = (waiting 1).deadline) ∧
    (Inv (received .hdr [0x01] 1 0) ∧ [(0x01 : Byte)].length = (received .hdr [0x01] 1 0).rxlen.toNat ∧
      Holds (received .hdr [0x01] 1 0).rxbuf 0 [0x01] ∧ (received .hdr [0x01] 1 0).rxlen = 1 ∧
      (received .hdr [0x01] 1 0).now + 1 = (received .hdr [0x01] 1 0).deadline) ∧
    (Inv (received .body [0x01, 0x03, 0x00] 1 5) ∧
      Holds (received .body [0x01, 0x03, 0x00] 1 5).rxbuf 0 [0x01, 0x03, 0x00] ∧
      (received .body [0x01, 0x03, 0x00] 1 5).rxlen.toNat + 1 <
        (received .body [0x01, 0x03, 0x00] 1 5).need) ∧
    (Inv (received .silence [0x01, 0x83, 0x02, 0xC0] 1 0) ∧
      (received .silence [0x01, 0x83, 0x02, 0xC0] 1 0).rxlen.toNat <
        (received .silence [0x01, 0x83, 0x02, 0xC0] 1 0).cfg.minFrame) ∧
    (Inv (received .silence [0x01, 0x83, 0x02, 0xC0, 0xF1] 1 0) ∧
      (received .silence [0x01, 0x83, 0x02, 0xC0, 0xF1] 1 0).cfg.minFrame ≤
        (received .silence [0x01, 0x83, 0x02, 0xC0, 0xF1] 1 0).rxlen.toNat) :=
  ⟨⟨waiting_inv.2, rfl, rfl, rfl, nofun, by decide⟩, ⟨waiting_inv.1, rfl⟩,
    ⟨hdr_inv.2.1, rfl, holds_bytesAt 0 _, rfl, rfl⟩, ⟨body_inv.2.1, holds_bytesAt 0 _, by decide⟩,
    ⟨silence_inv_4, by decide⟩, silence_inv_5, by decide⟩

theorem one_le_fifoCap : 1 ≤ Config.fifoCap := Nat.succ_pos _

/-- Each outcome with one byte waiting, whatever FIFO_CAP: a frame completed, a byte too many, a new wait,
TIMEOUT, a wait that ends with a byte on its deadline tick; and a whole response waiting, where it fits. -/
theorem witness_TickConsumesTheWaitingBytes :
    (Inv { received .body (response.take 8) 1 9 with fifo := [0xF6] } ∧
      receptionPhase (response.take 8 ++ [0xF6]) = .idle ∧
      KnownFc ((response.take 8 ++ [0xF6]).getD 1 0)) ∧
    (Inv { received .silence (fullOf 260) 1 0 with fifo := [0x41] } ∧
      receptionPhase (fullOf 260 ++ [0x41]) = .idle ∧
      ¬ KnownFc ((fullOf 260 ++ [0x41]).getD 1 0)) ∧
    (Inv { waiting 4800 with fifo := [0x01] } ∧ receptionPhase ([] ++ [0x01]) = .hdr ∧
      (waiting 4800).now + 1 <
        (waiting 4800).now + 1 + waitTicks (waiting 4800).cfg (waiting 4800).baud .hdr) ∧
    (Inv (waiting 1) ∧ receptionPhase ([] ++ []) = .waitFirst ∧
      (waiting 1).deadline ≤ (waiting 1).now + 1) ∧
    (Inv { received .hdr [0x01] 1 0 with fifo := [0x03] } ∧
      receptionPhase ([0x01] ++ [0x03]) = .hdr ∧
      (received .hdr [0x01] 1 0).deadline ≤ (received .hdr [0x01] 1 0).now + 1) ∧
    (9 ≤ Config.fifoCap → Inv { waiting 1 with fifo := response } ∧
      receptionPhase ([] ++ response) = .idle ∧
      (lineInput none { waiting 1 with fifo := response }).fifo = response) :=
  ⟨⟨inv_fifo body_inv.2.2 rfl one_le_fifoCap, by decide, by decide⟩,
    ⟨inv_fifo silence_inv_260 rfl one_le_fifoCap, by decide +kernel, by decide +kernel⟩,
    ⟨inv_fifo waiting_inv.2 rfl one_le_fifoCap, by decide, by decide⟩,
    ⟨waiting_inv.1, by decide, by decide⟩,
    ⟨inv_fifo hdr_inv.2.1 rfl one_le_fifoCap, by decide, by decide⟩,
    fun h => ⟨inv_fifo waiting_inv.1 rfl h, by decide, rfl⟩⟩

/-- The last byte that fits, and the byte beyond. -/
theorem witness_SilenceRestartsUntilTheBufferIsFull :
    (Inv (received .silence (fullOf 259) 1 0) ∧
      (received .silence (fullOf 259) 1 0).rxlen.toNat < 260) ∧
    (Inv (received .silence (fullOf 260) 1 0) ∧
      (received .silence (fullOf 260) 1 0).rxlen.toNat = 260 ∧
      (received .silence (fullOf 260) 1 0).fifo = []) :=
  ⟨⟨silence_inv_259, by decide +kernel⟩, silence_inv_260, by decide +kernel, rfl⟩

theorem witness_NoTickFaults : Inv (waiting 1) := waiting_inv.1

theorem ready_inv : Inv ready := by
  refine ⟨?_, ?_, ?_, ?_, ?_, positive_params, ?_, ?_, ?_, ?_, ?_, ?_⟩ <;> decide

theorem witness_EveryExchangeCompletesWithinTheBound :
    Inv ready ∧ ready.phase = .idle ∧ exec (.xfer true) ready = .next (ready.startExchange true) ∧
      (ready.startExchange true).phase ≠ .idle ∧
      (List.replicate (exchangeBound ready) (none : Option Byte)).length = exchangeBound ready ∧
      (ready.cfg = params ∧ ready.baud = .b9600 ∧ ready.parity = .none ∧ ready.txlen = 8) ∧
      tRead ready.cfg ready.baud ≤ 258 * tSil ready.cfg ready.baud :=
  ⟨ready_inv, rfl, rfl, by decide, List.length_replicate, ⟨rfl, rfl, rfl, rfl⟩, by decide⟩

/-- All four rounds: a byte sequence that waits in the FIFO goes from WAIT_FIRST to completion. -/
theorem witness_ConsumptionRunsUntilThePhaseStands :
    after (fun t => (t.phase, t.errcode)) (rxConsume { waiting 1 with fifo := response }) =
      some (.idle, .none) := by decide +kernel

/-- One of each code: 8, 9 and 1. -/
theorem witness_RejectedCommandsChangeOnlyTheReport :
    State.reset.phase = .idle ∧
      after State.errcode (issueCommand 0x00000000 State.reset) = some .badCommand ∧
      after State.errcode (issueCommand 0x10FD0103 State.reset) = some .badLength ∧
      after State.errcode (issueCommand 0x32000001 State.reset) = some .notOpen := by decide

theorem witness_CommandsCompleteWithinTheirWrite :
    State.reset.phase = .idle ∧
      after State.phase (issueCommand 0x01000000 State.reset) = some .idle ∧
      after State.phase (issueCommand 0x32000001 ready) = some .tx := by decide

theorem witness_ReportPersists :
    nextCommand { opened with pending := [.tick none] } = none ∧
      resetsNext { opened with pending := [.tick none] } = false ∧
      after State.done (step { opened with pending := [.tick none] }) = some false := by decide

theorem witness_AccumulatorWrittenOnlyByCrcCommands :
    after State.acc (step (State.reset.withFetchWord 32 0x02000001)) = some 0x807E ∧
      State.reset.acc ≠ 0x807E := by decide

theorem witness_LineStateWrittenOnlyByLineCommands :
    after (fun t => (t.isOpen, t.baud, t.parity, t.tstart))
        (step (State.reset.withFetchWord 32 0x30000024)) =
      some (true, .b115200, .odd, 57600) := by decide

theorem witness_CodesOfEachCommand :
    after State.phase (exec .crcInit State.reset) = some .idle ∧
      after State.phase (exec (.xfer true) State.reset) = some .idle ∧
      (waiting 1).phase ≠ .idle ∧ after State.phase (tick none (waiting 1)) = some .idle := by decide

theorem witness_HostWritesAreHeldWhileBusy :
    (sending.busy = true ∧ legalAccess (cmdWrite 0x01000000).off (cmdWrite 0x01000000).width = true ∧
      (cmdWrite 0x01000000).canHold = true ∧
      ({ cmdWrite 0x01000000 with canHold := false } : HostWrite).canHold = false) ∧
    (legalAccess 0x014 4 = true ∧ readReg sending (regAt 0x014) = some 8) ∧
    (opened.busy = false ∧ opened.held = []) ∧
    (({ opened with held := [cmdWrite 0x01000000] } : State).busy = false ∧
      legalAccess ({ cmdWrite 0x31000000 with canHold := false } : HostWrite).off 4 = true) ∧
    (({ opened with held := [cmdWrite 0x01000000] } : State).busy = false ∧
      ({ opened with held := [cmdWrite 0x01000000] } : State).held = cmdWrite 0x01000000 :: [] ∧
      opened.pending = []) := by decide

theorem witness_MisalignedAccessesAreRefused :
    (2 ≠ 4 ∨ (0x004 : BitVec 12).toNat % 4 ≠ 0) ∧ (4 ≠ 4 ∨ (0x006 : BitVec 12).toNat % 4 ≠ 0) ∧
      (0xFFC : BitVec 12).toNat % 4 = 0 := by decide

theorem witness_OnlyCommandWritesHaveSideEffects :
    after State.done (performRead 0x004 4 State.reset) = some false ∧ regAt 0x004 ≠ .cmd ∧
      regAt 0x010 = .arg ∧ regAt 0x018 = .rxlen ∧ regAt 0x4FC = .txbuf 255 ∧ regAt 0x90C = .rxbuf 259 := by
  decide

/-- Each clause at the ends of its range. -/
theorem witness_HostWritesStoreTheirRegister :
    regAt (BitVec.ofNat 12 (0x100 + 4 * 0)) = .txbuf 0 ∧
      regAt (BitVec.ofNat 12 (0x100 + 4 * 255)) = .txbuf 255 ∧
      regAt (BitVec.ofNat 12 (0x500 + 4 * 0)) = .rxbuf 0 ∧
      regAt (BitVec.ofNat 12 (0x500 + 4 * 259)) = .rxbuf 259 ∧
      ((0x024 : BitVec 12).toNat % 4 = 0 ∧
        (0x024 : BitVec 12) ∈ [0x004, 0x008, 0x00C, 0x01C, 0x020, (0x024 : BitVec 12)]) ∧
      (0x028 ≤ (0x0FC : BitVec 12).toNat ∧ (0x0FC : BitVec 12).toNat < 0x100) ∧
      0x910 ≤ (0x910 : BitVec 12).toNat := by decide

theorem witness_BufferReadsAndWrittenMarks :
    (ready.txbuf.get 0 = some 0x01 ∧ ready.txbuf.get 255 = none) ∧
      ((loaded response).rxbuf.get 0 = some 0x01 ∧ (loaded response).rxbuf.get 259 = none) ∧
      (0x028 ≤ (0x0FC : BitVec 12).toNat ∧ (0x0FC : BitVec 12).toNat < 0x100) ∧
      (0x910 ≤ (0x9FC : BitVec 12).toNat ∧ (0x9FC : BitVec 12).toNat < 0xA00) ∧
      0xC00 ≤ (0xC00 : BitVec 12).toNat := by decide

theorem witness_WindowLayout :
    (10 ≤ 63 ∧ 63 < 64) ∧ 255 < 256 ∧ 259 < 260 ∧ 59 < 60 ∧ 127 < 128 ∧ 4095 < 4096 ∧
      Config.baseAddr + 4096 ≤ Config.baseAddr + 4096 := by
  refine ⟨?_, ?_, ?_, ?_, ?_, ?_, Nat.le_refl _⟩ <;> decide

theorem witness_ResetValues :
    (resetStep sending = State.reset ∨ ∃ s, resetStep sending = resetStep s) ∧
      (resetStep sending).cfg = params := ⟨.inr ⟨sending, rfl⟩, rfl⟩

/-- During an exchange, and idle with a write held. -/
theorem witness_ResetStepFromAnyState :
    (sending.busy = true ∧ ({ sending with pending := [.reset] } : State).pending = .reset :: []) ∧
      ({ opened with held := [cmdWrite 0x01000000], pending := [.reset] } : State).held ≠ [] := by decide

theorem witness_EveryStepKeepsTheInvariant :
    Inv ready ∧ after State.phase (step { ready with pending := [.tick none] }) = some .idle :=
  ⟨ready_inv, by decide⟩

end Sys2Proof.Tests
end

/-! ## Proofs: the state after a Reset (10_state.md R47)

What the Reset step writes, field by field and word by word, and the claim about both ways to a reset
state. -/

namespace Sys2Proof.Machine

section ResetStep

variable (s : State)

@[simp] theorem resetStep_done : (resetStep s).done = false := rfl
@[simp] theorem resetStep_err : (resetStep s).err = false := rfl
@[simp] theorem resetStep_isOpen : (resetStep s).isOpen = false := rfl
@[simp] theorem resetStep_errcode : (resetStep s).errcode = .none := rfl
@[simp] theorem resetStep_phase : (resetStep s).phase = .idle := rfl
@[simp] theorem resetStep_baud : (resetStep s).baud = .b9600 := rfl
@[simp] theorem resetStep_parity : (resetStep s).parity = .none := rfl
@[simp] theorem resetStep_acc : (resetStep s).acc = s.cfg.crcInit := rfl
@[simp] theorem resetStep_arg : (resetStep s).arg = 0 := rfl
@[simp] theorem resetStep_txlen : (resetStep s).txlen = 0 := rfl
@[simp] theorem resetStep_rxlen : (resetStep s).rxlen = 0 := rfl
@[simp] theorem resetStep_respAddr : (resetStep s).respAddr = 0 := rfl
@[simp] theorem resetStep_respFc : (resetStep s).respFc = 0 := rfl
@[simp] theorem resetStep_respBc : (resetStep s).respBc = 0 := rfl
@[simp] theorem resetStep_crcRx : (resetStep s).crcRx = 0 := rfl
@[simp] theorem resetStep_crcCalc : (resetStep s).crcCalc = 0 := rfl
@[simp] theorem resetStep_tstart : (resetStep s).tstart = 0 := rfl
@[simp] theorem resetStep_txbuf : (resetStep s).txbuf = [] := rfl
@[simp] theorem resetStep_rxbuf : (resetStep s).rxbuf = [] := rfl
@[simp] theorem resetStep_fifo : (resetStep s).fifo = [] := rfl
@[simp] theorem resetStep_txi : (resetStep s).txi = 0 := rfl
@[simp] theorem resetStep_txbit : (resetStep s).txbit = 0 := rfl
@[simp] theorem resetStep_deadline : (resetStep s).deadline = 0 := rfl
@[simp] theorem resetStep_need : (resetStep s).need = 0 := rfl
@[simp] theorem resetStep_expect : (resetStep s).expect = false := rfl
@[simp] theorem resetStep_now : (resetStep s).now = 0 := rfl
@[simp] theorem resetStep_de : (resetStep s).de = false := rfl
@[simp] theorem resetStep_cfg : (resetStep s).cfg = s.cfg := rfl

/-- PHASE IDLE has the encoding 0, so BUSY is 0, and so has ERRCODE NONE (R22, R41, R200). -/
@[simp] theorem statusWord_resetStep : statusWord (resetStep s) = 0 := by
  simp [statusWord, State.busy, Phase.bits, ErrCode.bits]

/-- 9600 baud and no parity have the encoding 0 (R23). -/
@[simp] theorem linecfgWord_resetStep : linecfgWord (resetStep s) = 0 := by
  simp [linecfgWord, Parity.bits, BaudSel.bits]

@[simp] theorem resp0Word_resetStep : resp0Word (resetStep s) = 0 := by simp [resp0Word]

@[simp] theorem resp1Word_resetStep : resp1Word (resetStep s) = 0 := by simp [resp1Word]

end ResetStep

/-- The state after reset is what a Reset step leaves of it: its ACC is the CRC_INIT of its own
parameters (R24). -/
theorem resetStep_reset : resetStep State.reset = State.reset := rfl

/-- A reset state is the outcome of some Reset step, whichever way it came to be. -/
theorem exists_eq_resetStep {t : State} (ht : t = State.reset ∨ ∃ s, t = resetStep s) :
    ∃ s, t = resetStep s := by
  rcases ht with rfl | hs
  · exact ⟨State.reset, resetStep_reset.symm⟩
  · exact hs

/-- At the default parameters ACC starts at 0xFFFF (R5, R24). -/
theorem resetStep_acc_of_defaults {s : State} (h : (resetStep s).cfg = params) :
    (resetStep s).acc = 0xFFFF := by
  rw [resetStep_cfg] at h
  simp [h, params]

/-- Settles O57: both kinds of reset state are the outcome of a Reset step, whose registers, buffers and
engine fields are the lemmas above. -/
theorem resetValues : Obligations.ResetValues := by
  intro t ht
  obtain ⟨s, rfl⟩ := exists_eq_resetStep ht
  have htx : ∀ i, (resetStep s).txbuf.get i = none := by simp
  have hrx : ∀ i, (resetStep s).rxbuf.get i = none := by simp
  exact ⟨statusWord_resetStep s, linecfgWord_resetStep s, resetStep_acc s, resetStep_arg s,
    resetStep_txlen s, resetStep_rxlen s, resp0Word_resetStep s, resp1Word_resetStep s,
    resetStep_tstart s, htx, hrx, resetStep_fifo s, resetStep_phase s, resetStep_txi s,
    resetStep_txbit s, resetStep_deadline s, resetStep_need s, resetStep_expect s, resetStep_now s,
    resetStep_de s, resetStep_acc_of_defaults⟩

end Sys2Proof.Machine

/-! ## Proofs: the side effects of a host access (20_memory.md R64)

No register shows the observation, so a read does not change what the next one returns; a write either
issues a command or is the store of its register. -/

namespace Sys2Proof.Machine

/-- What a register reads as does not depend on the observation (R13). -/
@[simp] theorem readReg_observe (s : State) (o : Obs) (r : Reg) :
    readReg (s.observe o) r = readReg s r := by
  cases r <;> rfl

/-- A read performed at once again answers, and with the same value (R64). -/
theorem performRead_observe_hostRead {off : BitVec 12} {width : Nat} {s : State} {v : Word}
    (hl : legalAccess off width = true) (hv : readReg s (regAt off) = some v) :
    performRead off width (s.observe (.hostRead off v)) =
      .next ((s.observe (.hostRead off v)).observe (.hostRead off v)) :=
  performRead_eq_next.mpr ⟨hl, v, by rw [readReg_observe, hv], rfl⟩

/-- A write to CMD is the issue of a command. -/
theorem performWrite_of_cmd {off : BitVec 12} (h : regAt off = .cmd) (v : Word) (s : State) :
    performWrite off v s = issueCommand v s := if_pos h

/-- A write to any other register is the store of its value. -/
theorem performWrite_of_ne_cmd {off : BitVec 12} (h : regAt off ≠ .cmd) (v : Word) (s : State) :
    performWrite off v s = .next (storeReg (regAt off) v s) := if_neg h

/-- Settles O52: a read answers by `performRead_eq_next` and again by `performRead_observe_hostRead`; a
write is issued or stored as the offset's register says, and `Mem.get_write` is the frame of a buffer. -/
theorem onlyCommandWritesHaveSideEffects : Obligations.OnlyCommandWritesHaveSideEffects := by
  refine ⟨?read, ?write, Mem.get_write, fun s v => performWrite_of_cmd (by decide) v s⟩
  case read =>
    intro s t off width h
    obtain ⟨hl, v, hv, rfl⟩ := performRead_eq_next.mp h
    exact ⟨v, rfl, performRead_observe_hostRead hl hv⟩
  case write =>
    intro s off v h
    rw [performWrite_of_ne_cmd h]
    cases regAt off <;> rfl

end Sys2Proof.Machine

/-! ## Proofs: the formats of the command words (30_encoding.md R80 to R84, R86)

The list `formats` is the opcode map with the operand bits of its masks, so that a legal word is one with
a row's opcode, no 1 in a reserved bit and operands that are well formed; and the two halves of a mask are
looked at apart, the opcode's eight bits and the 24 operand bits. -/

namespace Sys2Proof

open Sys2Proof.Safety

/-- A word is read with the format of the command it decodes to (R83). -/
theorem operands_of_decode {w : Word} {i : Instr} (h : decode w = .ok i) :
    i = operands (Laws.LegalWord.opcode i) w := by
  obtain ⟨op, -, -, rfl⟩ := decode_eq_ok h
  cases op <;> rfl

/-- The operand bits of a format: `legal_mask` without the opcode's bits (R86). -/
def Opcode.operandBits (op : Opcode) : Word := legalMask op &&& 0x00FFFFFF

/-- `legal_mask(OPC)` is the opcode's bits and the operand bits (R86). -/
theorem legalMask_eq_or_operandBits (op : Opcode) : legalMask op = 0xFF000000 ||| op.operandBits := by
  cases op <;> rfl

/-- The rows of `formats` are the opcodes with their operand bits (R82). -/
theorem mem_formats {p : Byte × Word} : p ∈ formats ↔ ∃ op : Opcode, p = (op.bits, op.operandBits) := by
  constructor
  · intro h
    fin_cases h
    exacts [⟨.crcInit, rfl⟩, ⟨.crcByte, rfl⟩, ⟨.crcBuf, rfl⟩, ⟨.encRaw, rfl⟩, ⟨.encWords, rfl⟩,
      ⟨.decodeBuf, rfl⟩, ⟨.openLine, rfl⟩, ⟨.closeLine, rfl⟩, ⟨.xfer, rfl⟩]
  · rintro ⟨op, rfl⟩
    cases op <;> decide

/-- No two opcodes have one number (R82). -/
theorem Opcode.bits_injective : Function.Injective Opcode.bits := by
  intro op op' h
  simpa [opcodeOf_bits] using congrArg opcodeOf h

/-- No opcode has two formats (R82). -/
theorem formats_inj {p q : Byte × Word} (hp : p ∈ formats) (hq : q ∈ formats) (h : p.1 = q.1) : p = q := by
  obtain ⟨op, rfl⟩ := mem_formats.mp hp
  obtain ⟨op', rfl⟩ := mem_formats.mp hq
  rw [Opcode.bits_injective h]

/-- The operands of a word are well formed unless it is OPEN's and a field value is illegal (R84). -/
theorem wellFormed_operands_iff (op : Opcode) (w : Word) :
    WellFormed (operands op w) = true ↔
      (op.bits = 0x30 → (w.extractLsb' 0 3).toNat ≤ 4 ∧ (w.extractLsb' 4 2).toNat ≤ 2) := by
  cases op
  case openLine => simp [operands, WellFormed, legalBaud, legalParity, Opcode.bits]
  all_goals simp [operands, WellFormed, Opcode.bits]

/-- A legal word in the decoder's own terms (R86). -/
theorem legalWord_iff {w : Word} :
    LegalWord w ↔ ∃ op : Opcode, w.extractLsb' 24 8 = op.bits ∧ w &&& ~~~(legalMask op) = 0#32 ∧
      WellFormed (operands op w) = true := by
  simp only [wellFormed_operands_iff, legalMask_eq_or_operandBits]
  constructor
  · rintro ⟨p, hp, h⟩
    obtain ⟨op, rfl⟩ := mem_formats.mp hp
    exact ⟨op, h⟩
  · rintro ⟨op, h⟩
    exact ⟨_, mem_formats.mpr ⟨op, rfl⟩, h⟩

/-- The legal words are those that decode to a well-formed command (R86). -/
theorem decodes_wellFormed_iff_legalWord (w : Word) :
    (∃ i, decode w = .ok i ∧ WellFormed i = true) ↔ LegalWord w := by
  rw [legalWord_iff]
  constructor
  · rintro ⟨i, hi, hwf⟩
    obtain ⟨op, hop, hm, rfl⟩ := decode_eq_ok hi
    exact ⟨op, hop, hm, hwf⟩
  · rintro ⟨op, hop, hm, hwf⟩
    exact ⟨_, decode_of_legal hop hm, hwf⟩

/-- Two concatenations with fields of the same widths are equal field by field. -/
theorem append_inj_iff {v w : Nat} {x x' : BitVec v} {y y' : BitVec w} :
    x ++ y = x' ++ y' ↔ x = x' ∧ y = y' := by
  constructor
  · intro h
    have hx := congrArg (BitVec.extractLsb' w v) h
    have hy := congrArg (BitVec.extractLsb' 0 w) h
    simp only [BitVec.extractLsb'_append_eq_left, BitVec.extractLsb'_append_eq_right] at hx hy
    exact ⟨hx, hy⟩
  · rintro ⟨rfl, rfl⟩
    rfl

/-- A command word is its opcode and 24 operand bits (R80). -/
theorem exists_eq_opcode_append (w : Word) : ∃ (b : Byte) (x : BitVec 24), w = b ++ x :=
  ⟨w.extractLsb' 24 8, w.extractLsb' 0 24, (BitVec.extractLsb'_append_extractLsb' (w := 8) (len := 24)).symm⟩

/-- An opcode at its place in the word (R80). -/
theorem setWidth_shiftLeft_eq_append (b : Byte) : b.setWidth 32 <<< 24 = b ++ 0#24 := by
  simpa using (BitVec.setWidth_append_eq_shiftLeft_setWidth_or (b := b) (b' := 0#24) (w'' := 32)).symm

/-- The operand bits of a format leave the opcode's bits free (R81). -/
theorem operandBits_eq_append {p : Byte × Word} (hp : p ∈ formats) :
    p.2 = 0#8 ++ p.2.setWidth 24 := by
  obtain ⟨op, rfl⟩ := mem_formats.mp hp
  cases op <;> rfl

/-- `mask` and `match` of a row say what its opcode and its reserved bits say (R86): the mask keeps the
opcode's bits whole, and of the operand bits the reserved ones. -/
theorem opcode_and_reserved_iff_match (w : Word) (b : Byte) (m : BitVec 24) :
    (w.extractLsb' 24 8 = b ∧ w &&& ~~~(0xFF000000 ||| (0#8 ++ m)) = 0) ↔
      w &&& ~~~(0#8 ++ m) = b.setWidth 32 <<< 24 := by
  obtain ⟨c, x, rfl⟩ := exists_eq_opcode_append w
  have hres : ~~~(0xFF000000 ||| (0#8 ++ m)) = 0#8 ++ ~~~m := by
    rw [show (0xFF000000 : Word) = 0xFF#8 ++ 0#24 by rfl, BitVec.or_append, BitVec.not_append,
      BitVec.zero_or]
    rfl
  rw [hres, setWidth_shiftLeft_eq_append, show (0 : Word) = 0#8 ++ 0#24 by rfl, BitVec.not_append,
    BitVec.and_append, BitVec.and_append, append_inj_iff, append_inj_iff,
    BitVec.extractLsb'_append_eq_left, BitVec.not_zero, BitVec.and_allOnes, BitVec.and_zero]
  simp

end Sys2Proof

/-! ## Proofs: what an illegal command word does (30_encoding.md R84 to R86) -/

namespace Sys2Proof.Machine

open Sys2Proof.Safety

/-- `raise E` by an idle block changes the report only (R203). -/
theorem accept_finish_of_idle {s : State} (h : s.phase = .idle) (code : ErrCode) :
    s.accept.finish code = { s with done := true, err := code != .none, errcode := code } := by
  simp [State.accept, State.finish, h]

/-- BAUDSEL selects a baud exactly where its value is legal (R84, R89). -/
theorem baudOf_eq_none_iff (b : BitVec 3) : baudOf b = none ↔ legalBaud b = false := by
  revert b
  decide

/-- PARITY selects a parity exactly where its value is legal (R84, R89). -/
theorem parityOf_eq_none_iff (p : BitVec 2) : parityOf p = none ↔ legalParity p = false := by
  revert p
  decide

/-- OPEN with an illegal field is BAD_COMMAND (R84, R140). -/
theorem execOpen_of_illegal {baud : BitVec 3} {parity : BitVec 2}
    (h : legalBaud baud = false ∨ legalParity parity = false) (s : State) :
    execOpen baud parity s = .next (s.finish .badCommand) := by
  rw [← baudOf_eq_none_iff, ← parityOf_eq_none_iff] at h
  unfold execOpen
  rcases h with h | h
  · rw [h]
  · rw [h]
    cases baudOf baud <;> rfl

/-- A command with an illegal field value is BAD_COMMAND (R84): it can only be OPEN. -/
theorem exec_of_not_wellFormed {i : Instr} (h : WellFormed i = false) (s : State) :
    exec i s = .next (s.finish .badCommand) := by
  cases i
  case openLine baud parity => exact execOpen_of_illegal (Bool.and_eq_false_iff.mp h) s
  all_goals cases h

/-- Every word that is not legal is accepted and completes with BAD_COMMAND (R84, R85, R86): it does not
decode, or it decodes to a command with an illegal field value. -/
theorem issueCommand_of_not_legalWord {w : Word} (h : ¬ LegalWord w) (s : State) :
    issueCommand w s = .next (s.accept.finish .badCommand) := by
  rcases issueCommand_cases w s with ⟨i, hi, hexec⟩ | ⟨-, hbad⟩
  · have hwf : WellFormed i = false := by
      by_contra hwf
      exact h ((decodes_wellFormed_iff_legalWord w).mp ⟨i, hi, by simpa using hwf⟩)
    rw [hexec, exec_of_not_wellFormed hwf]
  · exact hbad

/-- On an idle block such a word changes the report only (R84, R85). -/
theorem issueCommand_of_not_legalWord_idle {w : Word} {s : State} (h : ¬ LegalWord w)
    (hidle : s.phase = .idle) :
    issueCommand w s = .next { s with done := true, err := true, errcode := .badCommand } := by
  rw [issueCommand_of_not_legalWord h, accept_finish_of_idle hidle]
  rfl

/-- A legal word has an allocated opcode (R82, R85). -/
theorem opcode_mem_of_legalWord {w : Word} (h : LegalWord w) :
    w.extractLsb' 24 8 ∈ [0x01, 0x02, 0x03, 0x10, 0x11, 0x20, 0x30, 0x31, (0x32 : Byte)] := by
  obtain ⟨p, hp, hop, -⟩ := h
  rw [hop]
  exact List.mem_map_of_mem (f := Prod.fst) hp

/-- A legal word has no 1 in a bit that the format of its opcode marks 0 (R84). -/
theorem reserved_eq_zero_of_legalWord {w : Word} (h : LegalWord w) {p : Byte × Word}
    (hp : p ∈ formats) (hop : w.extractLsb' 24 8 = p.1) :
    w &&& (0x00FFFFFF &&& ~~~p.2) = 0 := by
  obtain ⟨q, hq, hoq, hres, -⟩ := h
  obtain rfl : q = p := formats_inj hq hp (hoq.symm.trans hop)
  rwa [BitVec.not_or] at hres

/-- A legal OPEN has legal field values (R84). -/
theorem fields_of_legalWord_open {w : Word} (h : LegalWord w) (hop : w.extractLsb' 24 8 = 0x30) :
    (w.extractLsb' 0 3).toNat ≤ 4 ∧ (w.extractLsb' 4 2).toNat ≤ 2 := by
  obtain ⟨q, -, hoq, -, hfields⟩ := h
  exact hfields (hoq.symm.trans hop)

/-- Settles O5: a word with an unallocated opcode is not legal. -/
theorem unallocatedOpcodesAreBadCommand : Obligations.UnallocatedOpcodesAreBadCommand :=
  fun _ _ hop hidle =>
    issueCommand_of_not_legalWord_idle (fun hlegal => hop (opcode_mem_of_legalWord hlegal)) hidle

/-- Settles O6: a word with a reserved bit set, or of OPEN with an illegal field, is not legal. -/
theorem reservedBitsAndIllegalFieldsAreBadCommand :
    Obligations.ReservedBitsAndIllegalFieldsAreBadCommand := by
  intro w s hidle h
  refine issueCommand_of_not_legalWord_idle (fun hlegal => ?_) hidle
  rcases h with ⟨p, hp, hop, hres⟩ | ⟨hop, hfield⟩
  · exact hres (reserved_eq_zero_of_legalWord hlegal hp hop)
  · have := fields_of_legalWord_open hlegal hop
    omega

/-- Settles O7: decoding and the value checks are legality, every other word is BAD_COMMAND, and a row's
`mask` and `match` are its opcode and reserved bits, looked at in two halves. -/
theorem decodingAcceptsExactlyTheLegalWords : Obligations.DecodingAcceptsExactlyTheLegalWords := by
  refine ⟨decodes_wellFormed_iff_legalWord, fun w s h => issueCommand_of_not_legalWord h s, ?_⟩
  intro w p hp
  rw [operandBits_eq_append hp]
  exact opcode_and_reserved_iff_match w p.1 _

end Sys2Proof.Machine

/-! ## Proofs: the operands of the command words (30_encoding.md R83) -/

namespace Sys2Proof.Machine

/-- A field of a field is a field of the word. -/
theorem extractLsb'_extractLsb'_of_add_le {w : Nat} (x : BitVec w) {start len start' len' : Nat}
    (h : start' + len' ≤ len) :
    (x.extractLsb' start len).extractLsb' start' len' = x.extractLsb' (start + start') len' := by
  ext i hi
  simp [Nat.add_assoc, show start' + i < len by omega]

/-- The lowest field of a word as a number. -/
theorem lowField_toNat (w : Word) (len : Nat) : (w.extractLsb' 0 len).toNat = w.toNat % 2 ^ len := by
  rw [field_toNat, Nat.pow_zero, Nat.div_one]

/-- A flag of a word as a number. -/
theorem getLsbD_eq_true_iff (w : Word) (i : Nat) : w.getLsbD i = true ↔ w.toNat / 2 ^ i % 2 = 1 := by
  simp [BitVec.getLsbD, Nat.testBit_eq_decide_div_mod_eq]

/-- `SEL` 1 selects RXBUF (R83, R104). -/
theorem selOf_eq_rx_iff (b : Bool) : selOf b = .rx ↔ b = true := by
  cases b <;> decide

/-- The payload stands in the frame from its third byte on (R110). -/
theorem build_getElem?_payload (p : Params) (addr fc : Byte) {payload : List Byte} {i : Nat}
    (h : i < payload.length) : (build p addr fc payload)[i + 2]? = payload[i]? := by
  simp [build, List.getElem?_append_left, h]

/-- The payload of ENC_WORDS is the bytes of ARG, the highest first (R83, R112). -/
theorem argHalves_eq_argBytes (s : State) :
    bigEndian (argHi s) ++ bigEndian (argLo s) =
      [s.arg.extractLsb' 24 8, s.arg.extractLsb' 16 8, s.arg.extractLsb' 8 8, s.arg.extractLsb' 0 8] := by
  simp [bigEndian, argHi, argLo, extractLsb'_extractLsb'_of_add_le]

/-- TXBUF after ENC_WORDS holds the bytes of ARG at indexes 2 to 5 (R83, R112). -/
theorem get_encWords_payload (s : State) (addr fc : Byte) (i : Nat) (h : i < 4) :
    (s.txbuf.writeBytes 0 (build s.cfg addr fc (bigEndian (argHi s) ++ bigEndian (argLo s)))).get (i + 2) =
      [s.arg.extractLsb' 24 8, s.arg.extractLsb' 16 8, s.arg.extractLsb' 8 8, s.arg.extractLsb' 0 8][i]? := by
  rw [argHalves_eq_argBytes, Mem.get_writeBytes, if_pos (by simp [build]; omega), Nat.sub_zero,
    build_getElem?_payload _ _ _ (by simpa using h)]

/-- Settles O4: a word is read with its command's format (`operands_of_decode`), each of whose fields is a
quotient and remainder of the word (`field_toNat`); ENC_WORDS puts the bytes of ARG after the header. -/
theorem operandFieldsAreTheWordsBits : Obligations.OperandFieldsAreTheWordsBits := by
  refine ⟨fun w => ⟨?crcByte, ?crcBuf, ?encRaw, ?encWords, ?openLine, ?xfer⟩, ?payload⟩
  case crcByte =>
    intro b h
    cases operands_of_decode h
    exact lowField_toNat w 8
  case crcBuf =>
    intro sel n h
    cases operands_of_decode h
    exact ⟨(selOf_eq_rx_iff _).trans (getLsbD_eq_true_iff w 16), lowField_toNat w 9⟩
  case encRaw =>
    intro n addr fc h
    cases operands_of_decode h
    exact ⟨field_toNat w 16 8, field_toNat w 8 8, lowField_toNat w 8⟩
  case encWords =>
    intro addr fc h
    cases operands_of_decode h
    exact ⟨field_toNat w 8 8, lowField_toNat w 8⟩
  case openLine =>
    intro baud parity h
    cases operands_of_decode h
    exact ⟨field_toNat w 4 2, lowField_toNat w 3⟩
  case xfer =>
    intro e h
    cases operands_of_decode h
    simpa using getLsbD_eq_true_iff w 0
  case payload =>
    intro s addr fc
    have hget := get_encWords_payload s addr fc
    exact ⟨_, rfl, hget 0 (by decide), hget 1 (by decide), hget 2 (by decide), hget 3 (by decide)⟩

end Sys2Proof.Machine

/-! ## Proofs: the CRC as a fold and its laws (40_crc.md R100, R101, R105)

The eight shifts are an iterate and `crc16` is a left fold. A byte equal to the accumulator's low byte
clears it, so its eight shifts meet no 1 and only move the high byte down: two such bytes leave 0. With bit 15
in the polynomial a shift can be undone, since the bit it drops shows in bit 15; so a difference in the
accumulator stays a difference. -/

namespace Sys2Proof.Machine

/-- The shifts of R101 are one shift iterated. -/
theorem crcShifts_eq_iterate (p : Params) (n : Nat) (acc : Half) :
    crcShifts p n acc = (crcShift p)^[n] acc := by
  induction n generalizing acc with
  | zero => rfl
  | succ n ih => exact ih (crcShift p acc)

/-- The fold over the bytes is the library's (R100). -/
theorem crcFold_eq_foldl (p : Params) (acc : Half) (bs : List Byte) :
    crcFold p acc bs = bs.foldl (crcStep p) acc := by
  induction bs generalizing acc with
  | nil => rfl
  | cons b bs ih => exact ih (crcStep p acc b)

/-- `crc16` is the left fold of `crc_step` from CRC_INIT (R100). -/
theorem crc16_eq_foldl (p : Params) (bs : List Byte) : crc16 p bs = bs.foldl (crcStep p) p.crcInit :=
  crcFold_eq_foldl p p.crcInit bs

/-- R105, composition. -/
theorem crc16_append (p : Params) (a b : List Byte) :
    crc16 p (a ++ b) = b.foldl (crcStep p) (crc16 p a) := by
  simp only [crc16_eq_foldl, List.foldl_append]

/-- The worked example of R100 and R103. -/
theorem crc16_request : crc16 params [0x01, 0x03, 0x00, 0x01, 0x00, 0x02] = 0xCB95 := by decide +kernel

/-- The worked example of R104. -/
theorem crc16_response : crc16 params [0x01, 0x03, 0x04, 0x00, 0x0A, 0x00, 0x0B] = 0xF69B := by
  decide +kernel

/-- A shift that drops a 0 is a plain shift. -/
theorem crcShift_of_low_false (p : Params) {acc : Half} (h : acc.getLsbD 0 = false) :
    crcShift p acc = acc >>> 1 := by
  rw [crcShift, h, if_neg Bool.false_ne_true]

/-- Shifts that drop only zeros are a plain shift. -/
theorem crcShifts_of_low_false (p : Params) {n : Nat} {acc : Half}
    (h : ∀ i < n, acc.getLsbD i = false) : crcShifts p n acc = acc >>> n := by
  induction n generalizing acc with
  | zero => rfl
  | succ n ih =>
    have hrest : ∀ i < n, (acc >>> 1).getLsbD i = false := by
      intro i hi
      rw [BitVec.getLsbD_ushiftRight]
      exact h (1 + i) (by omega)
    rw [crcShifts, crcShift_of_low_false p (h 0 (by omega)), ih hrest, ← BitVec.shiftRight_add,
      Nat.add_comm]

/-- Stepping over the accumulator's own low byte leaves its high byte, moved down (R101). -/
theorem crcStep_crcLow (p : Params) (acc : Half) : crcStep p acc (crcLow acc) = acc >>> 8 := by
  have hlow : ∀ i < 8, (acc ^^^ (crcLow acc).setWidth 16).getLsbD i = false := by
    intro i hi
    simp [crcLow, hi, show i < 16 by omega]
  rw [crcStep, crcShifts_of_low_false p hlow]
  ext i hi
  simp [crcLow]

/-- The high byte is the low byte of what is left. -/
theorem crcHigh_eq_crcLow_shift (acc : Half) : crcHigh acc = crcLow (acc >>> 8) := by
  ext i hi
  simp [crcHigh, crcLow]

/-- R105, zero residue: the CRC's own bytes, low byte first, shift it out. -/
theorem crc16_append_own_crc (p : Params) (bs : List Byte) :
    crc16 p (bs ++ [crcLow (crc16 p bs), crcHigh (crc16 p bs)]) = 0x0000 := by
  simp only [crc16_append, List.foldl_cons, List.foldl_nil, crcStep_crcLow, crcHigh_eq_crcLow_shift,
    ← BitVec.shiftRight_add]
  exact BitVec.ushiftRight_eq_zero (by decide)

/-- With bit 15 in the polynomial, bit 15 after a shift is the bit the shift dropped (R101). -/
theorem getLsbD_crcShift_15 {p : Params} (hp : p.crcPoly.getLsbD 15 = true) (acc : Half) :
    (crcShift p acc).getLsbD 15 = acc.getLsbD 0 := by
  unfold crcShift
  cases h : acc.getLsbD 0 <;> simp [hp]

/-- Undoing a shift whose dropped bit is known. -/
theorem ushiftRight_one_xor_of_crcShift (p : Params) (acc : Half) :
    acc >>> 1 = crcShift p acc ^^^ if acc.getLsbD 0 then p.crcPoly else 0 := by
  unfold crcShift
  cases acc.getLsbD 0 <;> simp

/-- The dropped bit shows in bit 15, so a shift loses nothing. -/
theorem crcShift_injective {p : Params} (hp : p.crcPoly.getLsbD 15 = true) :
    Function.Injective (crcShift p) := by
  intro x y h
  have hlow : x.getLsbD 0 = y.getLsbD 0 := by
    rw [← getLsbD_crcShift_15 hp, ← getLsbD_crcShift_15 hp, h]
  have hhigh : x >>> 1 = y >>> 1 := by
    rw [ushiftRight_one_xor_of_crcShift p x, ushiftRight_one_xor_of_crcShift p y, h, hlow]
  apply BitVec.eq_of_getLsbD_eq
  intro i _
  cases i with
  | zero => exact hlow
  | succ i => simpa [Nat.add_comm] using congrArg (·.getLsbD i) hhigh

theorem crcShifts_injective {p : Params} (hp : p.crcPoly.getLsbD 15 = true) (n : Nat) :
    Function.Injective (crcShifts p n) := by
  rw [funext (crcShifts_eq_iterate p n)]
  exact (crcShift_injective hp).iterate n

/-- Over one byte, different accumulators stay different. -/
theorem crcStep_injective_acc {p : Params} (hp : p.crcPoly.getLsbD 15 = true) (b : Byte) :
    Function.Injective (crcStep p · b) := by
  intro x y h
  simpa using crcShifts_injective hp 8 h

/-- Different bytes take one accumulator to different ones. -/
theorem crcStep_injective_byte {p : Params} (hp : p.crcPoly.getLsbD 15 = true) (acc : Half) :
    Function.Injective (crcStep p acc) := by
  intro b c h
  have hw : b.setWidth 16 = c.setWidth 16 := by simpa using crcShifts_injective hp 8 h
  simpa using congrArg (BitVec.setWidth 8) hw

/-- Over the same bytes, different accumulators stay different. -/
theorem foldl_crcStep_injective {p : Params} (hp : p.crcPoly.getLsbD 15 = true) (bs : List Byte) :
    Function.Injective (bs.foldl (crcStep p)) := by
  induction bs with
  | nil => exact Function.injective_id
  | cons b bs ih => exact ih.comp (crcStep_injective_acc hp b)

/-- R105, single-byte change. -/
theorem crc16_ne_of_byte_ne {p : Params} (hp : p.crcPoly.getLsbD 15 = true) (front back : List Byte)
    {b c : Byte} (h : b ≠ c) : crc16 p (front ++ b :: back) ≠ crc16 p (front ++ c :: back) := by
  rw [crc16_append, crc16_append]
  intro he
  exact h (crcStep_injective_byte hp _ (foldl_crcStep_injective hp back he))

/-- Settles O11: composition is that of folds, the CRC's own bytes shift it out, and one shift, hence every
step, is injective when the polynomial has bit 15. -/
theorem crcLaws : Obligations.CrcLaws :=
  ⟨crc16_append, crc16_append_own_crc, rfl,
    fun _ front back _ _ hp h => crc16_ne_of_byte_ne hp front back h, by decide⟩

/-- Settles O9: the eight shifts are `crcShift`, the rule's own, iterated. -/
theorem crcStepIsTheBitwiseAlgorithm : Obligations.CrcStepIsTheBitwiseAlgorithm := by
  refine ⟨fun p acc b => crcShifts_eq_iterate p 8 _, rfl, ?_, ?_, ?_⟩ <;> decide

/-- Settles O10: the fold is the library's `foldl`. -/
theorem crcSixteenFoldsFromFFFF : Obligations.CrcSixteenFoldsFromFFFF :=
  ⟨crc16_eq_foldl, rfl, crc16_request, by decide +kernel⟩

end Sys2Proof.Machine

/-! ## Proofs: the commands of the CRC generator (40_crc.md R102 to R104)

Each is a write of ACC and a completion; its word is told from the illegal ones by its format's reserved
bits. -/

namespace Sys2Proof.Machine

open Sys2Proof.Safety

/-- A performed write of a word that decodes runs its command (R64, R204). -/
theorem issueCommand_of_decode {w : Word} {i : Instr} (h : decode w = .ok i) (s : State) :
    issueCommand w s = exec i s.accept := by
  rw [issueCommand, h]

/-- A word with a 1 in a bit its opcode's format marks 0 is BAD_COMMAND and changes the report only (R84). -/
theorem issueCommand_of_reserved {w : Word} {s : State} (op : Opcode) (hidle : s.phase = .idle)
    (hop : w.extractLsb' 24 8 = op.bits) (hres : w &&& (0x00FFFFFF &&& ~~~op.operandBits) ≠ 0) :
    issueCommand w s = .next { s with done := true, err := true, errcode := .badCommand } :=
  reservedBitsAndIllegalFieldsAreBadCommand w s hidle (.inl ⟨_, mem_formats.mpr ⟨op, rfl⟩, hop, hres⟩)

/-- A command that only writes ACC, on an idle block, changes ACC and the report (R203). -/
theorem accept_setAcc_finish_of_idle {s : State} (h : s.phase = .idle) (a : Half) :
    (s.accept.setAcc a).finish .none =
      { s with acc := a, done := true, err := false, errcode := .none } :=
  accept_finish_of_idle (s := s.setAcc a) h .none

/-- A word without operand bits is its opcode. -/
theorem eq_opcode_append_zero {w : Word} {b : Byte} (hop : w.extractLsb' 24 8 = b)
    (h : w &&& 0x00FFFFFF = 0) : w = b ++ 0#24 := by
  obtain ⟨c, x, rfl⟩ := exists_eq_opcode_append w
  rw [show (0x00FFFFFF : Word) = 0#8 ++ BitVec.allOnes 24 by rfl, show (0 : Word) = 0#8 ++ 0#24 by rfl,
    BitVec.and_append, append_inj_iff, BitVec.and_allOnes] at h
  rw [← hop, BitVec.extractLsb'_append_eq_left, h.2]

/-- Settles O12: CRC_INIT writes ACC, and a second word with its opcode has a 1 in a reserved bit. -/
theorem crcInitSetsTheAccumulator : Obligations.CrcInitSetsTheAccumulator := by
  refine ⟨fun s => ⟨rfl, fun hidle => ⟨?legal, fun w hop hne => ?illegal⟩⟩, rfl⟩
  case legal =>
    rw [issueCommand_of_decode (i := .crcInit) (by decide)]
    exact congrArg _ (accept_setAcc_finish_of_idle hidle _)
  case illegal =>
    exact issueCommand_of_reserved .crcInit hidle hop fun h => hne (eq_opcode_append_zero hop h)

/-- The word of CRC_BYTE decodes to it (R83). -/
theorem decode_crcByte_word (b : Byte) : decode (0x02000000 ||| b.setWidth 32) = .ok (.crcByte b) := by
  have hw : 0x02000000 ||| b.setWidth 32 = encode (.crcByte b) :=
    (BitVec.setWidth_append_eq_shiftLeft_setWidth_or (b := 0x02#8 ++ 0#16) (b' := b) (w'' := 32)).symm
  obtain ⟨hop, hm⟩ := Laws.LegalWord.crcByte b
  rw [hw, decode_of_legal hop hm]
  exact congrArg (Except.ok ∘ Instr.crcByte) BitVec.extractLsb'_append_eq_right

/-- Settles O13: CRC_BYTE steps ACC; its word decodes to it, and bits 23:8 are its reserved bits. -/
theorem crcByteContinuesTheAccumulator : Obligations.CrcByteContinuesTheAccumulator := by
  refine ⟨fun s b => ⟨rfl, fun hidle => ?word⟩, fun s w hidle hop hres => ?reserved, ?stream⟩
  case word =>
    rw [issueCommand_of_decode (decode_crcByte_word b)]
    exact congrArg _ (accept_setAcc_finish_of_idle hidle _)
  case reserved => exact issueCommand_of_reserved .crcByte hidle hop hres
  case stream => exact (crc16_eq_foldl params _).symm.trans crc16_request

/-- CRC_BUF over written bytes (R104). -/
theorem execCrcBuf_of_holds {sel : BufSel} {n : BitVec 9} {s : State} {bs : List Byte}
    (hn : n.toNat ≤ capOf sel) (hl : bs.length = n.toNat) (hb : Holds (bufOf sel s) 0 bs) :
    execCrcBuf sel n s = .next ((s.setAcc (crc16 s.cfg bs)).finish .none) := by
  rw [execCrcBuf, if_neg (by omega), ← hl, Mem.span_eq_some hb]

/-- CRC_BUF over more bytes than the buffer has (R104). -/
theorem execCrcBuf_of_capOf_lt {sel : BufSel} {n : BitVec 9} {s : State} (h : capOf sel < n.toNat) :
    execCrcBuf sel n s = .next (s.finish .badLength) := if_pos h

/-- CRC_BUF over an unwritten byte (R45, R104). -/
theorem execCrcBuf_of_unwritten {sel : BufSel} {n : BitVec 9} {s : State} (hn : n.toNat ≤ capOf sel)
    (h : ∃ i < n.toNat, (bufOf sel s).get i = none) : execCrcBuf sel n s = .fault .uninitRead := by
  obtain ⟨i, hi, hnone⟩ := h
  have hspan : (bufOf sel s).span 0 n.toNat = none := by
    rw [← Option.not_isSome_iff_eq_none, Mem.span_isSome_iff]
    intro hall
    simpa [hnone] using hall i hi
  rw [execCrcBuf, if_neg (by omega), hspan]

/-- The response of R104's example with its CRC appended leaves 0, which is the zero residue of R105. -/
theorem crc16_response_with_crc :
    crc16 params [0x01, 0x03, 0x04, 0x00, 0x0A, 0x00, 0x0B, 0x9B, 0xF6] = 0x0000 := by
  have h := crc16_append_own_crc params [0x01, 0x03, 0x04, 0x00, 0x0A, 0x00, 0x0B]
  rwa [crc16_response] at h

/-- Settles O14: CRC_BUF by the number of bytes and whether they are written; of its word SEL and N are
the operand bits and the others reserved. -/
theorem crcBufComputesOverTheBuffer : Obligations.CrcBufComputesOverTheBuffer := by
  refine ⟨?written, ?tooLong, ?unwritten, ?empty, rfl, ?word, ?reserved, crc16_response,
    crc16_response_with_crc⟩
  case written =>
    intro sel n s bs hn hl hb
    cases sel <;> exact execCrcBuf_of_holds hn hl hb
  case tooLong =>
    intro sel n s h
    cases sel <;> exact execCrcBuf_of_capOf_lt h
  case unwritten =>
    intro sel n s hn h
    cases sel <;> exact execCrcBuf_of_unwritten hn h
  case empty =>
    intro sel s
    exact execCrcBuf_of_holds (bs := []) (Nat.zero_le _) rfl nofun
  case word =>
    intro w hop hres
    exact decode_of_legal (op := .crcBuf) hop hres
  case reserved =>
    intro s w hidle hop hres
    exact issueCommand_of_reserved .crcBuf hidle hop hres

end Sys2Proof.Machine

/-! ## Proofs: the frame encoder (41_encoder.md R110 to R112)

ENC_WORDS writes a whole frame from index 0 on. ENC_RAW writes only the four bytes around the payload, which
completes the frame because the payload stands at index 2 already. -/

namespace Sys2Proof.Machine

open Sys2Proof.Safety

/-- A frame is four bytes longer than its payload (R110). -/
@[simp] theorem build_length (p : Params) (addr fc : Byte) (payload : List Byte) :
    (build p addr fc payload).length = payload.length + 4 := by
  simp [build]

/-- Settles O15: the equation is `build` itself, and the length is `build_length`. -/
theorem buildAppendsTheCrcLowByteFirst : Obligations.BuildAppendsTheCrcLowByteFirst :=
  fun p addr fc payload => ⟨rfl, build_length p addr fc payload⟩

/-- The read request of the examples of R111 and R112. -/
theorem build_readRequest : build params 0x01 0x03 [0x00, 0x01, 0x00, 0x02] =
    [0x01, 0x03, 0x00, 0x01, 0x00, 0x02, 0x95, 0xCB] := by
  rw [build, crc16_request]
  rfl

/-- The write request of the second example of R112. -/
theorem build_writeRequest : build params 0x01 0x06 [0x00, 0x01, 0x00, 0x03] =
    [0x01, 0x06, 0x00, 0x01, 0x00, 0x03, 0x98, 0x0B] := by
  decide +kernel

/-- Bytes written one after another stand in the buffer. -/
theorem Mem.holds_writeBytes (m : Mem) (start : Nat) (bs : List Byte) :
    Holds (m.writeBytes start bs) start bs := by
  intro i hi
  rw [Mem.get_writeBytes, if_pos (by omega), Nat.add_sub_cancel_left]

/-- Bytes written one after another leave what lies behind them. -/
theorem Mem.get_writeBytes_of_le {start k : Nat} {bs : List Byte} (m : Mem) (h : start + bs.length ≤ k) :
    (m.writeBytes start bs).get k = m.get k := by
  rw [Mem.get_writeBytes, if_neg (by omega)]

/-- A span with an unwritten byte has no value (R45). -/
theorem Mem.span_eq_none {m : Mem} {start count : Nat} (h : ∃ i < count, m.get (start + i) = none) :
    m.span start count = none := by
  obtain ⟨i, hi, hnone⟩ := h
  rw [← Option.not_isSome_iff_eq_none, Mem.span_isSome_iff]
  intro hall
  simpa [hnone] using hall i hi

/-- The four bytes ENC_RAW writes complete the frame around a payload that stands at index 2 (R111). -/
theorem holds_wrapPayload (p : Params) {m : Mem} (addr fc : Byte) {payload : List Byte}
    (h : Holds m 2 payload) :
    Holds (wrapPayload p m payload.length addr fc payload) 0 (build p addr fc payload) := by
  intro i hi
  rw [Nat.zero_add]
  have hbyte : some ((build p addr fc payload).getD i 0) = (build p addr fc payload)[i]? := by
    simp only [List.getD_eq_getElem?_getD, List.getElem?_eq_getElem hi, Option.getD_some]
  simp only [wrapPayload, Mem.get_write]
  split_ifs with hhigh hlow hfc haddr
  · rw [← hhigh, hbyte]
  · rw [← hlow, hbyte]
  · rw [hfc]
    rfl
  · rw [haddr]
    rfl
  · rw [build_length] at hi
    obtain ⟨j, rfl⟩ : ∃ j, i = j + 2 := ⟨i - 2, by omega⟩
    have hj : j < payload.length := by omega
    rw [build_getElem?_payload p addr fc hj, Nat.add_comm, h j hj]

/-- ENC_RAW leaves what lies behind the frame (R111). -/
theorem get_wrapPayload_of_le (p : Params) (m : Mem) {n i : Nat} (addr fc : Byte) (payload : List Byte)
    (h : n + 4 ≤ i) : (wrapPayload p m n addr fc payload).get i = m.get i := by
  obtain ⟨hhigh, hlow, hfc, haddr⟩ : i ≠ 3 + n ∧ i ≠ 2 + n ∧ i ≠ 1 ∧ i ≠ 0 := by omega
  simp only [wrapPayload, Mem.get_write, hhigh, hlow, hfc, haddr, if_false]

/-- ENC_RAW around a written payload (R111). -/
theorem execEncRaw_of_holds {n addr fc : Byte} {s : State} {payload : List Byte} (hn : n.toNat ≤ 252)
    (hl : payload.length = n.toNat) (hp : Holds s.txbuf 2 payload) :
    execEncRaw n addr fc s =
      .next ((s.setTx (wrapPayload s.cfg s.txbuf payload.length addr fc payload)
        (BitVec.ofNat 9 (n.toNat + 4))).finish .none) := by
  rw [execEncRaw, if_neg (by simpa [txCap] using hn), ← hl, Mem.span_eq_some hp]

/-- ENC_RAW of a payload too long for TXBUF (R111). -/
theorem execEncRaw_of_lt {n : Byte} (addr fc : Byte) (s : State) (h : 252 < n.toNat) :
    execEncRaw n addr fc s = .next (s.finish .badLength) := if_pos h

/-- ENC_RAW around an unwritten byte (R45, R111). -/
theorem execEncRaw_of_unwritten {n : Byte} (addr fc : Byte) {s : State} (hn : n.toNat ≤ 252)
    (h : ∃ i < n.toNat, s.txbuf.get (2 + i) = none) : execEncRaw n addr fc s = .fault .uninitRead := by
  rw [execEncRaw, if_neg (by simpa [txCap] using hn), Mem.span_eq_none h]

/-- No bit of ENC_RAW's word is reserved (R81, R111). -/
theorem decode_encRaw_word {w : Word} (hop : w.extractLsb' 24 8 = 0x10) :
    decode w = .ok (.encRaw (w.extractLsb' 16 8) (w.extractLsb' 8 8) (w.extractLsb' 0 8)) :=
  decode_of_legal (op := .encRaw) hop BitVec.and_zero

/-- Settles O16: ENC_RAW by its length and whether the payload is written; the four bytes it writes
complete the frame in place (`holds_wrapPayload`). -/
theorem encRawBuildsAroundThePayload : Obligations.EncRawBuildsAroundThePayload := by
  refine ⟨?written, fun _ => execEncRaw_of_lt, ?unwritten, fun w => decode_encRaw_word, build_readRequest⟩
  case written =>
    intro n addr fc s payload hn hl hp
    exact ⟨_, execEncRaw_of_holds hn hl hp, holds_wrapPayload s.cfg addr fc hp,
      fun i hi => get_wrapPayload_of_le s.cfg s.txbuf addr fc payload (hl ▸ hi)⟩
  case unwritten =>
    intro n addr fc s hn h
    exact execEncRaw_of_unwritten addr fc hn h

/-- ENC_WORDS writes the frame around the bytes of ARG, the highest first (R112). -/
theorem execEncWords_eq (addr fc : Byte) (s : State) :
    execEncWords addr fc s =
      .next ((s.setTx (s.txbuf.writeBytes 0 (build s.cfg addr fc
        [s.arg.extractLsb' 24 8, s.arg.extractLsb' 16 8, s.arg.extractLsb' 8 8,
          s.arg.extractLsb' 0 8])) 8).finish .none) := by
  rw [← argHalves_eq_argBytes, execEncWords]

/-- Settles O17: ENC_WORDS writes its frame byte by byte from index 0 (`execEncWords_eq`); bits 23:16 are
its word's reserved bits. -/
theorem encWordsBuildsFromArg : Obligations.EncWordsBuildsFromArg := by
  refine ⟨?frame, ?word, ?reserved, build_readRequest, build_writeRequest⟩
  case frame =>
    intro addr fc s
    refine ⟨_, execEncWords_eq addr fc s, Mem.holds_writeBytes _ _ _, fun i hi => ?_⟩
    exact Mem.get_writeBytes_of_le _ (by simpa using hi)
  case word =>
    intro w hop hres
    exact decode_of_legal (op := .encWords) hop hres
  case reserved =>
    intro s w hidle hop hres
    exact issueCommand_of_reserved .encWords hidle hop hres

end Sys2Proof.Machine

/-! ## Proofs: the frame decoder (42_decoder.md R120 to R129)

`decode` has four ways out, one equation each: a header that is cut off, a frame shorter than its function
code declares, a frame below MIN_FRAME, and the CRC comparison of a full frame. The first three stop before
the CRC step and leave both CRCs 0. -/

namespace Sys2Proof.Machine

open Sys2Proof.Safety

/-- An unknown function code takes every byte there is (R121, R129). -/
theorem frameLen_of_not_knownFc {fc : Byte} (h : ¬ KnownFc fc) (bc : Byte) (len : Nat) :
    frameLen fc bc len = len := by
  have hd : declaredLen fc bc = none :=
    Option.eq_none_iff_forall_ne_some.mpr fun n hn => h (declaredLen_known.mp ⟨n, hn⟩)
  rw [frameLen, hd, Option.getD_none]

/-- Settles O19: a known function code's length is `declaredLen`'s, an unknown one's is
`frameLen_of_not_knownFc`'s. -/
theorem frameLengthByFunctionCode : Obligations.FrameLengthByFunctionCode := by
  intro fc bc len
  refine ⟨rfl, rfl, rfl, fun h3 h4 h6 => ?_, by omega, by have := bc.isLt; omega⟩
  exact frameLen_of_not_knownFc (by rintro (h | h | h) <;> contradiction) bc len

/-- The verdict of a `decode` that stops before its CRC step: the header bytes there are, and no CRCs
(R124). -/
def stoppedVerdict (code : ErrCode) (bs : List Byte) : Verdict :=
  { code := code, addr := bs.getD 0 0, fc := bs.getD 1 0, bc := bs.getD 2 0, crcRx := 0, crcCalc := 0 }

/-- The pair of bytes at a frame's end, low byte first (R123). -/
def trailingCrc (bs : List Byte) : Half :=
  receivedCrc (bs.getD (frameLenOf bs - 2) 0) (bs.getD (frameLenOf bs - 1) 0)

/-- The CRC of a frame's bytes before its trailing pair (R123). -/
def contentCrc (p : Params) (bs : List Byte) : Half := crc16 p (bs.take (frameLenOf bs - 2))

/-- The verdict of a `decode` that reaches its CRC step (R120). -/
def checkedVerdict (p : Params) (bs : List Byte) : Verdict :=
  { code := if trailingCrc bs = contentCrc p bs then .none else .crcMismatch
    addr := bs.getD 0 0, fc := bs.getD 1 0, bc := bs.getD 2 0
    crcRx := trailingCrc bs, crcCalc := contentCrc p bs }

section Decode

variable {p : Params} {bs : List Byte}

/-- A header that is cut off (R122). -/
theorem decodeFrame_of_length_lt_three (h : bs.length < 3) :
    decodeFrame p bs = stoppedVerdict .shortResponse bs := by
  simp only [decodeFrame, if_pos h, stoppedVerdict]

/-- A frame with fewer bytes than its length (R122). -/
theorem decodeFrame_of_incomplete (h3 : 3 ≤ bs.length) (h : bs.length < frameLenOf bs) :
    decodeFrame p bs = stoppedVerdict .incompleteFrame bs := by
  simp only [frameLenOf] at h
  simp only [decodeFrame, checkFrame, if_neg (Nat.not_lt.mpr h3), if_pos h, stoppedVerdict]

/-- A frame below MIN_FRAME (R122). -/
theorem decodeFrame_of_lt_minFrame (h3 : 3 ≤ bs.length) (hfull : frameLenOf bs ≤ bs.length)
    (h : frameLenOf bs < p.minFrame) : decodeFrame p bs = stoppedVerdict .shortResponse bs := by
  simp only [frameLenOf] at hfull h
  simp only [decodeFrame, checkFrame, if_neg (Nat.not_lt.mpr h3), if_neg (Nat.not_lt.mpr hfull), if_pos h,
    stoppedVerdict]

/-- A frame of full length and at least MIN_FRAME bytes has its CRC checked (R122, R123). -/
theorem decodeFrame_of_full (h3 : 3 ≤ bs.length) (hfull : frameLenOf bs ≤ bs.length)
    (h : p.minFrame ≤ frameLenOf bs) : decodeFrame p bs = checkedVerdict p bs := by
  simp only [frameLenOf] at hfull h
  simp only [decodeFrame, checkFrame, if_neg (Nat.not_lt.mpr h3), if_neg (Nat.not_lt.mpr hfull),
    if_neg (Nat.not_lt.mpr h)]
  rfl

/-- Every `decode` stops with SHORT_RESPONSE or INCOMPLETE_FRAME, or checks the CRC of a full frame (R120). -/
theorem decodeFrame_cases (p : Params) (bs : List Byte) :
    (∃ code, (code = .shortResponse ∨ code = .incompleteFrame) ∧
      decodeFrame p bs = stoppedVerdict code bs) ∨
    (3 ≤ bs.length ∧ frameLenOf bs ≤ bs.length ∧ decodeFrame p bs = checkedVerdict p bs) := by
  rcases Nat.lt_or_ge bs.length 3 with h3 | h3
  · exact .inl ⟨_, .inl rfl, decodeFrame_of_length_lt_three h3⟩
  rcases Nat.lt_or_ge bs.length (frameLenOf bs) with hlen | hfull
  · exact .inl ⟨_, .inr rfl, decodeFrame_of_incomplete h3 hlen⟩
  rcases Nat.lt_or_ge (frameLenOf bs) p.minFrame with hmin | hmin
  · exact .inl ⟨_, .inl rfl, decodeFrame_of_lt_minFrame h3 hfull hmin⟩
  · exact .inr ⟨h3, hfull, decodeFrame_of_full h3 hfull hmin⟩

/-- The CRC step answers NONE or CRC_MISMATCH (R123). -/
theorem checkedVerdict_code (p : Params) (bs : List Byte) :
    (checkedVerdict p bs).code = .none ∨ (checkedVerdict p bs).code = .crcMismatch :=
  ite_eq_or_eq _ _ _

/-- CRC_MISMATCH is answered of a full frame only (R122). -/
theorem full_of_crcMismatch (h : (decodeFrame p bs).code = .crcMismatch) :
    3 ≤ bs.length ∧ frameLenOf bs ≤ bs.length := by
  rcases decodeFrame_cases p bs with ⟨code, hcode, hd⟩ | ⟨h3, hfull, -⟩
  · rw [hd] at h
    rcases hcode with rfl | rfl <;> cases h
  · exact ⟨h3, hfull⟩

/-- Without a CRC step both CRCs are 0 (R124). -/
theorem crcs_eq_zero_of_stopped
    (h : (decodeFrame p bs).code = .shortResponse ∨ (decodeFrame p bs).code = .incompleteFrame) :
    (decodeFrame p bs).crcRx = 0 ∧ (decodeFrame p bs).crcCalc = 0 := by
  rcases decodeFrame_cases p bs with ⟨code, -, hd⟩ | ⟨-, -, hd⟩
  · rw [hd]
    exact ⟨rfl, rfl⟩
  · rw [hd] at h
    rcases checkedVerdict_code p bs with hc | hc <;> simp [hc] at h

/-- A frame of unknown function code is as long as its bytes (R129). -/
theorem frameLenOf_of_not_knownFc (h : ¬ KnownFc (bs.getD 1 0)) : frameLenOf bs = bs.length :=
  frameLen_of_not_knownFc h _ _

/-- With an unknown function code SHORT_RESPONSE is answered exactly below MIN_FRAME (R122). -/
theorem shortResponse_iff_of_not_knownFc (h3 : 3 ≤ bs.length) (hu : ¬ KnownFc (bs.getD 1 0)) :
    (decodeFrame p bs).code = .shortResponse ↔ bs.length < p.minFrame := by
  have hlen := frameLenOf_of_not_knownFc hu
  rcases Nat.lt_or_ge bs.length p.minFrame with hmin | hmin
  · rw [decodeFrame_of_lt_minFrame h3 hlen.le (by omega)]
    exact iff_of_true rfl hmin
  · rw [decodeFrame_of_full h3 hlen.le (by omega)]
    refine iff_of_false ?_ (by omega)
    rcases checkedVerdict_code p bs with hc | hc <;> simp [hc]

end Decode

/-- Settles O20: each check is an equation of `decode`, in their order; at the defaults MIN_FRAME is 5. -/
theorem decodeCheckOrder : Obligations.DecodeCheckOrder := by
  refine ⟨fun p bs => ⟨fun h => ?short, fun h3 _ h => ?incomplete, shortResponse_iff_of_not_knownFc,
    full_of_crcMismatch⟩, fun bs h3 hu => ?defaults, ?exampleFrame⟩
  case short => rw [decodeFrame_of_length_lt_three h, stoppedVerdict]
  case incomplete => rw [decodeFrame_of_incomplete h3 h, stoppedVerdict]
  case defaults =>
    rw [shortResponse_iff_of_not_knownFc h3 hu, show params.minFrame = 5 from rfl]
    omega
  case exampleFrame => rw [decodeFrame_of_incomplete (by decide) (by decide), stoppedVerdict]

/-- A CRC sent low byte first is received as it was (R66, R67). -/
@[simp] theorem receivedCrc_crcLow_crcHigh (c : Half) : receivedCrc (crcLow c) (crcHigh c) = c :=
  BitVec.extractLsb'_append_extractLsb' (w := 8) (len := 8)

/-- A frame that `build` made, long enough and of the length its header declares, decodes to NONE with its
own CRC (R110, R123). -/
theorem decodeFrame_build {p : Params} {addr fc : Byte} {payload : List Byte}
    (hlen : frameLenOf (build p addr fc payload) = payload.length + 4)
    (hmin : p.minFrame ≤ payload.length + 4) :
    decodeFrame p (build p addr fc payload) =
      { code := .none, addr := addr, fc := fc, bc := (build p addr fc payload).getD 2 0
        crcRx := crc16 p (addr :: fc :: payload), crcCalc := crc16 p (addr :: fc :: payload) } := by
  have hcontent : contentCrc p (build p addr fc payload) = crc16 p (addr :: fc :: payload) := by
    rw [contentCrc, hlen, build]
    exact congrArg (crc16 p) (List.take_left' rfl)
  have htrailing : trailingCrc (build p addr fc payload) = crc16 p (addr :: fc :: payload) := by
    rw [trailingCrc, hlen]
    simp [build, List.getD_eq_getElem?_getD]
  rw [decodeFrame_of_full (by simp) (by simp [hlen]) (by omega), checkedVerdict, hcontent, htrailing,
    if_pos rfl]
  rfl

/-- Settles O24: an exception response is the frame `build` makes around its code, and its length is its
number of bytes. -/
theorem unknownFunctionCodesAreAccepted : Obligations.UnknownFunctionCodesAreAccepted := by
  refine ⟨fun _ bc len h => frameLen_of_not_knownFc h bc len, fun p addr fc code hmin hfc => ?_, rfl⟩
  have hu : ¬ KnownFc fc := by
    rcases hfc with rfl | rfl | rfl <;> decide
  exact decodeFrame_build (payload := [code]) (frameLenOf_of_not_knownFc hu) hmin

/-- DECODE of no more bytes than RXBUF has (R125). -/
theorem execDecode_of_le {s : State} (h : s.rxlen.toNat ≤ 260) : execDecode s = decodeReceived s :=
  if_neg (Nat.not_lt.mpr h)

/-- DECODE of more bytes than RXBUF has (R125). -/
theorem execDecode_of_lt {s : State} (h : 260 < s.rxlen.toNat) :
    execDecode s = .next (s.finish .badLength) := if_pos h

/-- Decoding what was received faults where a byte of it is unwritten (R45). -/
theorem decodeReceived_of_unwritten {s : State} (h : ∃ i < s.rxlen.toNat, s.rxbuf.get i = none) :
    decodeReceived s = .fault .uninitRead := by
  rw [decodeReceived, Mem.span_eq_none (by simpa using h)]

/-- The header fields of every verdict are the bytes there are (R124). -/
theorem setResp_decodeFrame (s : State) (p : Params) (bs : List Byte) :
    s.setResp (decodeFrame p bs) =
      { s with
        respAddr := bs.getD 0 0, respFc := bs.getD 1 0, respBc := bs.getD 2 0
        crcRx := (decodeFrame p bs).crcRx, crcCalc := (decodeFrame p bs).crcCalc } := rfl

/-- A completed reception is still in RXBUF and RXLEN, so completing it again changes nothing (R125). -/
theorem decodeReceived_accept {s t : State} (h : decodeReceived s = .next t) :
    t.rxlen = s.rxlen ∧ decodeReceived t.accept = .next t := by
  obtain ⟨bs, hbs, rfl⟩ := decodeReceived_eq_next.mp h
  exact ⟨rfl, decodeReceived_eq_next.mpr ⟨bs, hbs, rfl⟩⟩

/-- The valid response of R123's and R125's examples. -/
theorem decodeFrame_response :
    decodeFrame params [0x01, 0x03, 0x04, 0x00, 0x0A, 0x00, 0x0B, 0x9B, 0xF6] =
      { code := .none, addr := 0x01, fc := 0x03, bc := 0x04, crcRx := 0xF69B, crcCalc := 0xF69B } := by
  have h := decodeFrame_build (p := params) (addr := 0x01) (fc := 0x03)
    (payload := [0x04, 0x00, 0x0A, 0x00, 0x0B]) rfl (by decide)
  rw [build, crc16_response] at h
  exact h

/-- The same response with its byte 4 changed. -/
theorem decodeFrame_changedResponse :
    decodeFrame params [0x01, 0x03, 0x04, 0x00, 0x0B, 0x00, 0x0B, 0x9B, 0xF6] =
      { code := .crcMismatch, addr := 0x01, fc := 0x03, bc := 0x04, crcRx := 0xF69B, crcCalc := 0x36CA } := by
  decide +kernel

/-- Settles O25: DECODE by RXLEN and whether the bytes are written. Its verdict's fields are
`setResp_decodeFrame`; an empty reception is the written case with no bytes; a second word with its opcode has
a 1 in a reserved bit. -/
theorem decodeWritesTheVerdict : Obligations.DecodeWritesTheVerdict := by
  refine ⟨fun s bs hle hl hb => ?written, fun _ _ => crcs_eq_zero_of_stopped,
    fun _ => execDecode_of_lt, fun s hle h => ?unwritten, fun s h => ?empty, fun s t hle h => ?again,
    fun s w hidle hop hne => ?illegal, by decide, decodeFrame_response, decodeFrame_changedResponse⟩
  case written =>
    rw [← setResp_decodeFrame]
    exact (execDecode_of_le hle).trans (decodeReceived_holds hl hb)
  case unwritten => exact (execDecode_of_le hle).trans (decodeReceived_of_unwritten h)
  case empty =>
    exact (execDecode_of_le (by simp [h])).trans (decodeReceived_holds (r := []) (by simp [h]) nofun)
  case again =>
    obtain ⟨hlen, hagain⟩ := decodeReceived_accept h
    exact (execDecode_of_le (by simpa [hlen] using hle)).trans hagain
  case illegal =>
    exact issueCommand_of_reserved .decodeBuf hidle hop fun h => hne (eq_opcode_append_zero hop h)

/-- A host read of a register without a value is the fault (R45). -/
theorem performRead_of_unwritten {off : BitVec 12} {width : Nat} {s : State}
    (hl : legalAccess off width = true) (h : readReg s (regAt off) = none) :
    performRead off width s = .fault .uninitRead := by
  rw [performRead, if_pos hl, h]

/-- RXWORD[k] has a 12-bit offset. -/
theorem toNat_rxword_offset {k : Nat} (hk : k < 128) :
    (BitVec.ofNat 12 (0xA00 + 4 * k)).toNat = 0xA00 + 4 * k := by
  rw [BitVec.toNat_ofNat]
  omega

/-- The place of RXWORD[k] in the window (R33, R60). -/
theorem regAt_rxword {k : Nat} (hk : k < 128) :
    regAt (BitVec.ofNat 12 (0xA00 + 4 * k)) = .rxword k := by
  rw [regAt, toNat_rxword_offset hk, if_neg (by omega), if_neg (by omega), if_neg (by omega),
    if_neg (by omega), if_neg (by omega), if_pos (by omega)]
  congr 1
  omega

/-- A word read of RXWORD[k] is an access of the interface (R62). -/
theorem legalAccess_rxword {k : Nat} (hk : k < 128) :
    legalAccess (BitVec.ofNat 12 (0xA00 + 4 * k)) 4 = true := by
  have haligned : (0xA00 + 4 * k) % 4 = 0 := by omega
  rw [legalAccess, toNat_rxword_offset hk, haligned]
  rfl

/-- A register value as a host word (R67, R128). -/
theorem setWidth_registerValue (high low : Byte) :
    (registerValue high low).setWidth 32 = (high.setWidth 32 <<< 8) ||| low.setWidth 32 :=
  BitVec.setWidth_append_eq_shiftLeft_setWidth_or

/-- RXWORD[k] of two written bytes (R128). -/
theorem rxWord_of_written {s : State} {k : Nat} {high low : Byte}
    (hh : s.rxbuf.get (3 + 2 * k) = some high) (hl : s.rxbuf.get (4 + 2 * k) = some low) :
    rxWord s k = some (registerValue high low) := by
  rw [rxWord, hh, hl]

/-- RXWORD[k] has no value where either byte is unwritten (R128). -/
theorem rxWord_of_unwritten {s : State} {k : Nat}
    (h : s.rxbuf.get (3 + 2 * k) = none ∨ s.rxbuf.get (4 + 2 * k) = none) : rxWord s k = none := by
  unfold rxWord
  rcases h with h | h
  · rw [h]
  · rw [h]
    cases s.rxbuf.get (3 + 2 * k) <;> rfl

/-- Settles O26: the offset is RXWORD[k]'s, whose read is `rxWord` zero-extended. -/
theorem registerValueView : Obligations.RegisterValueView := by
  rintro s k _ hk rfl
  refine ⟨fun high low hh hl => performRead_eq_next.mpr ⟨legalAccess_rxword hk, _, ?value, rfl⟩,
    fun h => performRead_of_unwritten (legalAccess_rxword hk) ?unwritten⟩
  case value =>
    rw [regAt_rxword hk, readReg, rxWord_of_written hh hl, Option.map_some, setWidth_registerValue]
  case unwritten => rw [regAt_rxword hk, readReg, rxWord_of_unwritten h, Option.map_none]

end Sys2Proof.Machine

/-! ## Proofs: line input and the driver enable (43_transport.md R150, R151, R153)

What a Tick leaves alone, in every state: the receive state machine touches neither DE nor the observation,
and the transmitter adds to the observation and keeps the FIFO. -/

namespace Sys2Proof.Machine

open Sys2Proof.Safety

/-- From `s` to `t` nothing changed but what a reception writes (R155 to R165). -/
def ReceiveFrame (s t : State) : Prop :=
  t =
    { s with
      fifo := t.fifo, rxbuf := t.rxbuf, rxlen := t.rxlen, phase := t.phase, deadline := t.deadline,
      need := t.need, done := t.done, err := t.err, errcode := t.errcode, respAddr := t.respAddr,
      respFc := t.respFc, respBc := t.respBc, crcRx := t.crcRx, crcCalc := t.crcCalc }

theorem ReceiveFrame.refl (s : State) : ReceiveFrame s s := rfl

theorem ReceiveFrame.trans {s t u : State} (hst : ReceiveFrame s t) (htu : ReceiveFrame t u) :
    ReceiveFrame s u := by
  unfold ReceiveFrame at *
  rw [htu, hst]

theorem ReceiveFrame.now {s t : State} (h : ReceiveFrame s t) : t.now = s.now := by rw [h]
theorem ReceiveFrame.de {s t : State} (h : ReceiveFrame s t) : t.de = s.de := by rw [h]
theorem ReceiveFrame.trace {s t : State} (h : ReceiveFrame s t) : t.trace = s.trace := by rw [h]

/-- HDR's and BODY's loop only moves bytes (R156, R158). -/
theorem drainTo_shape (limit : Nat) : ∀ (q : List Byte) (s : State),
    drainTo limit q s =
      { s with
        fifo := (drainTo limit q s).fifo, rxbuf := (drainTo limit q s).rxbuf
        rxlen := (drainTo limit q s).rxlen } := by
  intro q
  induction q with
  | nil => intro s; rfl
  | cons b rest ih =>
    intro s
    simp only [drainTo]
    split
    · exact (ih (s.receive b rest)).trans rfl
    · rfl

theorem drainTo_frame (limit : Nat) (q : List Byte) (s : State) : ReceiveFrame s (drainTo limit q s) := by
  unfold ReceiveFrame
  rw [drainTo_shape]

theorem dispatch_frame (fc bc : Byte) (s : State) : ReceiveFrame s (dispatch fc bc s) := by
  unfold dispatch
  split <;> rfl

theorem decodeReceived_frame {s t : State} (h : decodeReceived s = .next t) : ReceiveFrame s t := by
  obtain ⟨bs, -, rfl⟩ := decodeReceived_eq_next.mp h
  rfl

theorem waitFirstStep_frame (s : State) : ReceiveFrame s (waitFirstStep s) := by
  unfold waitFirstStep
  split <;> rfl

/-- What HDR answers: the bytes up to the third have moved, and with the third the header is dispatched
(R156, R157). -/
theorem hdrStep_eq_next {s t : State} (h : hdrStep s = .next t) :
    t = drainTo 3 s.fifo s ∨
      ((drainTo 3 s.fifo s).rxlen = 3 ∧ ∃ fc bc, t = dispatch fc bc (drainTo 3 s.fifo s)) := by
  simp only [hdrStep] at h
  split at h
  · rename_i h3
    split at h
    · cases h
      exact .inr ⟨h3, _, _, rfl⟩
    · cases h
  · cases h
    exact .inl rfl

theorem hdrStep_frame {s t : State} (h : hdrStep s = .next t) : ReceiveFrame s t := by
  have moved := drainTo_frame 3 s.fifo s
  rcases hdrStep_eq_next h with rfl | ⟨-, fc, bc, rfl⟩
  · exact moved
  · exact moved.trans (dispatch_frame fc bc _)

/-- What BODY answers: the bytes up to the declared length have moved, and with the last one the frame is
decoded (R158, R162). -/
theorem bodyStep_eq_next {s t : State} (h : bodyStep s = .next t) :
    t = drainTo s.need s.fifo s ∨ decodeReceived (drainTo s.need s.fifo s) = .next t := by
  simp only [bodyStep] at h
  split at h
  · exact .inr h
  · cases h
    exact .inl rfl

theorem bodyStep_frame {s t : State} (h : bodyStep s = .next t) : ReceiveFrame s t := by
  have moved := drainTo_frame s.need s.fifo s
  rcases bodyStep_eq_next h with rfl | hdec
  · exact moved
  · exact moved.trans (decodeReceived_frame hdec)

theorem drainSilence_frame : ∀ (q : List Byte) (s : State), ReceiveFrame s (drainSilence q s) := by
  intro q
  induction q with
  | nil => intro s; rfl
  | cons b rest ih =>
    intro s
    simp only [drainSilence]
    split
    · rfl
    · have first : ReceiveFrame s (s.receive b rest) := rfl
      exact first.trans (ih _)

theorem silenceStep_frame (s : State) : ReceiveFrame s (silenceStep s) := by
  unfold silenceStep
  split
  · rfl
  · exact drainSilence_frame _ s

theorem phaseStep_frame {s t : State} (h : phaseStep s = .next t) : ReceiveFrame s t := by
  unfold phaseStep at h
  split at h
  · cases h; rfl
  · cases h; rfl
  · cases h; exact waitFirstStep_frame s
  · exact hdrStep_frame h
  · exact bodyStep_frame h
  · cases h; exact silenceStep_frame s

theorem rxLoop_frame (fuel : Nat) : ∀ {s t : State}, rxLoop fuel s = .next t → ReceiveFrame s t := by
  induction fuel with
  | zero => intro s t h; cases h; rfl
  | succ fuel ih =>
    intro s t h
    obtain ⟨u, hu, hloop⟩ := andThen_eq_next.mp h
    have first := phaseStep_frame hu
    split at hloop
    · cases hloop
      exact first
    · exact first.trans (ih hloop)

/-- What the deadline check answers: the wait stands, or it ends with TIMEOUT or with `decode` (R161 to
R163). -/
theorem deadlineCheck_eq_next {s t : State} (h : deadlineCheck s = .next t) :
    t = s ∨ t = s.finish .timeout ∨ decodeReceived s = .next t := by
  unfold deadlineCheck at h
  split at h
  · split at h
    · cases h; exact .inr (.inl rfl)
    · exact .inr (.inr h)
    · exact .inr (.inr h)
    · exact .inr (.inr h)
    · cases h; exact .inl rfl
    · cases h; exact .inl rfl
  · cases h; exact .inl rfl

theorem deadlineCheck_frame {s t : State} (h : deadlineCheck s = .next t) : ReceiveFrame s t := by
  rcases deadlineCheck_eq_next h with rfl | rfl | hdec
  · rfl
  · rfl
  · exact decodeReceived_frame hdec

/-- What the engine answers: nothing in IDLE, a tick of the transmitter in TX, else consumption and the
deadline check (R150). -/
theorem engine_eq_next {s t : State} (h : engine s = .next t) :
    (s.phase = .idle ∧ t = s) ∨ (s.phase = .tx ∧ txTick s = .next t) ∨
      (Receiving s.phase = true ∧ ∃ u, rxConsume s = .next u ∧ deadlineCheck u = .next t) := by
  unfold engine at h
  split at h <;> rename_i hp <;> rw [hp]
  · cases h
    exact .inl ⟨rfl, rfl⟩
  · exact .inr (.inl ⟨rfl, h⟩)
  all_goals exact .inr (.inr ⟨rfl, andThen_eq_next.mp h⟩)

/-- The end of transmission keeps the time, the FIFO, DE and the observation (R154). -/
theorem txComplete_keeps (s : State) :
    s.txComplete.now = s.now ∧ s.txComplete.fifo = s.fifo ∧ s.txComplete.de = s.de ∧
      s.txComplete.trace = s.trace := by
  rcases txComplete_cases s with ⟨-, h⟩ | ⟨-, h⟩ <;> rw [h] <;> exact ⟨rfl, rfl, rfl, rfl⟩

/-- A tick of the transmitter keeps the time, the FIFO and DE, and at most adds to the observation (R152). -/
theorem txTick_keeps {s t : State} (h : txTick s = .next t) :
    t.now = s.now ∧ t.fifo = s.fifo ∧ t.de = s.de ∧ s.trace ⊆ t.trace := by
  rcases txTick_eq_next h with ⟨-, rfl⟩ | ⟨-, b, -, ⟨-, rfl⟩ | ⟨-, rfl⟩⟩
  · exact ⟨rfl, rfl, rfl, List.Subset.refl _⟩
  · exact ⟨rfl, rfl, rfl, List.subset_cons_self _ _⟩
  · obtain ⟨hnow, hfifo, hde, htrace⟩ := txComplete_keeps (s.endChar b)
    exact ⟨hnow, hfifo, hde, htrace ▸ List.subset_cons_self _ _⟩

/-- The engine keeps the time and DE and removes nothing from the observation (R13, R150). -/
theorem engine_keeps {s t : State} (h : engine s = .next t) :
    t.now = s.now ∧ t.de = s.de ∧ s.trace ⊆ t.trace := by
  rcases engine_eq_next h with ⟨-, rfl⟩ | ⟨-, htx⟩ | ⟨-, u, hu, ht⟩
  · exact ⟨rfl, rfl, List.Subset.refl _⟩
  · obtain ⟨hnow, -, hde, htrace⟩ := txTick_keeps htx
    exact ⟨hnow, hde, htrace⟩
  · have frame := (rxLoop_frame 4 hu).trans (deadlineCheck_frame ht)
    exact ⟨frame.now, frame.de, frame.trace ▸ List.Subset.refl _⟩

/-- What the line delivers does not depend on the time. -/
theorem lineInput_fifo_now (input : Option Byte) (s : State) (n : Nat) :
    (lineInput input { s with now := n }).fifo = (lineInput input s).fifo := by
  rw [lineInput_fifo, lineInput_fifo]

/-- A Tick takes one unit of time (R44, R150). -/
theorem tick_now {input : Option Byte} {s t : State} (h : tick input s = .next t) :
    t.now = s.now + 1 := by
  rw [(engine_keeps h).1, beginTick_eq]

/-- A Tick on an idle block (R150). -/
theorem tick_of_idle (input : Option Byte) {s : State} (h : s.phase = .idle) :
    tick input s = .next (beginTick input s) := by
  simp [tick, engine, beginTick_eq, h]

/-- A Tick on a transmitting block (R150). -/
theorem tick_of_tx (input : Option Byte) {s : State} (h : s.phase = .tx) :
    tick input s = txTick (beginTick input s) := by
  simp [tick, engine, beginTick_eq, h]

/-- A byte is pushed on an open line with room for it (R151). -/
theorem lineInput_of_room (b : Byte) {s : State} (ho : s.isOpen = true)
    (hroom : s.fifo.length < Config.fifoCap) :
    lineInput (some b) s = { s with fifo := s.fifo ++ [b] } := if_pos ⟨ho, hroom⟩

/-- A byte is dropped on a closed line or at a full FIFO (R151). -/
theorem lineInput_of_no_room (b : Byte) {s : State}
    (h : s.isOpen = false ∨ Config.fifoCap ≤ s.fifo.length) : lineInput (some b) s = s := by
  refine if_neg fun ⟨ho, hroom⟩ => ?_
  rcases h with hclosed | hfull
  · exact absurd (ho.symm.trans hclosed) nofun
  · omega

/-- Settles O31: line input is the same whatever the phase; an idle Tick is `beginTick` alone, and a tick of
the transmitter keeps the FIFO. -/
theorem lineInputIsPushedOrDropped : Obligations.LineInputIsPushedOrDropped := by
  refine ⟨Nat.succ_pos _, fun b s => lineInput_of_room b, fun b s => lineInput_of_no_room b,
    fun _ => rfl, fun input s hidle => ?idle, fun input s t htx h => ?tx⟩
  case idle => rw [tick_of_idle input hidle, beginTick_eq, lineInput_fifo_now, hidle]; rfl
  case tx =>
    rw [tick_of_tx input htx] at h
    obtain ⟨-, hfifo, -⟩ := txTick_keeps h
    rw [hfifo, beginTick_eq, lineInput_fifo_now]

/-- Settles O32: DE and its entry are written before the engine runs, which keeps both. -/
theorem driverEnableFollowsTransmission : Obligations.DriverEnableFollowsTransmission := by
  refine ⟨fun input s t h => ?_, rfl, resetStep_de⟩
  obtain ⟨-, hde, htrace⟩ := engine_keeps h
  rw [beginTick_eq] at hde htrace
  rw [hde]
  exact ⟨beq_iff_eq, htrace List.mem_cons_self⟩

end Sys2Proof.Machine

/-! ## Proofs: commands complete within their write (43_transport.md R147)

Every command ends with `finish`, but for an accepted XFER, which starts its exchange. -/

namespace Sys2Proof.Machine

/-- `t` is what `finish` leaves of a state in which no time has passed since `s` (R203). -/
def FinishedAt (s t : State) : Prop := ∃ u code, u.now = s.now ∧ t = State.finish u code

theorem finishedAt_finish {s u : State} (code : ErrCode) (h : u.now = s.now) :
    FinishedAt s (u.finish code) := ⟨u, code, h, rfl⟩

/-- What a command answers: it has completed, or it is an accepted XFER (R147). -/
theorem exec_eq_next {i : Instr} {s t : State} (h : exec i s = .next t) :
    FinishedAt s t ∨ ∃ e, i = .xfer e ∧ t = s.startExchange e := by
  cases i with
  | crcInit => cases h; exact .inl (finishedAt_finish _ rfl)
  | crcByte b => cases h; exact .inl (finishedAt_finish _ rfl)
  | crcBuf sel n =>
    rcases execCrcBuf_eq_next h with ⟨-, rfl⟩ | ⟨-, bs, -, rfl⟩ <;>
      exact .inl (finishedAt_finish _ rfl)
  | encRaw n addr fc =>
    rcases execEncRaw_eq_next h with ⟨-, rfl⟩ | ⟨-, payload, -, rfl⟩ <;>
      exact .inl (finishedAt_finish _ rfl)
  | encWords addr fc => cases h; exact .inl (finishedAt_finish _ rfl)
  | decodeBuf =>
    rcases execDecode_eq_next h with ⟨-, rfl⟩ | ⟨-, bs, -, rfl⟩ <;>
      exact .inl (finishedAt_finish _ rfl)
  | openLine baud parity =>
    rcases execOpen_eq_next h with ⟨b, p, -, -, rfl⟩ | ⟨-, rfl⟩ <;>
      exact .inl (finishedAt_finish _ rfl)
  | closeLine => cases h; exact .inl (finishedAt_finish _ rfl)
  | xfer e =>
    rcases execXfer_eq_next h with ⟨-, rfl⟩ | ⟨-, -, rfl⟩ | ⟨-, -, -, rfl⟩
    · exact .inl (finishedAt_finish _ rfl)
    · exact .inl (finishedAt_finish _ rfl)
    · exact .inr ⟨e, rfl, rfl⟩

/-- What an accepted XFER starts: the transmission, the wait for an answer to an empty request, or nothing
(R143, R145). -/
theorem startExchange_cases (s : State) (e : Bool) :
    (s.txlen ≠ 0 ∧ s.startExchange e = (s.beginExchange e).enter .tx) ∨
      (s.txlen = 0 ∧ s.startExchange e =
        (s.beginExchange e).await .waitFirst (tStart s.cfg s.baud)) ∨
      (s.txlen = 0 ∧ s.startExchange e = (s.beginExchange e).finish .none) := by
  unfold State.startExchange
  by_cases hlen : s.txlen = 0
  · rw [if_pos hlen]
    rcases txComplete_cases (s.beginExchange e) with ⟨-, h⟩ | ⟨-, h⟩
    · exact .inr (.inl ⟨hlen, h⟩)
    · exact .inr (.inr ⟨hlen, h⟩)
  · rw [if_neg hlen]
    exact .inl ⟨hlen, rfl⟩

/-- Settles O45: a command has finished or is an accepted XFER (`exec_eq_next`), and acceptance has cleared
the report. -/
theorem commandsCompleteWithinTheirWrite : Obligations.CommandsCompleteWithinTheirWrite := by
  intro s t w _ h
  rcases issueCommand_cases w s with ⟨i, hi, hexec⟩ | ⟨-, hbad⟩
  · rcases exec_eq_next (hexec.symm.trans h) with ⟨u, code, hnow, rfl⟩ | ⟨e, rfl, rfl⟩
    · exact ⟨hnow, fun _ => rfl, fun hbusy => absurd rfl hbusy⟩
    · rcases startExchange_cases s.accept e with ⟨-, hx⟩ | ⟨-, hx⟩ | ⟨-, hx⟩ <;> rw [hx]
      · exact ⟨rfl, nofun, fun _ => ⟨rfl, rfl, rfl, e, hi⟩⟩
      · exact ⟨rfl, nofun, fun _ => ⟨rfl, rfl, rfl, e, hi⟩⟩
      · exact ⟨rfl, fun _ => rfl, fun hbusy => absurd rfl hbusy⟩
  · obtain rfl := Host.Outcome.next.inj (hbad.symm.trans h)
    exact ⟨rfl, fun _ => rfl, fun hbusy => absurd rfl hbusy⟩

end Sys2Proof.Machine

/-! ## Proofs: every exchange ends (43_transport.md R170)

`ticksLeft` is the longest an exchange can still take. Every rule of the receive state machine keeps within
it, the time that passes on a Tick is taken from it, and an exchange that leaves its last phase is
complete. -/

namespace Sys2Proof.Machine

open Sys2Proof.Safety

/-- The longest a reception takes from its complete header on: the body read, or the silence phase, which
starts with 3 bytes and is restarted by each of the 257 that still fit (R157 to R159, R164). -/
def afterHeader (s : State) : Nat := max (tRead s.cfg s.baud) (258 * tSil s.cfg s.baud)

/-- The longest an exchange takes from the end of its transmission on (R154 to R157). -/
def afterTransmission (s : State) : Nat :=
  tStart s.cfg s.baud + (tRead s.cfg s.baud + afterHeader s)

/-- The longest the exchange in flight can still take, in ticks (R170). -/
def ticksLeft (s : State) : Nat :=
  match s.phase with
  | .idle => 0
  | .tx => (s.txlen.toNat - s.txi) * charBits s.cfg s.parity - s.txbit + afterTransmission s
  | .waitFirst => s.deadline - s.now + (tRead s.cfg s.baud + afterHeader s)
  | .hdr => s.deadline - s.now + afterHeader s
  | .body => s.deadline - s.now
  | .silence => s.deadline - s.now + (260 - s.rxlen.toNat) * tSil s.cfg s.baud

section TicksLeft

variable {s : State}

theorem ticksLeft_idle (h : s.phase = .idle) : ticksLeft s = 0 := by
  rw [ticksLeft, h]

theorem ticksLeft_tx (h : s.phase = .tx) :
    ticksLeft s =
      (s.txlen.toNat - s.txi) * charBits s.cfg s.parity - s.txbit + afterTransmission s := by
  rw [ticksLeft, h]

theorem ticksLeft_waitFirst (h : s.phase = .waitFirst) :
    ticksLeft s = s.deadline - s.now + (tRead s.cfg s.baud + afterHeader s) := by
  rw [ticksLeft, h]

theorem ticksLeft_hdr (h : s.phase = .hdr) : ticksLeft s = s.deadline - s.now + afterHeader s := by
  rw [ticksLeft, h]

theorem ticksLeft_body (h : s.phase = .body) : ticksLeft s = s.deadline - s.now := by
  rw [ticksLeft, h]

theorem ticksLeft_silence (h : s.phase = .silence) :
    ticksLeft s = s.deadline - s.now + (260 - s.rxlen.toNat) * tSil s.cfg s.baud := by
  rw [ticksLeft, h]

end TicksLeft

/-- `t` is a completed exchange, or one that still takes at most `n` ticks. -/
structure DoneWithin (n : Nat) (t : State) : Prop where
  done : t.phase = .idle → t.done = true
  left : ticksLeft t ≤ n

theorem DoneWithin.mono {m n : Nat} {t : State} (h : DoneWithin m t) (hle : m ≤ n) : DoneWithin n t :=
  ⟨h.done, h.left.trans hle⟩

/-- A completed command or exchange takes no more ticks (R203). -/
theorem doneWithin_finish (n : Nat) (s : State) (code : ErrCode) : DoneWithin n (s.finish code) :=
  ⟨fun _ => rfl, Nat.zero_le n⟩

theorem doneWithin_decodeReceived (n : Nat) {s t : State} (h : decodeReceived s = .next t) :
    DoneWithin n t := by
  obtain ⟨bs, -, rfl⟩ := decodeReceived_eq_next.mp h
  exact doneWithin_finish n _ _

/-- An exchange in flight, within what it can still take. -/
theorem doneWithin_of_busy {n : Nat} {t : State} (hp : t.phase ≠ .idle) (h : ticksLeft t ≤ n) :
    DoneWithin n t := ⟨fun hidle => absurd hidle hp, h⟩

/-- WAIT_FIRST stays within its bound (R155). -/
theorem waitFirstStep_doneWithin {s : State} (hp : s.phase = .waitFirst) :
    DoneWithin (ticksLeft s) (waitFirstStep s) := by
  unfold waitFirstStep
  split
  · exact doneWithin_of_busy (by simp [hp]) le_rfl
  · refine doneWithin_of_busy nofun ?_
    rw [ticksLeft_waitFirst hp, ticksLeft_hdr rfl]
    simp only [State.await_deadline, State.await_now, Nat.add_sub_cancel_left]
    exact Nat.le_add_left _ _

/-- Dispatch enters BODY or SILENCE with what is left after the header (R157). -/
theorem dispatch_doneWithin (fc bc : Byte) {s : State} (h3 : s.rxlen = 3) :
    DoneWithin (afterHeader s) (dispatch fc bc s) := by
  unfold dispatch
  split
  · refine doneWithin_of_busy nofun ?_
    rw [ticksLeft_body rfl]
    simp [afterHeader]
  · refine doneWithin_of_busy nofun ?_
    have hsilences : tSil s.cfg s.baud + 257 * tSil s.cfg s.baud = 258 * tSil s.cfg s.baud := by omega
    rw [ticksLeft_silence rfl]
    simp [afterHeader, h3, hsilences]

/-- Moving bytes in a phase whose bound does not count them keeps the bound (R156, R158). -/
theorem drainTo_doneWithin (limit : Nat) {s : State} (hp : s.phase = .hdr ∨ s.phase = .body) :
    DoneWithin (ticksLeft s) (drainTo limit s.fifo s) := by
  rw [drainTo_shape]
  rcases hp with hp | hp
  · exact doneWithin_of_busy (by simp [hp]) (Eq.trans_le (ticksLeft_hdr hp) (ticksLeft_hdr hp).ge)
  · exact doneWithin_of_busy (by simp [hp]) (Eq.trans_le (ticksLeft_body hp) (ticksLeft_body hp).ge)

/-- HDR stays within its bound (R156, R157). -/
theorem hdrStep_doneWithin {s t : State} (hp : s.phase = .hdr) (h : hdrStep s = .next t) :
    DoneWithin (ticksLeft s) t := by
  rcases hdrStep_eq_next h with rfl | ⟨h3, fc, bc, rfl⟩
  · exact drainTo_doneWithin 3 (.inl hp)
  · refine (dispatch_doneWithin fc bc h3).mono ?_
    rw [ticksLeft_hdr hp, drainTo_shape]
    exact Nat.le_add_left _ _

/-- BODY stays within its bound (R158). -/
theorem bodyStep_doneWithin {s t : State} (hp : s.phase = .body) (h : bodyStep s = .next t) :
    DoneWithin (ticksLeft s) t := by
  rcases bodyStep_eq_next h with rfl | hdec
  · exact drainTo_doneWithin s.need (.inr hp)
  · exact doneWithin_decodeReceived _ hdec

/-- One byte less fits, and its silence is the one now running. -/
theorem silence_restart {n : BitVec 9} (h : n.toNat < 260) (d : Nat) :
    d + (260 - (n + 1).toNat) * d = (260 - n.toNat) * d := by
  rw [rxlen_succ h, show 260 - n.toNat = 260 - (n.toNat + 1) + 1 by omega, Nat.succ_mul, Nat.add_comm]

/-- SILENCE takes at most one silence for each byte that still fits, and, where no byte waits, the one it
starts (R159, R164). -/
theorem drainSilence_doneWithin : ∀ (q : List Byte) (s : State), s.phase = .silence →
    s.rxlen.toNat ≤ 260 →
    DoneWithin ((if q = [] then tSil s.cfg s.baud else 0) + (260 - s.rxlen.toNat) * tSil s.cfg s.baud)
      (drainSilence q s) := by
  intro q
  induction q with
  | nil =>
    intro s hp _
    refine doneWithin_of_busy (by simp [drainSilence, hp]) (Eq.trans_le (ticksLeft_silence hp) ?_)
    simp [drainSilence]
  | cons b rest ih =>
    intro s hp hl
    by_cases hfull : s.rxlen.toNat = 260
    · rw [drainSilence_full hfull]
      exact doneWithin_finish _ s _
    · have hlt : s.rxlen.toNat < 260 := by omega
      have hreceive := ih (s.receive b rest) hp (by rw [State.receive_rxlen, rxlen_succ hlt]; omega)
      rw [State.receive_rxlen, State.receive_cfg, State.receive_baud] at hreceive
      rw [drainSilence_more hfull, if_neg (List.cons_ne_nil b rest), Nat.zero_add, ← silence_restart hlt]
      refine hreceive.mono (Nat.add_le_add_right ?_ _)
      split
      · exact le_rfl
      · exact Nat.zero_le _

/-- SILENCE stays within its bound (R159). -/
theorem silenceStep_doneWithin {s : State} (hp : s.phase = .silence) (hl : s.rxlen.toNat ≤ 260) :
    DoneWithin (ticksLeft s) (silenceStep s) := by
  unfold silenceStep
  split
  · exact doneWithin_of_busy (by simp [hp]) le_rfl
  · rename_i b rest _
    have hdrain := drainSilence_doneWithin (b :: rest) s hp hl
    rw [if_neg (List.cons_ne_nil b rest), Nat.zero_add] at hdrain
    refine hdrain.mono ?_
    rw [ticksLeft_silence hp]
    exact Nat.le_add_left _ _

/-- Every phase's rule stays within the bound (R155 to R159). -/
theorem phaseStep_doneWithin {n : Nat} {s t : State} (hm : Mid s) (hs : DoneWithin n s)
    (h : phaseStep s = .next t) : DoneWithin n t := by
  unfold phaseStep at h
  split at h <;> rename_i hp
  · cases h; exact hs
  · cases h; exact hs
  · cases h; exact (waitFirstStep_doneWithin hp).mono hs.left
  · exact (hdrStep_doneWithin hp h).mono hs.left
  · exact (bodyStep_doneWithin hp h).mono hs.left
  · obtain ⟨-, hl, -⟩ := hm.inSilence hp
    cases h
    exact (silenceStep_doneWithin hp hl).mono hs.left

/-- So does their repetition (R165). -/
theorem rxLoop_doneWithin {n : Nat} (fuel : Nat) : ∀ {s t : State}, Mid s → DoneWithin n s →
    rxLoop fuel s = .next t → DoneWithin n t := by
  induction fuel with
  | zero => intro s t _ hs h; cases h; exact hs
  | succ fuel ih =>
    intro s t hm hs h
    obtain ⟨u, hu, hloop⟩ := andThen_eq_next.mp h
    obtain ⟨u', hu', hmu, -⟩ := phaseStep_mid hm
    obtain rfl := Host.Outcome.next.inj (hu.symm.trans hu')
    have first := phaseStep_doneWithin hm hs hu
    split at hloop
    · cases hloop
      exact first
    · exact ih hmu first hloop

/-- The deadline check ends the exchange or leaves it (R161). -/
theorem deadlineCheck_doneWithin {n : Nat} {s t : State} (hs : DoneWithin n s)
    (h : deadlineCheck s = .next t) : DoneWithin n t := by
  rcases deadlineCheck_eq_next h with rfl | rfl | hdec
  · exact hs
  · exact doneWithin_finish n s _
  · exact doneWithin_decodeReceived n hdec

/-- A character more is sent within the ticks left to send it. -/
theorem ticks_after_char {len i cb : Nat} (h : i < len) : (len - i) * cb = (len - (i + 1)) * cb + cb := by
  rw [show len - i = len - (i + 1) + 1 by omega, Nat.succ_mul]

/-- A tick of the transmitter is one of the ticks left (R152, R154). -/
theorem txTick_doneWithin {s t : State} (hp : s.phase = .tx) (hs : SendingSound s)
    (h : txTick s = .next t) : DoneWithin (ticksLeft s - 1) t := by
  obtain ⟨hi, -, hbit, -, -⟩ := hs hp
  have hchar := ticks_after_char (cb := charBits s.cfg s.parity) hi
  rw [ticksLeft_tx hp]
  rcases txTick_eq_next h with ⟨hb, rfl⟩ | ⟨hb, b, -, ⟨-, rfl⟩ | ⟨-, rfl⟩⟩
  · refine doneWithin_of_busy (by simp [hp]) (Eq.trans_le (ticksLeft_tx hp) ?_)
    simp only [afterTransmission, afterHeader]
    omega
  · refine doneWithin_of_busy (by simp [hp]) (Eq.trans_le (ticksLeft_tx hp) ?_)
    simp only [afterTransmission, afterHeader, State.endChar_txbit, State.endChar_txi, State.endChar_cfg,
      State.endChar_baud, State.endChar_parity, State.endChar_txlen]
    omega
  · rcases txComplete_cases (s.endChar b) with ⟨-, e⟩ | ⟨-, e⟩ <;> rw [e]
    · refine doneWithin_of_busy nofun (Eq.trans_le (ticksLeft_waitFirst rfl) ?_)
      simp [afterTransmission, afterHeader]
      omega
    · exact doneWithin_finish _ _ _

theorem beginTick_phase (input : Option Byte) (s : State) : (beginTick input s).phase = s.phase := by
  rw [beginTick_eq]

theorem beginTick_sendingSound (input : Option Byte) {s : State} (h : SendingSound s) :
    SendingSound (beginTick input s) := by
  rw [beginTick_eq]
  exact h

/-- A transmission counts its own ticks (R152). -/
theorem ticksLeft_beginTick_of_tx {s : State} (input : Option Byte) (h : s.phase = .tx) :
    ticksLeft (beginTick input s) = ticksLeft s := by
  rw [ticksLeft_tx ((beginTick_phase input s).trans h), ticksLeft_tx h, beginTick_eq]
  rfl

/-- Time passes on a Tick of a reception (R150, R161). -/
theorem ticksLeft_beginTick_of_receiving {s : State} (input : Option Byte) (hr : Receiving s.phase = true)
    (hd : s.now < s.deadline) : ticksLeft (beginTick input s) = ticksLeft s - 1 := by
  rw [beginTick_eq]
  cases hp : s.phase with
  | idle => rw [hp] at hr; cases hr
  | tx => rw [hp] at hr; cases hr
  | waitFirst => rw [ticksLeft_waitFirst hp, ticksLeft_waitFirst rfl]; simp only [afterHeader]; omega
  | hdr => rw [ticksLeft_hdr hp, ticksLeft_hdr rfl]; simp only [afterHeader]; omega
  | body => rw [ticksLeft_body hp, ticksLeft_body rfl]; simp only; omega
  | silence => rw [ticksLeft_silence hp, ticksLeft_silence rfl]; simp only; omega

/-- An exchange in flight has at least one tick left (R6, R161). -/
theorem ticksLeft_pos {s : State} (h : Inv s) (hp : s.phase ≠ .idle) : 0 < ticksLeft s := by
  obtain ⟨-, -, -, -, -, hpos, -, -, -, -, -, hdue⟩ := h
  have hstart := (hpos s.baud).1
  cases hp' : s.phase with
  | idle => exact absurd hp' hp
  | tx => rw [ticksLeft_tx hp', afterTransmission]; omega
  | waitFirst => rw [ticksLeft_waitFirst hp']; have := (hdue (by rw [hp']; rfl)).1; omega
  | hdr => rw [ticksLeft_hdr hp']; have := (hdue (by rw [hp']; rfl)).1; omega
  | body => rw [ticksLeft_body hp']; have := (hdue (by rw [hp']; rfl)).1; omega
  | silence => rw [ticksLeft_silence hp']; have := (hdue (by rw [hp']; rfl)).1; omega

/-- A Tick on a receiving block (R150). -/
theorem tick_of_receiving (input : Option Byte) {s : State} (h : Receiving s.phase = true) :
    tick input s = andThen (rxConsume (beginTick input s)) deadlineCheck :=
  (receiving_facts h).2.2 _ (beginTick_phase input s)

theorem idle_or_tx_or_receiving (s : State) :
    s.phase = .idle ∨ s.phase = .tx ∨ Receiving s.phase = true := by
  cases s.phase <;> simp [Receiving]

theorem ne_tx_of_receiving {s : State} (h : Receiving s.phase = true) : s.phase ≠ .tx := by
  rintro e
  rw [e] at h
  cases h

/-- A Tick answers, and keeps the invariant (R150). -/
theorem tick_inv {s : State} (h : Inv s) (input : Option Byte) :
    ∃ t, tick input s = .next t ∧ Inv t := by
  have hsteady := beginTick_steady (Inv.steady h) input
  rcases idle_or_tx_or_receiving s with hp | hp | hp
  · exact ⟨_, tick_of_idle input hp, Inv.of_idle hsteady ((beginTick_phase input s).trans hp)⟩
  · obtain ⟨-, -, -, -, -, -, hsend, -⟩ := h
    rw [tick_of_tx input hp]
    exact txTick_inv hsteady ((beginTick_phase input s).trans hp) (beginTick_sendingSound input hsend)
  · obtain ⟨u, hu, hmu, -⟩ := rxConsume_mid (beginTick_mid h (ne_tx_of_receiving hp) input)
    rw [tick_of_receiving input hp, hu]
    exact deadlineCheck_inv hmu

/-- A Tick on a busy block completes the exchange or is one of the ticks left to it (R170). -/
theorem tick_doneWithin {input : Option Byte} {s t : State} (h : Inv s) (hb : s.phase ≠ .idle)
    (ht : tick input s = .next t) : DoneWithin (ticksLeft s - 1) t := by
  rcases idle_or_tx_or_receiving s with hp | hp | hp
  · exact absurd hp hb
  · obtain ⟨-, -, -, -, -, -, hsend, -⟩ := h
    rw [tick_of_tx input hp] at ht
    rw [← ticksLeft_beginTick_of_tx input hp]
    exact txTick_doneWithin ((beginTick_phase input s).trans hp) (beginTick_sendingSound input hsend) ht
  · have hm := beginTick_mid h (ne_tx_of_receiving hp) input
    obtain ⟨-, -, -, -, -, -, -, -, -, -, -, hdue⟩ := h
    rw [tick_of_receiving input hp] at ht
    obtain ⟨u, hu, hcheck⟩ := andThen_eq_next.mp ht
    rw [← ticksLeft_beginTick_of_receiving input hp (hdue hp).1]
    refine deadlineCheck_doneWithin (rxLoop_doneWithin 4 hm ?_ hu) hcheck
    exact doneWithin_of_busy (by rwa [beginTick_phase]) le_rfl

/-- From a state that meets the invariant the exchange in flight completes within the ticks left to it,
whatever the line supplies (R170). -/
theorem exists_runTicks_idle : ∀ (inputs : List (Option Byte)) (s : State), Inv s →
    DoneWithin inputs.length s →
    ∃ n u, n ≤ inputs.length ∧ runTicks (inputs.take n) s = .next u ∧ u.phase = .idle ∧
      u.done = true ∧ u.now = s.now + n := by
  intro inputs
  induction inputs with
  | nil =>
    intro s h hs
    have hidle : s.phase = .idle := by
      by_contra hb
      exact absurd (ticksLeft_pos h hb) (Nat.not_lt.mpr hs.left)
    exact ⟨0, s, le_rfl, rfl, hidle, hs.done hidle, rfl⟩
  | cons input rest ih =>
    intro s h hs
    by_cases hidle : s.phase = .idle
    · exact ⟨0, s, Nat.zero_le _, rfl, hidle, hs.done hidle, rfl⟩
    · obtain ⟨t, ht, hinv⟩ := tick_inv h input
      have hleft := hs.left
      rw [List.length_cons] at hleft
      obtain ⟨n, u, hn, hrun, hu, hdone, hnow⟩ :=
        ih t hinv ((tick_doneWithin h hidle ht).mono (by omega))
      refine ⟨n + 1, u, Nat.succ_le_succ hn, ?_, hu, hdone, ?_⟩
      · rw [List.take_succ_cons, runTicks, ht]
        exact hrun
      · rw [hnow, tick_now ht, Nat.add_assoc, Nat.add_comm 1]

/-- An accepted XFER starts with the whole bound (R143, R170). -/
theorem startExchange_ticksLeft (s : State) (e : Bool) :
    ticksLeft (s.startExchange e) ≤ exchangeBound s := by
  unfold exchangeBound
  rcases startExchange_cases s e with ⟨-, hx⟩ | ⟨-, hx⟩ | ⟨-, hx⟩ <;> rw [hx]
  · refine Eq.trans_le (ticksLeft_tx rfl) ?_
    simp [afterTransmission, afterHeader]
    omega
  · refine Eq.trans_le (ticksLeft_waitFirst rfl) ?_
    simp [afterHeader]
    omega
  · exact Nat.zero_le _

/-- An XFER that leaves the block busy was accepted (R143, R147). -/
theorem execXfer_of_busy {e : Bool} {s t : State} (h : execXfer e s = .next t) (hb : t.phase ≠ .idle) :
    s.isOpen = true ∧ s.txlen.toNat ≤ 256 ∧
      (∃ bs, s.txbuf.span 0 s.txlen.toNat = some bs) ∧ t = s.startExchange e := by
  rcases execXfer_eq_next h with ⟨-, rfl⟩ | ⟨-, -, rfl⟩ | hx
  · exact absurd rfl hb
  · exact absurd rfl hb
  · exact hx

theorem startExchange_now (s : State) (e : Bool) : (s.startExchange e).now = s.now := by
  rcases startExchange_cases s e with ⟨-, hx⟩ | ⟨-, hx⟩ | ⟨-, hx⟩ <;> rw [hx] <;> rfl

/-- Settles O41: an accepted XFER starts with at most the bound (`startExchange_ticksLeft`) and completes
within it (`exists_runTicks_idle`). -/
theorem everyExchangeCompletesWithinTheBound : Obligations.EveryExchangeCompletesWithinTheBound := by
  refine ⟨fun s t e inputs hinv _ hexec hb hlen => ?within, fun s h => ?bound,
    fun b => by cases b <;> decide, fun s hcfg hbaud hparity htx => ?at9600⟩
  case within =>
    obtain ⟨ho, hl, ⟨bs, hbs⟩, rfl⟩ := execXfer_of_busy hexec hb
    have hwritten : ∀ i < s.txlen.toNat, (s.txbuf.get i).isSome = true := fun i hi => by
      simpa using Mem.span_isSome_iff.mp (Option.isSome_of_eq_some hbs) i hi
    have hstart := startExchange_inv (Inv.steady hinv) ho hl hwritten e
    rw [← hlen, ← startExchange_now s e]
    exact exists_runTicks_idle inputs _ hstart
      (doneWithin_of_busy hb (hlen ▸ startExchange_ticksLeft s e))
  case bound => rw [exchangeBound, max_eq_right h]
  case at9600 => rw [exchangeBound, hcfg, hbaud, hparity, htx]; decide

end Sys2Proof.Machine

/-! ## Proofs: the transmission of a request (43_transport.md R146, R152, R154, R171)

The whole of a transmission is one family of states, `sendingState`, by the number of its ticks that have
passed. A Tick takes it to the next one, and no other event but a Reset changes it. -/

namespace Sys2Proof.Machine

open Sys2Proof.Safety

/-- The transmit trace of a whole request accepted at tick `start`, oldest entry first (R152, R171). -/
def requestTrace (start charTicks : Nat) (bs : List Byte) : List (Nat × Byte) :=
  bs.mapIdx fun i b => (start + (i + 1) * charTicks, b)

/-- Sending the request that was accepted in `s`, `k` ticks after that (R42, R143). What the line, the host
and the observation add meanwhile is `fifo`, `held`, `de` and `trace`. -/
def sendingState (s : State) (expect : Bool) (k : Nat) (fifo : List Byte) (held : List HostWrite)
    (de : Bool) (trace : List Obs) : State :=
  { (s.beginExchange expect).enter .tx with
    now := s.now + k, txi := k / charBits s.cfg s.parity, txbit := k % charBits s.cfg s.parity
    fifo := fifo, held := held, de := de, trace := trace }

/-- `t` is `k` ticks into the transmission of `bs` that was accepted in `s`, with the entries of the
characters that are complete (R152). -/
def Sending (s : State) (expect : Bool) (bs : List Byte) (k : Nat) (t : State) : Prop :=
  ∃ fifo held de trace, t = sendingState s expect k fifo held de trace ∧
    txTrace t =
      ((requestTrace s.now (charBits s.cfg s.parity) bs).take (k / charBits s.cfg s.parity)).reverse ++
        txTrace s

/-- On the tick that completes a character its entry comes after DE's (R13, R152). -/
theorem txTrace_of_txChar {s t : State} {n m : Nat} {level : Bool} {b : Byte}
    (h : t.trace = .txChar n b :: .de m level :: s.trace) : txTrace t = (n, b) :: txTrace s := by
  unfold txTrace
  rw [h]
  rfl

/-- DE is no part of the transmit trace (R13). -/
theorem txTrace_of_de {s t : State} {n : Nat} {level : Bool} (h : t.trace = .de n level :: s.trace) :
    txTrace t = txTrace s := by
  unfold txTrace
  rw [h]
  rfl

/-- A host read is no part of the transmit trace (R13). -/
theorem txTrace_of_hostRead {s t : State} {off : BitVec 12} {v : Word}
    (h : t.trace = .hostRead off v :: s.trace) : txTrace t = txTrace s := by
  unfold txTrace
  rw [h]
  rfl

theorem txTrace_congr {s t : State} (h : t.trace = s.trace) : txTrace t = txTrace s := by
  unfold txTrace
  rw [h]

/-- A tick within a character (R152). -/
theorem txTick_within_char {s : State} (h : s.txbit + 1 ≠ charBits s.cfg s.parity) :
    txTick s = .next { s with txbit := s.txbit + 1 } := if_neg h

/-- The last tick of a character (R152). -/
theorem txTick_end_of_char {s : State} {b : Byte} (h : s.txbit + 1 = charBits s.cfg s.parity)
    (hb : s.txbuf.get s.txi = some b) :
    txTick s = .next
      (if s.txi + 1 = s.txlen.toNat then (s.endChar b).txComplete else s.endChar b) := by
  rw [txTick, if_pos h, hb]
  dsimp only
  split <;> rfl

/-- Counting ticks within a character. -/
theorem succ_div_mod_of_ne {k cb : Nat} (h : k % cb + 1 ≠ cb) (hcb : 0 < cb) :
    (k + 1) / cb = k / cb ∧ (k + 1) % cb = k % cb + 1 := by
  have hlt := Nat.mod_lt k hcb
  have hk := Nat.div_add_mod k cb
  refine (Nat.div_mod_unique hcb).mpr ⟨?_, by omega⟩
  omega

/-- Counting ticks over the end of a character. -/
theorem succ_div_mod_of_eq {k cb : Nat} (h : k % cb + 1 = cb) :
    (k + 1) / cb = k / cb + 1 ∧ (k + 1) % cb = 0 := by
  have hcb : 0 < cb := by omega
  have hk := Nat.div_add_mod k cb
  refine (Nat.div_mod_unique hcb).mpr ⟨?_, hcb⟩
  rw [Nat.mul_succ]
  omega

section Transmission

variable {s t : State} {e : Bool} {bs : List Byte} {k : Nat}

/-- The first tick of an accepted request (R143). -/
theorem sending_start (s : State) (e : Bool) (bs : List Byte) :
    Sending s e bs 0 ((s.beginExchange e).enter .tx) := by
  refine ⟨[], s.held, s.de, s.trace, ?_, ?_⟩
  · simp [sendingState, State.beginExchange, State.enter]
  · rw [Nat.zero_div]
    exact txTrace_congr rfl

theorem Sending.phase (h : Sending s e bs k t) : t.phase = .tx := by
  obtain ⟨_, _, _, _, rfl, -⟩ := h
  rfl

/-- A tick within a character leaves only DE in the observation (R152, R153). -/
theorem tick_sendingState_within (input : Option Byte) (fifo : List Byte) (held : List HostWrite)
    (de : Bool) (trace : List Obs)
    (h : k % charBits s.cfg s.parity + 1 ≠ charBits s.cfg s.parity) :
    ∃ fifo', tick input (sendingState s e k fifo held de trace) =
      .next (sendingState s e (k + 1) fifo' held true (.de (s.now + (k + 1)) true :: trace)) := by
  obtain ⟨hdiv, hmod⟩ := succ_div_mod_of_ne h (charBits_pos _ _)
  rw [tick_of_tx input rfl, beginTick_eq, txTick_within_char h]
  simp only [sendingState, hdiv, hmod]
  exact ⟨_, rfl⟩

/-- The last tick of a character adds its entry, and after the last character the transmission is complete
(R152, R154). -/
theorem tick_sendingState_end (input : Option Byte) (fifo : List Byte) (held : List HostWrite)
    (de : Bool) (trace : List Obs) {b : Byte}
    (h : k % charBits s.cfg s.parity + 1 = charBits s.cfg s.parity)
    (hb : s.txbuf.get (k / charBits s.cfg s.parity) = some b) :
    ∃ fifo' u, u = sendingState s e (k + 1) fifo' held true
        (.txChar (s.now + (k + 1)) b :: .de (s.now + (k + 1)) true :: trace) ∧
      tick input (sendingState s e k fifo held de trace) =
        .next (if k / charBits s.cfg s.parity + 1 = s.txlen.toNat then u.txComplete else u) := by
  obtain ⟨hdiv, hmod⟩ := succ_div_mod_of_eq h
  rw [tick_of_tx input rfl, beginTick_eq, txTick_end_of_char h hb]
  simp only [sendingState, hdiv, hmod]
  exact ⟨_, _, rfl, rfl⟩

/-- The entry of the next character that is complete (R152). -/
theorem take_succ_requestTrace (start cb : Nat) {i : Nat} {b : Byte} (hb : bs[i]? = some b) :
    (requestTrace start cb bs).take (i + 1) =
      (requestTrace start cb bs).take i ++ [(start + (i + 1) * cb, b)] := by
  rw [List.take_add_one, requestTrace, List.getElem?_mapIdx, hb]
  rfl

/-- A Tick of the transmission: the next tick of it, which after the last one is complete (R152, R154). -/
theorem Sending.exists_tick (h : Sending s e bs k t) (hlen : s.txlen.toNat = bs.length)
    (hbs : Holds s.txbuf 0 bs) (hk : k < bs.length * charBits s.cfg s.parity) (input : Option Byte) :
    ∃ u, Sending s e bs (k + 1) u ∧
      tick input t =
        .next (if k + 1 = bs.length * charBits s.cfg s.parity then u.txComplete else u) := by
  obtain ⟨fifo, held, de, trace, rfl, htrace⟩ := h
  have hcb := charBits_pos s.cfg s.parity
  by_cases hbit : k % charBits s.cfg s.parity + 1 = charBits s.cfg s.parity
  · obtain ⟨hdiv, hmod⟩ := succ_div_mod_of_eq hbit
    have hi : k / charBits s.cfg s.parity < bs.length := Nat.div_lt_of_lt_mul (by rwa [Nat.mul_comm])
    have hnow : k + 1 = (k / charBits s.cfg s.parity + 1) * charBits s.cfg s.parity := by
      rw [← hdiv, Nat.div_mul_cancel (Nat.dvd_of_mod_eq_zero hmod)]
    have hb : s.txbuf.get (k / charBits s.cfg s.parity) = some bs[k / charBits s.cfg s.parity] := by
      simpa [hi] using hbs _ hi
    obtain ⟨fifo', u, hu, htick⟩ := tick_sendingState_end input fifo held de trace hbit hb
    have hlast : k / charBits s.cfg s.parity + 1 = s.txlen.toNat ↔
        k + 1 = bs.length * charBits s.cfg s.parity := by
      rw [hnow, hlen, Nat.mul_left_inj hcb.ne']
    simp only [hlast] at htick
    refine ⟨u, ⟨_, _, _, _, hu, ?_⟩, htick⟩
    rw [hdiv, take_succ_requestTrace _ _ (List.getElem?_eq_getElem hi), List.reverse_append, ← hnow,
      List.append_assoc, ← htrace, hu]
    exact txTrace_of_txChar rfl
  · obtain ⟨hdiv, hmod⟩ := succ_div_mod_of_ne hbit hcb
    have hlast : k + 1 ≠ bs.length * charBits s.cfg s.parity := by
      intro h
      rw [h, Nat.mul_mod_left] at hmod
      omega
    obtain ⟨fifo', htick⟩ := tick_sendingState_within (s := s) (e := e) input fifo held de trace hbit
    refine ⟨_, ⟨_, _, _, _, rfl, ?_⟩, by rw [if_neg hlast]; exact htick⟩
    rw [hdiv, ← htrace]
    exact txTrace_of_de rfl

theorem exists_eq_tick {ev : Event} (h : isTick ev = true) : ∃ input, ev = .tick input := by
  cases ev with
  | tick input => exact ⟨input, rfl⟩
  | _ => cases h

/-- Every other event but a Reset leaves the transmission where it is: a read only shows a value, a write
is held, and a held write is not yet performed (R64, R142). -/
theorem Sending.of_envStep (h : Sending s e bs k t) {ev : Event} {u : State} (htick : isTick ev = false)
    (hreset : ev ≠ .reset) (hstep : envStep ev t = .next u) : Sending s e bs k u := by
  have hbusy : t.busy = true := by simp [State.busy, h.phase]
  obtain ⟨fifo, held, de, trace, rfl, htrace⟩ := h
  cases ev with
  | read off width =>
    obtain ⟨-, v, -, rfl⟩ := performRead_eq_next.mp hstep
    exact ⟨_, _, _, _, rfl, (txTrace_of_hostRead rfl).trans htrace⟩
  | write a =>
    obtain ⟨-, ⟨-, -, rfl⟩ | ⟨hgo, -⟩⟩ := hostWrite_eq_next.mp hstep
    · exact ⟨_, _, _, _, rfl, htrace⟩
    · rw [mustWait_of_busy a hbusy] at hgo
      cases hgo
  | tick input => cases htick
  | heldWrite =>
    rcases performHeld_cases (sendingState s e k fifo held de trace) with
      ⟨-, hstay⟩ | ⟨_, _, -, hidle, -⟩
    · obtain rfl := Host.Outcome.next.inj (hstay.symm.trans hstep)
      exact ⟨_, _, _, _, rfl, htrace⟩
    · rw [hbusy] at hidle
      cases hidle
  | reset => exact absurd rfl hreset

/-- The Ticks that are left of a transmission complete it, whatever the line delivers (R152, R154). -/
theorem Sending.exists_runTicks (hlen : s.txlen.toNat = bs.length) (hbs : Holds s.txbuf 0 bs) :
    ∀ (inputs : List (Option Byte)) (k : Nat) (t : State), Sending s e bs k t →
      k < bs.length * charBits s.cfg s.parity →
      k + inputs.length = bs.length * charBits s.cfg s.parity →
      ∃ u, Sending s e bs (bs.length * charBits s.cfg s.parity) u ∧
        runTicks inputs t = .next u.txComplete := by
  intro inputs
  induction inputs with
  | nil => intro k t _ hk hleft; simp at hleft; omega
  | cons input rest ih =>
    intro k t h hk hleft
    rw [List.length_cons] at hleft
    obtain ⟨u, hu, htick⟩ := h.exists_tick hlen hbs hk input
    simp only [runTicks, htick, andThen_of_next]
    split
    · rename_i hlast
      obtain rfl : rest = [] := List.length_eq_zero_iff.mp (by omega)
      exact ⟨u, hlast ▸ hu, rfl⟩
    · exact ih (k + 1) u hu (by omega) (by omega)

/-- A run that ends with the last Tick of a transmission completes it, whatever the host does between the
Ticks (R142, R171). -/
theorem Sending.of_runEvents (hlen : s.txlen.toNat = bs.length) (hbs : Holds s.txbuf 0 bs)
    (last : Option Byte) {u : State} :
    ∀ (es : List Event) (k : Nat) (t : State), Sending s e bs k t → .reset ∉ es →
      k + (es.filter isTick).length + 1 = bs.length * charBits s.cfg s.parity →
      runEvents (es ++ [.tick last]) t = .next u →
      ∃ v, Sending s e bs (bs.length * charBits s.cfg s.parity) v ∧ u = v.txComplete := by
  intro es
  induction es with
  | nil =>
    intro k t h _ hleft hrun
    obtain ⟨v, hv, htick⟩ := h.exists_tick hlen hbs (by omega) last
    rw [if_pos (by simpa using hleft)] at htick
    obtain ⟨w, hw, hend⟩ := andThen_eq_next.mp hrun
    obtain rfl := Host.Outcome.next.inj (htick.symm.trans hw)
    cases hend
    exact ⟨v, hleft ▸ hv, rfl⟩
  | cons ev es ih =>
    intro k t h hreset hleft hrun
    obtain ⟨hev, hes⟩ := not_or.mp (List.mem_cons.not.mp hreset)
    obtain ⟨w, hw, hrest⟩ := andThen_eq_next.mp hrun
    cases hkind : isTick ev with
    | true =>
      obtain ⟨input, rfl⟩ := exists_eq_tick hkind
      rw [List.filter_cons_of_pos hkind, List.length_cons] at hleft
      obtain ⟨v, hv, htick⟩ := h.exists_tick hlen hbs (by omega) input
      rw [if_neg (by omega)] at htick
      obtain rfl := Host.Outcome.next.inj (htick.symm.trans hw)
      exact ih (k + 1) v hv hes (by omega) hrest
    | false =>
      rw [List.filter_cons_of_neg (by simp [hkind])] at hleft
      exact ih k w (h.of_envStep hkind (Ne.symm hev) hw) hes hleft hrest

/-- A complete transmission has sent the whole request (R152, R171). -/
theorem Sending.txTrace_txComplete (h : Sending s e bs (bs.length * charBits s.cfg s.parity) t) :
    txTrace t.txComplete =
      (requestTrace s.now (charBits s.cfg s.parity) bs).reverse ++ txTrace s := by
  obtain ⟨-, -, -, hkeep⟩ := txComplete_keeps t
  obtain ⟨fifo, held, de, trace, -, htrace⟩ := h
  rw [txTrace_congr hkeep, htrace, Nat.mul_div_cancel _ (charBits_pos _ _),
    List.take_of_length_le (by simp [requestTrace])]

/-- A transmission ends with the wait for an answer where one is expected, else the exchange is complete
(R154). -/
theorem Sending.txComplete_eq (h : Sending s e bs k t) :
    ∃ fifo held de trace, t.txComplete =
      if e then
        (sendingState s e k fifo held de trace).await .waitFirst (tStart s.cfg s.baud)
      else (sendingState s e k fifo held de trace).finish .none := by
  obtain ⟨fifo, held, de, trace, rfl, -⟩ := h
  exact ⟨fifo, held, de, trace, rfl⟩

end Transmission

/-- An open block with a written request accepts it (R143). -/
theorem execXfer_of_holds {e : Bool} {s : State} {bs : List Byte} (ho : s.isOpen = true)
    (hlen : s.txlen.toNat = bs.length) (hmax : bs.length ≤ 256) (hbs : Holds s.txbuf 0 bs) :
    execXfer e s = .next (s.startExchange e) := by
  have hc : txCap = 256 := rfl
  rw [execXfer, if_neg (by simp [ho]), if_neg (by omega), hlen, Mem.span_eq_some hbs]

/-- Settles O33: acceptance is tick 0 of the transmission, whose Ticks (`Sending.exists_runTicks`), with any
host accesses between them (`Sending.of_runEvents`), lead to its end. -/
theorem requestIsSentContiguously : Obligations.RequestIsSentContiguously := by
  intro s e bs ho hlen hmin hmax hbs
  have hcb := charBits_pos s.cfg s.parity
  have hpos : 0 < bs.length * charBits s.cfg s.parity := Nat.mul_pos hmin hcb
  have hne : s.txlen ≠ 0 := fun h => by rw [h] at hlen; simp at hlen; omega
  have hstart : s.startExchange e = (s.beginExchange e).enter .tx := if_neg hne
  refine ⟨_, (execXfer_of_holds ho hlen hmax hbs).trans (congrArg _ hstart), ?ticks, ?events⟩
  case ticks =>
    intro inputs hinputs
    obtain ⟨u, hu, hrun⟩ :=
      Sending.exists_runTicks hlen hbs inputs 0 _ (sending_start s e bs) hpos (by omega)
    refine ⟨_, hrun, ?_⟩
    rw [hu.txTrace_txComplete]
    obtain ⟨fifo, held, de, trace, hend⟩ := hu.txComplete_eq
    rw [hend]
    cases e with
    | true =>
      refine ⟨rfl, rfl, rfl, rfl, rfl, rfl, rfl, rfl, fun _ => ⟨rfl, rfl, fun hshown => ?_⟩, nofun⟩
      rw [hshown]
      rfl
    | false => exact ⟨rfl, rfl, rfl, rfl, rfl, rfl, rfl, rfl, nofun, fun _ => ⟨rfl, rfl, rfl, rfl⟩⟩
  case events =>
    intro es last u hreset hcount hrun
    obtain ⟨v, hv, rfl⟩ :=
      Sending.of_runEvents hlen hbs last es 0 _ (sending_start s e bs) hreset (by omega) hrun
    exact hv.txTrace_txComplete

end Sys2Proof.Machine

/-! ## Proofs: the report of a command (60_exceptions.md R203 to R206)

A rejecting code is only ever reported by `finish` of the state the command was accepted in, since every
other completion's code is NONE or a verdict's. Between commands a step performs no write but a store, and
neither a store, a read, a held write's wait nor an idle Tick reaches the report. -/

namespace Sys2Proof.Machine

open Sys2Proof.Safety

/-- Settles O43: ERR is a comparison of the code, and a Tick of the idle block sets DE by its phase. -/
theorem finishWritesTheReport : Obligations.FinishWritesTheReport := by
  intro s code
  have herr : (code != .none) = decide (code ≠ .none) := by cases code <;> rfl
  refine ⟨by rw [State.finish, herr], fun input => ⟨_, tick_of_idle input (s.finish_phase code), ?_⟩⟩
  rw [beginTick_eq]
  rfl

/-- The codes of a command that is rejected and not carried out (R205). -/
def Rejects (code : ErrCode) : Prop := code = .badCommand ∨ code = .badLength ∨ code = .notOpen

theorem not_rejects_none : ¬ Rejects .none := by simp [Rejects]

/-- A frame's verdict is about the frame and rejects no command (R202). -/
theorem not_rejects_decodeFrame (p : Params) (bs : List Byte) : ¬ Rejects (decodeFrame p bs).code := by
  have hmem := decodeFrame_code p bs
  rintro (h | h | h) <;> simp [h] at hmem

/-- An accepted XFER rejects nothing: its acceptance has cleared the report (R204). -/
theorem startExchange_errcode (s : State) (e : Bool) : (s.startExchange e).errcode = .none := by
  rcases startExchange_cases s e with ⟨-, h⟩ | ⟨-, h⟩ | ⟨-, h⟩ <;> rw [h] <;> rfl

/-- A command that ends with a rejecting code has done nothing but report it (R205). -/
theorem eq_finish_of_exec_rejects {i : Instr} {s t : State} (h : exec i s = .next t)
    (hr : Rejects t.errcode) : t = s.finish t.errcode := by
  cases i with
  | crcInit => cases h; exact absurd hr not_rejects_none
  | crcByte b => cases h; exact absurd hr not_rejects_none
  | crcBuf sel n =>
    rcases execCrcBuf_eq_next h with ⟨-, rfl⟩ | ⟨-, bs, -, rfl⟩
    · rfl
    · exact absurd hr not_rejects_none
  | encRaw n addr fc =>
    rcases execEncRaw_eq_next h with ⟨-, rfl⟩ | ⟨-, payload, -, rfl⟩
    · rfl
    · exact absurd hr not_rejects_none
  | encWords addr fc => cases h; exact absurd hr not_rejects_none
  | decodeBuf =>
    rcases execDecode_eq_next h with ⟨-, rfl⟩ | ⟨-, bs, -, rfl⟩
    · rfl
    · exact absurd hr (not_rejects_decodeFrame s.cfg bs)
  | openLine baud parity =>
    rcases execOpen_eq_next h with ⟨b, p, -, -, rfl⟩ | ⟨-, rfl⟩
    · exact absurd hr not_rejects_none
    · rfl
  | closeLine => cases h; exact absurd hr not_rejects_none
  | xfer e =>
    rcases execXfer_eq_next h with ⟨-, rfl⟩ | ⟨-, -, rfl⟩ | ⟨-, -, -, rfl⟩
    · rfl
    · rfl
    · exact absurd (startExchange_errcode s e ▸ hr) not_rejects_none

/-- A word whose issue ends with a rejecting code has been accepted and has reported it (R204, R205). -/
theorem eq_accept_finish_of_rejects {w : Word} {s t : State} (h : issueCommand w s = .next t)
    (hr : Rejects t.errcode) : t = s.accept.finish t.errcode := by
  rcases issueCommand_cases w s with ⟨i, -, hexec⟩ | ⟨-, hbad⟩
  · exact eq_finish_of_exec_rejects (hexec.symm.trans h) hr
  · cases hbad.symm.trans h
    rfl

/-- Settles O44: such a command has only been accepted and finished, which on an idle block writes the
report alone; a rejecting code is not NONE, so ERR is 1. -/
theorem rejectedCommandsChangeOnlyTheReport : Obligations.RejectedCommandsChangeOnlyTheReport := by
  intro s t w hidle h hr
  have herr : (t.errcode != .none) = true := bne_iff_ne.mpr fun hn => not_rejects_none (hn ▸ hr)
  calc t = s.accept.finish t.errcode := eq_accept_finish_of_rejects h hr
    _ = { s with done := true, err := t.errcode != .none, errcode := t.errcode } :=
      accept_finish_of_idle hidle _
    _ = { s with done := true, err := true, errcode := t.errcode } := by rw [herr]

/-- `t` shows the report that `s` shows (R206). -/
def SameReport (s t : State) : Prop := t.done = s.done ∧ t.err = s.err ∧ t.errcode = s.errcode

/-- A store reaches ARG, a length or a buffer (R25 to R34). -/
theorem storeReg_sameReport (r : Reg) (v : Word) (s : State) : SameReport s (storeReg r v s) := by
  cases r <;> exact ⟨rfl, rfl, rfl⟩

/-- A Tick of an idle block moves the time, the FIFO, DE and the observation only (R150). -/
theorem tick_sameReport_of_idle {input : Option Byte} {s t : State} (hidle : s.phase = .idle)
    (h : tick input s = .next t) : SameReport s t := by
  cases (tick_of_idle input hidle).symm.trans h
  rw [beginTick_eq]
  exact ⟨rfl, rfl, rfl⟩

/-- A host write that need not wait is performed now (R142). -/
theorem hostWrite_of_not_mustWait {a : HostWrite} {s : State} (h : mustWait a s = false) :
    hostWrite a s = writeNow a s := by
  simp [hostWrite, writeNow, h]

/-- With BUSY 0 the held write's step performs the oldest held write (R142). -/
theorem performHeld_of_held {a : HostWrite} {rest : List HostWrite} {s : State} (hb : s.busy = false)
    (hh : s.held = a :: rest) : performHeld s = writeNow a { s with held := rest } := by
  simp [performHeld, hh, hb]

/-- With no event listed that step comes by itself (R142). -/
theorem unscheduled_of_held {a : HostWrite} {rest : List HostWrite} {s : State} (hb : s.busy = false)
    (hh : s.held = a :: rest) : unscheduled s = writeNow a { s with held := rest } := by
  rw [unscheduled, if_neg (by simp [hh, hb]), performHeld_of_held hb hh]

/-- The write that `performedWrite` names is the step, on a state that differs only in the schedule and
the held writes (R142). -/
theorem step_of_performedWrite {s u : State} {a : HostWrite} (h : performedWrite s = some (a, u)) :
    step s = writeNow a u ∧ ∃ es held, u = { s with pending := es, held := held } := by
  unfold performedWrite at h
  split at h
  · cases h
  rename_i hbusy
  have hb : s.busy = false := Bool.eq_false_of_not_eq_true hbusy
  split at h
  · rename_i hp hh
    cases h
    exact ⟨(step_of_unlisted hp).trans (unscheduled_of_held hb hh), s.pending, _, rfl⟩
  · rename_i es _ _ hp hh
    cases h
    exact ⟨(step_of_listed hp).trans (performHeld_of_held (s := { s with pending := es }) hb hh),
      _, _, rfl⟩
  · rename_i es _ hp
    split at h
    · cases h
    rename_i hgo
    cases h
    have hgo : mustWait a s = false := Bool.eq_false_of_not_eq_true hgo
    exact ⟨(step_of_listed hp).trans (hostWrite_of_not_mustWait hgo), _, s.held, rfl⟩
  · cases h

/-- A step of an idle block that performs no write and is no Reset keeps the report (R206). -/
theorem step_sameReport_of_no_write {s t : State} (hidle : s.phase = .idle)
    (hnone : performedWrite s = none) (hreset : resetsNext s = false) (h : step s = .next t) :
    SameReport s t := by
  have hb : s.busy = false := by simp [State.busy, hidle]
  rcases step_cases s with ⟨ev, rest, hp, hstep⟩ | ⟨-, -, hstep⟩ | ⟨hp, a, rest, hh, -, -⟩
  · rw [hstep] at h
    cases ev with
    | read off width =>
      obtain ⟨-, v, -, rfl⟩ := performRead_eq_next.mp h
      exact ⟨rfl, rfl, rfl⟩
    | write a =>
      obtain ⟨-, ⟨-, -, rfl⟩ | ⟨hgo, -⟩⟩ := hostWrite_eq_next.mp h
      · exact ⟨rfl, rfl, rfl⟩
      · have hgo' : mustWait a s = false := hgo
        simp [performedWrite, hb, hp, hgo'] at hnone
    | tick input => exact tick_sameReport_of_idle (s := { s with pending := rest }) hidle h
    | heldWrite =>
      rcases performHeld_cases { s with pending := rest } with ⟨-, hsame⟩ | ⟨a, es, hh, -, -⟩
      · cases hsame.symm.trans h
        exact ⟨rfl, rfl, rfl⟩
      · have hh' : s.held = a :: es := hh
        simp [performedWrite, hb, hp, hh'] at hnone
    | reset => simp [resetsNext, hp] at hreset
  · exact tick_sameReport_of_idle (s := { s with oracle := s.oracle + 1 }) hidle (hstep ▸ h)
  · simp [performedWrite, hb, hp, hh] at hnone

/-- Settles O46: a write performed next is a store, since it issues no command. -/
theorem reportPersists : Obligations.ReportPersists := by
  intro s t hidle hcmd hreset h
  cases hw : performedWrite s with
  | none => exact step_sameReport_of_no_write hidle hw hreset h
  | some p =>
    obtain ⟨a, u⟩ := p
    obtain ⟨hstep, es, held, rfl⟩ := step_of_performedWrite hw
    obtain ⟨hl, hperform⟩ := writeNow_eq_next.mp (hstep.symm.trans h)
    have hne : regAt a.off ≠ .cmd := fun hreg => by simp [nextCommand, hw, hl, hreg] at hcmd
    cases (performWrite_of_ne_cmd hne _ _).symm.trans hperform
    exact storeReg_sameReport (regAt a.off) a.value _

end Sys2Proof.Machine

/-! ## Proofs: encoding and decoding are inverse (30_encoding.md R80 to R84)

The operands read from a command's word are its operands, as numbers; a word that decodes is the
concatenation of its opcode, its operand fields and its reserved fields, and the reserved ones are 0. -/

namespace Sys2Proof

open Sys2Proof.Machine Sys2Proof.Laws

/-- The word of every command has its opcode and only operand bits (R81, R86). -/
theorem legalWord_statement (i : Instr) : LegalWord.Statement i := by
  cases i with
  | crcInit => exact LegalWord.crcInit
  | crcByte b => exact LegalWord.crcByte b
  | crcBuf sel n => exact LegalWord.crcBuf sel n
  | encRaw n addr fc => exact LegalWord.encRaw n addr fc
  | encWords addr fc => exact LegalWord.encWords addr fc
  | decodeBuf => exact LegalWord.decodeBuf
  | openLine baud parity => exact LegalWord.openLine baud parity
  | closeLine => exact LegalWord.closeLine
  | xfer expect => exact LegalWord.xfer expect

/-- `SEL` as read from the word of CRC_BUF (R83, R104). -/
theorem selOf_encode_crcBuf (sel : BufSel) (n : BitVec 9) :
    selOf ((encode (.crcBuf sel n)).getLsbD 16) = sel := by
  have hbit : (encode (.crcBuf sel n)).getLsbD 16 = true ↔ sel.bit.toNat = 1 := by
    have := sel.bit.isLt
    rw [getLsbD_eq_true_iff, encode_crcBuf_toNat]
    omega
  cases sel with
  | tx => exact if_neg fun h => absurd (hbit.mp h) (by decide)
  | rx => exact if_pos (hbit.mpr rfl)

/-- The operands read from a command's word with its own format are the command's (R83). -/
theorem operands_encode (i : Instr) : operands (LegalWord.opcode i) (encode i) = i := by
  cases i with
  | crcInit => rfl
  | crcByte b =>
    refine congrArg Instr.crcByte (BitVec.eq_of_toNat_eq ?_)
    rw [lowField_toNat, encode_crcByte_toNat]
    omega
  | crcBuf sel n =>
    refine congr (congrArg Instr.crcBuf (selOf_encode_crcBuf sel n)) (BitVec.eq_of_toNat_eq ?_)
    rw [lowField_toNat, encode_crcBuf_toNat]
    omega
  | encRaw n addr fc =>
    refine congr (congr (congrArg Instr.encRaw (BitVec.eq_of_toNat_eq ?_)) (BitVec.eq_of_toNat_eq ?_))
      (BitVec.eq_of_toNat_eq ?_)
    all_goals
      rw [field_toNat, encode_encRaw_toNat]
      omega
  | encWords addr fc =>
    refine congr (congrArg Instr.encWords (BitVec.eq_of_toNat_eq ?_)) (BitVec.eq_of_toNat_eq ?_)
    all_goals
      rw [field_toNat, encode_encWords_toNat]
      omega
  | decodeBuf => rfl
  | openLine baud parity =>
    revert baud parity
    decide
  | closeLine => rfl
  | xfer expect => cases expect <;> rfl

/-- Decoding a command's word gives the command back (R80 to R83). -/
theorem decode_encode (i : Instr) : decode (encode i) = .ok i := by
  obtain ⟨hop, hres⟩ := legalWord_statement i
  rw [decode_of_legal hop hres, operands_encode]

/-- Settles O2: the word carries its command's opcode and no reserved bit (`legalWord_statement`), and its
operands are the command's (`operands_encode`). -/
theorem decodeOfEncodeIsTheCommand : Obligations.DecodeOfEncodeIsTheCommand := decode_encode

/-- A field whose mask is 0 is 0 in a word that has no 1 outside the mask (R84). -/
theorem field_eq_zero_of_mask {w m : Word} (h : w &&& ~~~m = 0#32) {start len : Nat}
    (hm : m.extractLsb' start len = 0#len) : w.extractLsb' start len = 0#len := by
  have hw : w &&& m = w := by
    ext i hi
    have hbit := congrArg (·.getLsbD i) h
    simp [hi] at hbit ⊢
    exact hbit
  rw [← hw, BitVec.extractLsb'_and, hm, BitVec.and_zero]

/-- Neighbouring fields of a word make one field. -/
theorem join_fields (w : Word) (high low len' : Nat) {len : Nat} (h : high = low + len') :
    w.extractLsb' high len ++ w.extractLsb' low len' = w.extractLsb' low (len + len') :=
  BitVec.extractLsb'_append_extractLsb'_eq_extractLsb' h

/-- A flag of a word is a field of one bit. -/
theorem ofBool_getLsbD (w : Word) (i : Nat) : BitVec.ofBool (w.getLsbD i) = w.extractLsb' i 1 := by
  apply BitVec.eq_of_getLsbD_eq
  intro j hj
  obtain rfl : j = 0 := by omega
  simp

/-- The bit `SEL` of the buffer a flag selects is the flag (R104). -/
theorem bit_selOf (b : Bool) : (selOf b).bit = BitVec.ofBool b := by cases b <;> rfl

/-- The word of the command read from a legal word is that word: its fields in order, the reserved ones
0 (R81, R83, R84). -/
theorem encode_operands {w : Word} {op : Opcode} (hop : w.extractLsb' 24 8 = op.bits)
    (hres : w &&& ~~~(legalMask op) = 0#32) : encode (operands op w) = w := by
  have zero := fun start len => field_eq_zero_of_mask hres (start := start) (len := len)
  have whole : w.extractLsb' 0 32 = w := BitVec.extractLsb'_eq_self
  cases op with
  | crcInit =>
    change Opcode.crcInit.bits ++ 0#24 = w
    rw [← hop, ← zero 0 24 (by decide), join_fields w 24 0 24 rfl]
    exact whole
  | crcByte =>
    change Opcode.crcByte.bits ++ 0#16 ++ w.extractLsb' 0 8 = w
    rw [← hop, ← zero 8 16 (by decide), join_fields w 24 8 16 rfl, join_fields w 8 0 8 rfl]
    exact whole
  | crcBuf =>
    change Opcode.crcBuf.bits ++ 0#7 ++ (selOf (w.getLsbD 16)).bit ++ 0#7 ++ w.extractLsb' 0 9 = w
    rw [bit_selOf, ofBool_getLsbD]
    calc Opcode.crcBuf.bits ++ 0#7 ++ w.extractLsb' 16 1 ++ 0#7 ++ w.extractLsb' 0 9
      _ = w.extractLsb' 24 8 ++ w.extractLsb' 17 7 ++ w.extractLsb' 16 1 ++ w.extractLsb' 9 7 ++
          w.extractLsb' 0 9 := by rw [hop, zero 17 7 (by decide), zero 9 7 (by decide)]
      _ = w := by
        rw [join_fields w 24 17 7 rfl, join_fields w 17 16 1 rfl, join_fields w 16 9 7 rfl,
          join_fields w 9 0 9 rfl]
        exact whole
  | encRaw =>
    change Opcode.encRaw.bits ++ w.extractLsb' 16 8 ++ w.extractLsb' 8 8 ++ w.extractLsb' 0 8 = w
    rw [← hop, join_fields w 24 16 8 rfl, join_fields w 16 8 8 rfl,
      join_fields w 8 0 8 rfl]
    exact whole
  | encWords =>
    change Opcode.encWords.bits ++ 0#8 ++ w.extractLsb' 8 8 ++ w.extractLsb' 0 8 = w
    rw [← hop, ← zero 16 8 (by decide), join_fields w 24 16 8 rfl, join_fields w 16 8 8 rfl,
      join_fields w 8 0 8 rfl]
    exact whole
  | decodeBuf =>
    change Opcode.decodeBuf.bits ++ 0#24 = w
    rw [← hop, ← zero 0 24 (by decide), join_fields w 24 0 24 rfl]
    exact whole
  | openLine =>
    change Opcode.openLine.bits ++ 0#18 ++ w.extractLsb' 4 2 ++ 0#1 ++ w.extractLsb' 0 3 = w
    rw [← hop, ← zero 6 18 (by decide), ← zero 3 1 (by decide), join_fields w 24 6 18 rfl,
      join_fields w 6 4 2 rfl, join_fields w 4 3 1 rfl, join_fields w 3 0 3 rfl]
    exact whole
  | closeLine =>
    change Opcode.closeLine.bits ++ 0#24 = w
    rw [← hop, ← zero 0 24 (by decide), join_fields w 24 0 24 rfl]
    exact whole
  | xfer =>
    change Opcode.xfer.bits ++ 0#23 ++ BitVec.ofBool (w.getLsbD 0) = w
    rw [ofBool_getLsbD, ← hop, ← zero 1 23 (by decide), join_fields w 24 1 23 rfl,
      join_fields w 1 0 1 rfl]
    exact whole

/-- Settles O3: a word that decodes is legal, and is its fields in order (`encode_operands`). -/
theorem encodeOfDecodedWordIsTheWord : Obligations.EncodeOfDecodedWordIsTheWord := by
  intro w i h
  obtain ⟨op, hop, hres, rfl⟩ := decode_eq_ok h
  exact encode_operands hop hres

end Sys2Proof

/-! ## Proofs: what a step can do (00_scope.md R12), and the invariant of the block

`StepCase` says once everything a step can do; the invariant, the parameters and the settings that only
some commands write are then a case split each. -/

namespace Sys2Proof.Machine

open Sys2Proof.Safety

/-- Everything a step that answers can have done (R12, R64, R142, R220). -/
inductive StepCase (s t : State) : Prop
  /-- The Reset step. -/
  | reset (rest : List Event) (hnext : resetsNext s = true)
      (ht : t = resetStep { s with pending := rest })
  /-- A write to CMD is performed, and the word is issued. -/
  | command (w : Word) (u : State) (es : List Event) (held : List HostWrite) (hidle : s.phase = .idle)
      (hu : u = { s with pending := es, held := held }) (hnext : nextCommand s = some (w, u))
      (ht : issueCommand w u = .next t)
  /-- A write to another register is performed. -/
  | store (off : BitVec 12) (v : Word) (es : List Event) (held : List HostWrite) (hidle : s.phase = .idle)
      (ht : t = storeReg (regAt off) v { s with pending := es, held := held })
  /-- A read, a write that is held, or a held write's step that is not enabled. -/
  | environment (es : List Event) (held : List HostWrite) (trace : List Obs)
      (ht : t = { s with pending := es, held := held, trace := trace })
  /-- A Tick. -/
  | tick (input : Option Byte) (es : List Event) (n : Nat)
      (ht : Machine.tick input { s with pending := es, oracle := n } = .next t)

/-- With BUSY 0 the phase is IDLE (R41). -/
theorem phase_of_not_busy {s : State} (h : s.busy = false) : s.phase = .idle := by
  simpa [State.busy] using h

/-- A write is performed with BUSY 0 only (R142). -/
theorem idle_of_performedWrite {s : State} {p : HostWrite × State} (h : performedWrite s = some p) :
    s.phase = .idle := by
  refine phase_of_not_busy (Bool.eq_false_of_not_eq_true fun hb => ?_)
  simp [performedWrite, hb] at h

/-- The step that performs a write issues a command or stores. -/
theorem stepCase_of_performedWrite {s u t : State} {a : HostWrite} (hw : performedWrite s = some (a, u))
    (h : step s = .next t) : StepCase s t := by
  have hidle := idle_of_performedWrite hw
  obtain ⟨hstep, es, held, hu⟩ := step_of_performedWrite hw
  obtain ⟨hl, hperform⟩ := writeNow_eq_next.mp (hstep.symm.trans h)
  by_cases hreg : regAt a.off = .cmd
  · refine .command a.value u es held hidle hu ?_ ((performWrite_of_cmd hreg _ _).symm.trans hperform)
    simp [nextCommand, hw, hl, hreg]
  · cases (performWrite_of_ne_cmd hreg _ _).symm.trans hperform
    exact .store a.off a.value es held hidle (hu ▸ rfl)

/-- A step that answers has done one of these. -/
theorem stepCase_of_step {s t : State} (h : step s = .next t) : StepCase s t := by
  cases hw : performedWrite s with
  | some p => exact stepCase_of_performedWrite hw h
  | none =>
    rcases step_cases s with ⟨ev, rest, hp, hstep⟩ | ⟨-, -, hstep⟩ | ⟨hp, a, rest, hh, hb, -⟩
    · rw [hstep] at h
      cases ev with
      | read off width =>
        obtain ⟨-, v, -, rfl⟩ := performRead_eq_next.mp h
        exact .environment rest s.held _ rfl
      | write a =>
        obtain ⟨-, ⟨-, -, rfl⟩ | ⟨hgo, -⟩⟩ := hostWrite_eq_next.mp h
        · exact .environment rest _ s.trace rfl
        · have hgo' : mustWait a s = false := hgo
          simp [performedWrite, busy_of_mustWait hgo', hp, hgo'] at hw
      | tick input => exact .tick input rest s.oracle h
      | heldWrite =>
        rcases performHeld_cases { s with pending := rest } with ⟨-, hsame⟩ | ⟨a, es, hh, hb, -⟩
        · cases hsame.symm.trans h
          exact .environment rest s.held s.trace rfl
        · have hh' : s.held = a :: es := hh
          have hb' : s.busy = false := hb
          simp [performedWrite, hb', hp, hh'] at hw
      | reset =>
        cases h
        exact .reset rest (by simp [resetsNext, hp]) rfl
    · exact .tick _ s.pending _ (hstep ▸ h)
    · simp [performedWrite, hb, hp, hh] at hw

/-! ### The invariant -/

/-- A command on an idle block leaves a state that meets the invariant (30_encoding.md R82). -/
theorem exec_inv {i : Instr} {s t : State} (hs : Steady s) (hidle : s.phase = .idle)
    (h : exec i s = .next t) : Inv t := by
  cases i with
  | crcInit =>
    cases h
    exact Inv.finish (hs.setAcc _) nofun
  | crcByte b =>
    cases h
    exact Inv.finish (hs.setAcc _) nofun
  | crcBuf sel n =>
    rcases execCrcBuf_eq_next h with ⟨-, rfl⟩ | ⟨-, bs, -, rfl⟩
    · exact Inv.finish hs nofun
    · exact Inv.finish (hs.setAcc _) nofun
  | encRaw n addr fc =>
    rcases execEncRaw_eq_next h with ⟨-, rfl⟩ | ⟨hn, payload, -, rfl⟩
    · exact Inv.finish hs nofun
    · exact Inv.finish (hs.setTx _ (wrapPayload_wf _ addr fc payload hn hs.canonical.1)) nofun
  | encWords addr fc =>
    cases h
    refine Inv.finish (hs.setTx _ (Mem.wf_writeBytes _ ?_ hs.canonical.1)) nofun
    simp [bigEndian, txCap]
  | decodeBuf =>
    rcases execDecode_eq_next h with ⟨-, rfl⟩ | ⟨-, bs, -, rfl⟩
    · exact Inv.finish hs nofun
    · exact Inv.of_idle (hs.complete _ (decodeFrame_code_ne _ bs)) rfl
  | openLine baud parity =>
    rcases execOpen_eq_next h with ⟨b, p, -, -, rfl⟩ | ⟨-, rfl⟩
    · exact Inv.finish (hs.setLine hidle b p) nofun
    · exact Inv.finish hs nofun
  | closeLine =>
    cases h
    exact Inv.finish (hs.unsetLine hidle) nofun
  | xfer e =>
    rcases execXfer_eq_next h with ⟨-, rfl⟩ | ⟨-, -, rfl⟩ | ⟨ho, hl, ⟨bs, hbs⟩, rfl⟩
    · exact Inv.finish hs nofun
    · exact Inv.finish hs nofun
    · refine startExchange_inv hs ho hl (fun i hi => ?_) e
      simpa using Mem.span_isSome_iff.mp (Option.isSome_iff_exists.mpr ⟨bs, hbs⟩) i hi

/-- Issuing any word on an idle block leaves a state that meets the invariant (R204). -/
theorem issueCommand_inv {w : Word} {s t : State} (hs : Steady s) (hidle : s.phase = .idle)
    (h : issueCommand w s = .next t) : Inv t := by
  rcases issueCommand_cases w s with ⟨i, -, hi⟩ | ⟨-, hbad⟩
  · exact exec_inv (hs.accept hidle) hidle (hi ▸ h)
  · cases hbad.symm.trans h
    exact Inv.finish (hs.accept hidle) nofun

/-- A store leaves the phase alone (R25 to R34). -/
theorem storeReg_phase (r : Reg) (v : Word) (s : State) : (storeReg r v s).phase = s.phase := by
  cases r <;> rfl

/-- The Reset step leaves a state that meets the invariant, whatever it found (R47, R220). -/
theorem resetStep_inv {s : State} (h : DurationsPositive s) : Inv (resetStep s) := by
  refine Inv.of_idle ⟨⟨rfl, rfl⟩, ⟨nofun, fun _ => ⟨rfl, rfl⟩, nofun⟩, nofun, ⟨?_, fun _ => rfl⟩,
    nofun, h⟩ rfl
  exact Nat.zero_le _

/-- Every wait of the default parameters lasts at least one tick (R6, R7). -/
theorem durationsPositive_reset : DurationsPositive State.reset := by
  intro b
  cases b <;> decide

/-- Settles O59: the reset state is the result of a Reset step, and the default durations are positive. -/
theorem resetMeetsTheInvariant : Obligations.ResetMeetsTheInvariant :=
  resetStep_inv (s := State.reset) durationsPositive_reset

/-- Every step keeps the invariant. -/
theorem step_inv {s t : State} (hs : Inv s) (h : step s = .next t) : Inv t := by
  have steady := Inv.steady hs
  cases stepCase_of_step h with
  | reset rest _ ht => exact ht ▸ resetStep_inv steady.positive
  | command w u es held hidle hu _ ht =>
    subst hu
    exact issueCommand_inv (Inv.steady (s := { s with pending := es, held := held }) hs) hidle ht
  | store off v es held hidle ht =>
    subst ht
    have hu : Steady { s with pending := es, held := held } := Inv.steady hs
    exact Inv.of_idle (storeReg_steady hu off v) ((storeReg_phase _ _ _).trans hidle)
  | environment es held trace ht => exact ht ▸ hs
  | tick input es n ht =>
    obtain ⟨u, hu, hinv⟩ := tick_inv (s := { s with pending := es, oracle := n }) hs input
    cases hu.symm.trans ht
    exact hinv

/-! ### The settings: parameters, accumulator and line -/

/-- `t` has the parameters, the accumulator and the line's settings that `s` has. -/
structure SameSettings (s t : State) : Prop where
  cfg : t.cfg = s.cfg
  acc : t.acc = s.acc
  isOpen : t.isOpen = s.isOpen
  baud : t.baud = s.baud
  parity : t.parity = s.parity
  tstart : t.tstart = s.tstart

theorem SameSettings.trans {s t u : State} (h : SameSettings s t) (h' : SameSettings t u) :
    SameSettings s u :=
  ⟨h'.cfg.trans h.cfg, h'.acc.trans h.acc, h'.isOpen.trans h.isOpen, h'.baud.trans h.baud,
    h'.parity.trans h.parity, h'.tstart.trans h.tstart⟩

/-- CRC_INIT, CRC_BYTE or CRC_BUF (R102 to R104). -/
def IsCrcCommand (i : Instr) : Prop := i = .crcInit ∨ (∃ b, i = .crcByte b) ∨ ∃ sel n, i = .crcBuf sel n

/-- CLOSE or OPEN (R140, R141). -/
def IsLineCommand (i : Instr) : Prop := i = .closeLine ∨ ∃ b p, i = .openLine b p

/-- From `s` to `t` no setting changed but those the command `i` writes (R22 to R24, R30). -/
structure SettingsBy (i : Instr) (s t : State) : Prop where
  cfg : t.cfg = s.cfg
  acc : IsCrcCommand i ∨ t.acc = s.acc
  isOpen : IsLineCommand i ∨ t.isOpen = s.isOpen
  line : (∃ b p, i = .openLine b p) ∨ (t.baud = s.baud ∧ t.parity = s.parity ∧ t.tstart = s.tstart)

theorem SameSettings.settingsBy {s t : State} (h : SameSettings s t) (i : Instr) : SettingsBy i s t :=
  ⟨h.cfg, .inr h.acc, .inr h.isOpen, .inr ⟨h.baud, h.parity, h.tstart⟩⟩

theorem startExchange_sameSettings (s : State) (e : Bool) : SameSettings s (s.startExchange e) := by
  rcases startExchange_cases s e with ⟨-, h⟩ | ⟨-, h⟩ | ⟨-, h⟩ <;> rw [h] <;> constructor <;> rfl

/-- Every command leaves the parameters and the settings that are not its own. -/
theorem exec_settingsBy {i : Instr} {s t : State} (h : exec i s = .next t) : SettingsBy i s t := by
  have finished : ∀ c, SettingsBy i s (s.finish c) := fun c =>
    ⟨rfl, .inr rfl, .inr rfl, .inr ⟨rfl, rfl, rfl⟩⟩
  have crc : IsCrcCommand i → ∀ a, SettingsBy i s ((s.setAcc a).finish .none) := fun hi a =>
    ⟨rfl, .inl hi, .inr rfl, .inr ⟨rfl, rfl, rfl⟩⟩
  have sent : ∀ m n, SettingsBy i s ((s.setTx m n).finish .none) := fun m n =>
    ⟨rfl, .inr rfl, .inr rfl, .inr ⟨rfl, rfl, rfl⟩⟩
  cases i with
  | crcInit =>
    cases h
    exact crc (.inl rfl) _
  | crcByte b =>
    cases h
    exact crc (.inr (.inl ⟨b, rfl⟩)) _
  | crcBuf sel n =>
    rcases execCrcBuf_eq_next h with ⟨-, rfl⟩ | ⟨-, bs, -, rfl⟩
    · exact finished _
    · exact crc (.inr (.inr ⟨sel, n, rfl⟩)) _
  | encRaw n addr fc =>
    rcases execEncRaw_eq_next h with ⟨-, rfl⟩ | ⟨-, payload, -, rfl⟩
    · exact finished _
    · exact sent _ _
  | encWords addr fc =>
    cases h
    exact sent _ _
  | decodeBuf =>
    rcases execDecode_eq_next h with ⟨-, rfl⟩ | ⟨-, bs, -, rfl⟩
    · exact finished _
    · exact ⟨rfl, .inr rfl, .inr rfl, .inr ⟨rfl, rfl, rfl⟩⟩
  | openLine baud parity =>
    rcases execOpen_eq_next h with ⟨b, p, -, -, rfl⟩ | ⟨-, rfl⟩
    · exact ⟨rfl, .inr rfl, .inl (.inr ⟨baud, parity, rfl⟩), .inl ⟨baud, parity, rfl⟩⟩
    · exact finished _
  | closeLine =>
    cases h
    exact ⟨rfl, .inr rfl, .inl (.inl rfl), .inr ⟨rfl, rfl, rfl⟩⟩
  | xfer e =>
    rcases execXfer_eq_next h with ⟨-, rfl⟩ | ⟨-, -, rfl⟩ | ⟨-, -, -, rfl⟩
    · exact finished _
    · exact finished _
    · exact (startExchange_sameSettings s e).settingsBy _

theorem ReceiveFrame.sameSettings {s t : State} (h : ReceiveFrame s t) : SameSettings s t := by
  rw [h]
  constructor <;> rfl

theorem txTick_sameSettings {s t : State} (h : txTick s = .next t) : SameSettings s t := by
  rcases txTick_eq_next h with ⟨-, rfl⟩ | ⟨-, b, -, ⟨-, rfl⟩ | ⟨-, rfl⟩⟩
  · constructor <;> rfl
  · constructor <;> rfl
  · rcases txComplete_cases (s.endChar b) with ⟨-, h⟩ | ⟨-, h⟩ <;> rw [h] <;> constructor <;> rfl

/-- A Tick changes no setting (R150). -/
theorem tick_sameSettings {input : Option Byte} {s t : State} (h : tick input s = .next t) :
    SameSettings s t := by
  have begun : SameSettings s (beginTick input s) := by
    rw [beginTick_eq]
    constructor <;> rfl
  rcases engine_eq_next h with ⟨-, rfl⟩ | ⟨-, htx⟩ | ⟨-, u, hu, ht⟩
  · exact begun
  · exact begun.trans (txTick_sameSettings htx)
  · exact begun.trans ((rxLoop_frame 4 hu).trans (deadlineCheck_frame ht)).sameSettings

theorem storeReg_sameSettings (r : Reg) (v : Word) (s : State) : SameSettings s (storeReg r v s) := by
  cases r <;> constructor <;> rfl

/-- A step that is no Reset changes no setting, or runs a command and changes only that command's. -/
theorem step_settings {s t : State} (h : step s = .next t) :
    (resetsNext s = true ∧ t.cfg = s.cfg) ∨ SameSettings s t ∨
      ∃ w u i, nextCommand s = some (w, u) ∧ decode w = .ok i ∧ SettingsBy i s t := by
  cases stepCase_of_step h with
  | reset rest hnext ht => exact .inl ⟨hnext, ht ▸ rfl⟩
  | command w u es held _ hu hnext ht =>
    subst hu
    rcases issueCommand_cases w { s with pending := es, held := held } with ⟨i, hi, hexec⟩ | ⟨-, hbad⟩
    · obtain ⟨hcfg, hacc, hopen, hline⟩ := exec_settingsBy (hexec ▸ ht)
      exact .inr (.inr ⟨w, _, i, hnext, hi, hcfg, hacc, hopen, hline⟩)
    · cases hbad.symm.trans ht
      exact .inr (.inl ⟨rfl, rfl, rfl, rfl, rfl, rfl⟩)
  | store off v es held _ ht =>
    subst ht
    obtain ⟨hcfg, hacc, hopen, hbaud, hparity, htstart⟩ := storeReg_sameSettings (regAt off) v
      { s with pending := es, held := held }
    exact .inr (.inl ⟨hcfg, hacc, hopen, hbaud, hparity, htstart⟩)
  | environment es held trace ht =>
    subst ht
    exact .inr (.inl ⟨rfl, rfl, rfl, rfl, rfl, rfl⟩)
  | tick input es n ht =>
    obtain ⟨hcfg, hacc, hopen, hbaud, hparity, htstart⟩ := tick_sameSettings ht
    exact .inr (.inl ⟨hcfg, hacc, hopen, hbaud, hparity, htstart⟩)

/-- No step changes the parameters (R5, log 9). -/
theorem step_cfg {s t : State} (h : step s = .next t) : t.cfg = s.cfg := by
  rcases step_settings h with ⟨-, hcfg⟩ | same | ⟨w, u, i, -, -, by_i⟩
  · exact hcfg
  · exact same.cfg
  · exact by_i.cfg

/-- Settles O60: a case split over what a step can do. -/
theorem everyStepKeepsTheInvariant : Obligations.EveryStepKeepsTheInvariant :=
  ⟨fun _ _ => step_inv, fun _ _ => step_cfg⟩

/-- Settles O47: ACC is a setting that only the CRC commands write. -/
theorem accumulatorWrittenOnlyByCrcCommands : Obligations.AccumulatorWrittenOnlyByCrcCommands := by
  intro s t h hne
  rcases step_settings h with ⟨hreset, -⟩ | same | ⟨w, u, i, hnext, hi, by_i⟩
  · exact .inl hreset
  · exact absurd same.acc hne
  · exact .inr ⟨w, u, i, hnext, hi, by_i.acc.resolve_right hne⟩

/-- Settles O48: OPEN, LINECFG and TSTART are settings that only OPEN, and for OPEN itself CLOSE, write. -/
theorem lineStateWrittenOnlyByLineCommands : Obligations.LineStateWrittenOnlyByLineCommands := by
  intro s t h
  rcases step_settings h with ⟨hreset, -⟩ | same | ⟨w, u, i, hnext, hi, by_i⟩
  · exact ⟨fun _ => .inl hreset, fun _ => .inl hreset⟩
  · refine ⟨fun hne => absurd same.isOpen hne, fun hne => ?_⟩
    rcases hne with hne | hne | hne
    · exact absurd same.baud hne
    · exact absurd same.parity hne
    · exact absurd same.tstart hne
  · refine ⟨fun hne => .inr ⟨w, u, i, hnext, hi, by_i.isOpen.resolve_right hne⟩, fun hne => ?_⟩
    obtain ⟨b, p, rfl⟩ := by_i.line.resolve_right fun ⟨hb, hp, ht⟩ => by simp [hb, hp, ht] at hne
    exact .inr ⟨w, u, b, p, hnext, hi⟩

end Sys2Proof.Machine

/-! ## Proofs: the host register space (10_state.md section 2, 20_memory.md R60 to R62)

Which register stands at which offset, by the ranges of the window; then what an access of it reads and
stores. -/

namespace Sys2Proof.Machine

open Sys2Proof.Safety

/-- An offset of the window as a number. -/
theorem toNat_offset {n : Nat} (h : n < 4096) : (BitVec.ofNat 12 n).toNat = n := by
  rw [BitVec.toNat_ofNat]
  omega

/-- TXBUF's range of the window (R31, R60). -/
theorem regAt_of_txbuf {off : BitVec 12} (h : 0x100 ≤ off.toNat) (h' : off.toNat < 0x500) :
    regAt off = .txbuf ((off.toNat - 0x100) / 4) := by
  rw [regAt, if_neg (by omega), if_neg (by omega), if_pos h']

/-- RXBUF's range of the window (R32, R60). -/
theorem regAt_of_rxbuf {off : BitVec 12} (h : 0x500 ≤ off.toNat) (h' : off.toNat < 0x910) :
    regAt off = .rxbuf ((off.toNat - 0x500) / 4) := by
  rw [regAt, if_neg (by omega), if_neg (by omega), if_neg (by omega), if_pos h']

/-- RXWORD's range of the window (R33, R60). -/
theorem regAt_of_rxword {off : BitVec 12} (h : 0xA00 ≤ off.toNat) (h' : off.toNat < 0xC00) :
    regAt off = .rxword ((off.toNat - 0xA00) / 4) := by
  rw [regAt, if_neg (by omega), if_neg (by omega), if_neg (by omega), if_neg (by omega), if_neg (by omega),
    if_pos h']

/-- The reserved offsets of the window (R34, R60). -/
def ReservedOffset (n : Nat) : Prop := (0x028 ≤ n ∧ n < 0x100) ∨ (0x910 ≤ n ∧ n < 0xA00) ∨ 0xC00 ≤ n

theorem regAt_of_reserved {off : BitVec 12} (h : ReservedOffset off.toNat) : regAt off = .reserved := by
  unfold regAt
  rcases h with h | h | h
  · rw [if_neg (by omega), if_pos h.2]
  · rw [if_neg (by omega), if_neg (by omega), if_neg (by omega), if_neg (by omega), if_pos h.2]
  · rw [if_neg (by omega), if_neg (by omega), if_neg (by omega), if_neg (by omega), if_neg (by omega),
      if_neg (by omega)]

/-- The same for an offset written as a number. -/
theorem regAt_reserved_offset {n : Nat} (hn : n < 4096) (h : ReservedOffset n) :
    regAt (BitVec.ofNat 12 n) = .reserved := regAt_of_reserved (by rwa [toNat_offset hn])

/-- The place of TXBUF[i] (R31). -/
theorem regAt_txbuf_offset {i : Nat} (h : i < 256) : regAt (BitVec.ofNat 12 (0x100 + 4 * i)) = .txbuf i := by
  have hn : (BitVec.ofNat 12 (0x100 + 4 * i)).toNat = 0x100 + 4 * i := toNat_offset (by omega)
  rw [regAt_of_txbuf (by omega) (by omega), hn]
  congr 1
  omega

/-- The place of RXBUF[i] (R32). -/
theorem regAt_rxbuf_offset {i : Nat} (h : i < 260) : regAt (BitVec.ofNat 12 (0x500 + 4 * i)) = .rxbuf i := by
  have hn : (BitVec.ofNat 12 (0x500 + 4 * i)).toNat = 0x500 + 4 * i := toNat_offset (by omega)
  rw [regAt_of_rxbuf (by omega) (by omega), hn]
  congr 1
  omega

/-- An address of the window is at its distance from BASE_ADDR (R60). -/
theorem windowOffset_inside {k : Nat} (h : k < 4096) :
    windowOffset (Config.baseAddr + k) = some (BitVec.ofNat 12 k) := by
  rw [windowOffset, if_pos (by omega), Nat.add_sub_cancel_left]

/-- An address outside the window has no offset (R60). -/
theorem windowOffset_outside {addr : Nat} (h : addr < Config.baseAddr ∨ Config.baseAddr + 4096 ≤ addr) :
    windowOffset addr = none := if_neg (by omega)

/-- Settles O56: the ranges of the window, one after another. -/
theorem windowLayout : Obligations.WindowLayout := by
  refine ⟨by decide, ?_, fun i => regAt_txbuf_offset, fun i => regAt_rxbuf_offset, ?_,
    fun k => regAt_rxword, ?_, fun k => windowOffset_inside, fun addr => windowOffset_outside⟩
  · intro k hlow hhigh
    exact regAt_reserved_offset (by omega) (.inl (by omega))
  · intro k hk
    exact regAt_reserved_offset (by omega) (.inr (.inl (by omega)))
  · intro k hk
    exact regAt_reserved_offset (by omega) (.inr (.inr (by omega)))

/-! ### Which accesses are refused (R62) -/

/-- A 32-bit access at a multiple of 4 is an access of the interface (R62). -/
theorem legalAccess_of_aligned {off : BitVec 12} (h : off.toNat % 4 = 0) : legalAccess off 4 = true := by
  simp [legalAccess, h]

/-- No other access is (R62). -/
theorem legalAccess_of_misaligned {off : BitVec 12} {width : Nat} (h : width ≠ 4 ∨ off.toNat % 4 ≠ 0) :
    legalAccess off width = false := by
  rcases h with h | h <;> simp [legalAccess, h]

theorem performRead_of_illegal {off : BitVec 12} {width : Nat} (h : legalAccess off width = false)
    (s : State) : performRead off width s = .refused .misalignedHostAccess := by
  simp [performRead, h]

theorem hostWrite_of_illegal {a : HostWrite} (h : legalAccess a.off a.width = false) (s : State) :
    hostWrite a s = .refused .misalignedHostAccess := by
  simp [hostWrite, h]

/-- A legal read answers or is the fault (R45, R62). -/
theorem performRead_ne_refused {off : BitVec 12} {width : Nat} (h : legalAccess off width = true) (s : State)
    (r : Refusal) : performRead off width s ≠ .refused r := by
  cases hv : readReg s (regAt off) with
  | none => simp [performRead_of_unwritten h hv]
  | some v => simp [performRead_eq_next.mpr ⟨h, v, hv, rfl⟩]

theorem decodeReceived_ne_refused (s : State) (r : Refusal) : decodeReceived s ≠ .refused r := by
  unfold decodeReceived
  split <;> nofun

/-- No command is refused: it answers or is the fault (R45, R202). -/
theorem exec_ne_refused (i : Instr) (s : State) (r : Refusal) : exec i s ≠ .refused r := by
  cases i with
  | crcInit => nofun
  | crcByte b => nofun
  | crcBuf sel n =>
    simp only [exec, execCrcBuf]
    split
    · nofun
    · split <;> nofun
  | encRaw n addr fc =>
    simp only [exec, execEncRaw]
    split
    · nofun
    · split <;> nofun
  | encWords addr fc => nofun
  | decodeBuf =>
    simp only [exec, execDecode]
    split
    · nofun
    · exact decodeReceived_ne_refused s r
  | openLine baud parity =>
    simp only [exec, execOpen]
    split <;> nofun
  | closeLine => nofun
  | xfer e =>
    simp only [exec, execXfer]
    split
    · nofun
    · split
      · nofun
      · split <;> nofun

theorem performWrite_ne_refused (off : BitVec 12) (v : Word) (s : State) (r : Refusal) :
    performWrite off v s ≠ .refused r := by
  by_cases hreg : regAt off = .cmd
  · rw [performWrite_of_cmd hreg]
    rcases issueCommand_cases v s with ⟨i, -, h⟩ | ⟨-, h⟩ <;> rw [h]
    · exact exec_ne_refused i _ r
    · nofun
  · rw [performWrite_of_ne_cmd hreg]
    nofun

/-- A legal write is held, refused as unholdable, or performed, and never refused as misaligned (R62). -/
theorem hostWrite_ne_misaligned {a : HostWrite} (h : legalAccess a.off a.width = true) (s : State) :
    hostWrite a s ≠ .refused .misalignedHostAccess := by
  rw [hostWrite, if_pos h]
  split
  · split <;> nofun
  · exact performWrite_ne_refused _ _ _ _

/-- Settles O51: legality is checked before all else, and nothing after it refuses an access as
misaligned. -/
theorem misalignedAccessesAreRefused : Obligations.MisalignedAccessesAreRefused := by
  refine ⟨fun s off width h => ?_, fun s off h => ?_⟩
  · have hl := legalAccess_of_misaligned h
    exact ⟨performRead_of_illegal hl s, fun v canHold => hostWrite_of_illegal hl s⟩
  · have hl := legalAccess_of_aligned h
    exact ⟨performRead_ne_refused hl s _, fun v canHold => hostWrite_ne_misaligned hl s⟩

/-! ### What a register reads as (R21 to R34) -/

/-- STATUS as a number (R22). -/
theorem statusWord_toNat (s : State) :
    (statusWord s).toNat = s.busy.toNat + 2 * s.done.toNat + 4 * s.err.toNat + 8 * s.isOpen.toNat +
      256 * s.errcode.bits.toNat + 65536 * s.phase.bits.toNat := by
  simp only [statusWord, toNat_append_eq, BitVec.toNat_ofBool]
  simp
  omega

/-- LINECFG as a number (R23). -/
theorem linecfgWord_toNat (s : State) :
    (linecfgWord s).toNat = s.baud.bits.toNat + 16 * s.parity.bits.toNat := by
  simp only [linecfgWord, toNat_append_eq]
  simp
  omega

/-- CRC as a number (R24). -/
theorem crcWord_toNat (s : State) : (crcWord s).toNat = s.acc.toNat := by
  rw [crcWord, toNat_append_eq]
  simp

/-- RESP0 as a number (R28). -/
theorem resp0Word_toNat (s : State) :
    (resp0Word s).toNat = s.respAddr.toNat + 256 * s.respFc.toNat + 65536 * s.respBc.toNat := by
  simp only [resp0Word, toNat_append_eq]
  simp
  omega

/-- RESP1 as a number (R29). -/
theorem resp1Word_toNat (s : State) :
    (resp1Word s).toNat = s.crcRx.toNat + 65536 * s.crcCalc.toNat := by
  simp only [resp1Word, toNat_append_eq]
  omega

/-- A length register reads as its number (R26, R27). -/
theorem lengthWord_toNat (n : BitVec 9) : (n.setWidth 32).toNat = n.toNat := by
  rw [BitVec.toNat_setWidth]
  omega

/-- Settles O53: each register word is its fields at their bits, as a number. -/
theorem registerWordsByField : Obligations.RegisterWordsByField := by
  refine ⟨by decide, by decide, by decide, by decide, fun s => ⟨rfl, ⟨_, rfl, statusWord_toNat s⟩,
    ⟨_, rfl, linecfgWord_toNat s⟩, ⟨_, rfl, crcWord_toNat s⟩, rfl, ⟨_, rfl, lengthWord_toNat s.txlen⟩,
    ⟨_, rfl, lengthWord_toNat s.rxlen⟩, ⟨_, rfl, resp0Word_toNat s⟩, ⟨_, rfl, resp1Word_toNat s⟩, rfl, ?_⟩⟩
  simp [State.busy]

/-- A host read of a register with a value adds it to the observation (R13, R64). -/
theorem performRead_of_value {off : BitVec 12} {s : State} {v : Word} (h4 : off.toNat % 4 = 0)
    (hv : readReg s (regAt off) = some v) :
    performRead off 4 s = .next { s with trace := .hostRead off v :: s.trace } :=
  performRead_eq_next.mpr ⟨legalAccess_of_aligned h4, v, hv, rfl⟩

/-- A host read of a buffer register, by the byte it names (R31, R32, R45). -/
theorem performRead_of_byte {off : BitVec 12} {s : State} {byte : Option Byte} (h4 : off.toNat % 4 = 0)
    (hv : readReg s (regAt off) = byte.map (·.setWidth 32)) :
    (∀ b, byte = some b →
      performRead off 4 s = .next { s with trace := .hostRead off (b.setWidth 32) :: s.trace }) ∧
    (byte = none → performRead off 4 s = .fault .uninitRead) := by
  refine ⟨fun b hb => performRead_of_value h4 ?_, fun hb => ?_⟩
  · rw [hv, hb, Option.map_some]
  · exact performRead_of_unwritten (legalAccess_of_aligned h4) (by rw [hv, hb, Option.map_none])

/-- Settles O55: the offset names the buffer's byte, or no register; a Reset leaves the buffers empty. -/
theorem bufferReadsAndWrittenMarks : Obligations.BufferReadsAndWrittenMarks := by
  refine ⟨fun s i hi => performRead_of_byte ?_ ?_, fun s i hi => performRead_of_byte ?_ ?_,
    fun s off h4 h => performRead_of_value h4 ?_, fun s i => ⟨rfl, rfl⟩⟩
  · rw [toNat_offset (by omega)]
    omega
  · rw [regAt_txbuf_offset hi, readReg]
  · rw [toNat_offset (by omega)]
    omega
  · rw [regAt_rxbuf_offset hi, readReg]
  · rw [regAt_of_reserved h, readReg]

/-! ### What a write stores (R25 to R34) -/

/-- A performed write to a register other than CMD stores in it (R64). -/
theorem performWrite_of_reg {off : BitVec 12} {r : Reg} (h : regAt off = r) (hr : r ≠ .cmd) (v : Word)
    (s : State) : performWrite off v s = .next (storeReg r v s) := by
  subst h
  exact performWrite_of_ne_cmd hr v s

/-- The offsets of RXWORD and of no register, which have no writable register (R33, R34). -/
theorem performWrite_of_unwritable {off : BitVec 12} (v : Word) (s : State)
    (h : (0x028 ≤ off.toNat ∧ off.toNat < 0x100) ∨ 0x910 ≤ off.toNat) :
    performWrite off v s = .next s := by
  by_cases hw : 0xA00 ≤ off.toNat ∧ off.toNat < 0xC00
  · exact performWrite_of_reg (regAt_of_rxword hw.1 hw.2) nofun v s
  · refine performWrite_of_reg (regAt_of_reserved ?_) nofun v s
    unfold ReservedOffset
    omega

/-- The read-only registers (R22 to R24, R28 to R30). -/
theorem performWrite_of_readOnly {off : BitVec 12} (v : Word) (s : State)
    (h : off ∈ [0x004, 0x008, 0x00C, 0x01C, 0x020, (0x024 : BitVec 12)]) :
    performWrite off v s = .next s := by
  fin_cases h
  · exact performWrite_of_reg (r := .status) (by decide) nofun v s
  · exact performWrite_of_reg (r := .linecfg) (by decide) nofun v s
  · exact performWrite_of_reg (r := .crc) (by decide) nofun v s
  · exact performWrite_of_reg (r := .resp0) (by decide) nofun v s
  · exact performWrite_of_reg (r := .resp1) (by decide) nofun v s
  · exact performWrite_of_reg (r := .tstart) (by decide) nofun v s

/-- Settles O54: each write is a store in the register its offset names. -/
theorem hostWritesStoreTheirRegister : Obligations.HostWritesStoreTheirRegister := by
  refine ⟨fun s v => ⟨?arg, ?txlen, ?rxlen⟩, fun s v i hi => ?txbuf, fun s v i hi => ?rxbuf,
    fun s v off _ h => h.elim (performWrite_of_readOnly v s) (performWrite_of_unwritable v s)⟩
  case arg => exact performWrite_of_reg (r := .arg) (by decide) nofun v s
  case txlen => exact performWrite_of_reg (r := .txlen) (by decide) nofun v s
  case rxlen => exact performWrite_of_reg (r := .rxlen) (by decide) nofun v s
  case txbuf =>
    exact ⟨_, performWrite_of_reg (regAt_txbuf_offset hi) nofun v s, Mem.get_write_same _ _ _,
      fun k hk => Mem.get_write_other _ _ hk⟩
  case rxbuf =>
    exact ⟨_, performWrite_of_reg (regAt_rxbuf_offset hi) nofun v s, Mem.get_write_same _ _ _,
      fun k hk => Mem.get_write_other _ _ hk⟩

/-! ### The BUSY hold (43_transport.md R142) -/

/-- Settles O50: a write that must wait is held or refused, and one that need not is performed at once. -/
theorem hostWritesAreHeldWhileBusy : Obligations.HostWritesAreHeldWhileBusy := by
  refine ⟨fun s a hb hl => ⟨fun hc => ?held, fun hc => ?refused⟩, fun s hb => ?disabled,
    fun s off v _ hl hv => performRead_eq_next.mpr ⟨hl, v, hv, rfl⟩, fun s a hb hfree hl => ?atOnce,
    fun s a b rest hb hh hl hc => ?joins, fun s a rest hb hh hl => ?oldest⟩
  case held => exact hostWrite_eq_next.mpr ⟨hl, .inl ⟨mustWait_of_busy a hb, hc, rfl⟩⟩
  case refused => rw [hostWrite, if_pos hl, if_pos (mustWait_of_busy a hb), if_neg (by simp [hc])]
  case disabled =>
    rcases performHeld_cases s with ⟨-, h⟩ | ⟨_, _, -, hidle, -⟩
    · exact h
    · exact absurd (hb.symm.trans hidle) nofun
  case atOnce =>
    have hgo : mustWait a s = false := by
      rcases hfree with hh | hc
      · exact mustWait_of_idle a hb hh
      · simp [mustWait, hb, hc]
    rw [hostWrite_of_not_mustWait hgo, writeNow, if_pos hl]
  case joins => exact hostWrite_eq_next.mpr ⟨hl, .inl ⟨by simp [mustWait, hh, hc], hc, rfl⟩⟩
  case oldest =>
    have hperform : writeNow a { s with held := rest } = performWrite a.off a.value { s with held := rest } :=
      if_pos hl
    exact ⟨(performHeld_of_held hb hh).trans hperform,
      fun hp => ((step_of_unlisted hp).trans (unscheduled_of_held hb hh)).trans hperform⟩

end Sys2Proof.Machine

/-! ## Proofs: the commands as the host issues them (10_state.md R21, 43_transport.md R140 to R145,
60_exceptions.md R204, 70_reset_and_hazards.md R220) -/

namespace Sys2Proof.Machine

open Sys2Proof.Safety

/-- Settles O1: the words and commands are written out; decoding evaluates. -/
theorem commandWordsOfTheOpcodeTable : Obligations.CommandWordsOfTheOpcodeTable := by
  refine ⟨?_, ?_, ?_, ?_, ?_, ?_, ?_, ?_, ?_⟩ <;> decide

/-- The step that issues a command word is the issue of that word (R21). -/
theorem step_of_nextCommand {s t : State} {w : Word} (h : nextCommand s = some (w, t)) :
    step s = issueCommand w t := by
  unfold nextCommand at h
  split at h
  · rename_i a u hw
    split at h
    · rename_i hlegal
      cases h
      obtain ⟨hl, hreg⟩ := hlegal
      rw [(step_of_performedWrite hw).1, writeNow, if_pos hl, performWrite_of_cmd hreg]
    · cases h
  · cases h

/-- A placed word is the next command, whatever the state (log 6). -/
theorem nextCommand_withFetchWord (s : State) (w : Word) :
    nextCommand (s.withFetchWord 32 w.toNat) = some (w, { s with phase := .idle }) := by
  have hw : BitVec.ofNat 32 (w.toNat % 2 ^ 32) = w := by
    rw [Nat.mod_eq_of_lt w.isLt, BitVec.ofNat_toNat, BitVec.setWidth_eq]
  have hp : performedWrite (placeCommand w s) = some (cmdWrite w, { s with phase := .idle }) := rfl
  rw [State.withFetchWord, hw, nextCommand, hp]
  exact if_pos (by decide : legalAccess 0 4 = true ∧ regAt 0 = .cmd)

/-- Settles O8: the step is the issue of the word, which clears the report and runs its command. -/
theorem stepRunsTheDecodedCommand : Obligations.StepRunsTheDecodedCommand :=
  ⟨fun _ t _ _ hnext hdec => (step_of_nextCommand hnext).trans (issueCommand_of_decode hdec t),
    nextCommand_withFetchWord⟩

/-- Settles O58: the listed event is the step, and the Reset step keeps the environment's fields. -/
theorem resetStepFromAnyState : Obligations.ResetStepFromAnyState :=
  fun _ _ hp => (step_of_listed hp).trans rfl

/-- Settles O29: both fields that CLOSE writes have their value after the first CLOSE. -/
theorem closeIsIdempotent : Obligations.CloseIsIdempotent := by
  refine ⟨fun s => rfl, fun s t h => ?_⟩
  cases h
  rfl

/-! ### The durations and OPEN -/

/-- The default durations at every baud (R6). -/
theorem default_durations (b : BaudSel) :
    tStart params b = max (b.rate / 2) 2000 ∧ tRead params b = b.rate ∧ tSil params b * 20 = b.rate ∧
      tStart params b * 2 = b.rate := by
  cases b <;> decide

/-- Settles O27: the durations are the rule's formulas, and at the defaults they are evaluated baud by
baud. -/
theorem derivedDurations : Obligations.DerivedDurations := by
  refine ⟨fun p b => ⟨rfl, rfl, rfl⟩, fun p => ⟨rfl, ?_, ?_⟩, default_durations, rfl, rfl, rfl,
    by decide, rfl⟩
  · simp only [charBits, reduceCtorEq, if_false]
    omega
  · simp only [charBits, reduceCtorEq, if_false]
    omega

/-- A legal BAUDSEL is the encoding of a baud (R89). -/
theorem exists_baud {field : BitVec 3} (h : field.toNat ≤ 4) :
    ∃ b : BaudSel, baudOf field = some b ∧ b.bits = field := by
  revert field
  decide

/-- A legal PARITY is the encoding of a parity (R89). -/
theorem exists_parity {field : BitVec 2} (h : field.toNat ≤ 2) :
    ∃ p : Parity, parityOf field = some p ∧ p.bits = field := by
  revert field
  decide

/-- TSTART shows T_START where 32 bits hold it (R30). -/
theorem startWord_toNat {p : Params} {b : BaudSel} (h : tStart p b < 2 ^ 32) :
    (startWord p b).toNat = tStart p b := by
  rw [startWord, if_pos h, BitVec.toNat_ofNat, Nat.mod_eq_of_lt h]

/-- Settles O28: legal fields are a baud's and a parity's encodings, which OPEN decodes; the others OPEN
rejects (`execOpen_of_illegal`). -/
theorem openConfiguresTheLine : Obligations.OpenConfiguresTheLine := by
  refine ⟨fun baud parity s hb hp => ?legal, fun p b => startWord_toNat, fun baud parity s h => ?illegal,
    by decide, by decide, fun b => ⟨(default_durations b).1, by cases b <;> decide⟩⟩
  case legal =>
    obtain ⟨b, hbaud, hbits⟩ := exists_baud hb
    obtain ⟨p, hparity, hpbits⟩ := exists_parity hp
    refine ⟨b, p, hbits, hpbits, ?_⟩
    rw [exec, execOpen, hbaud, hparity]
    rfl
  case illegal =>
    refine execOpen_of_illegal (h.imp (fun hb => ?_) fun hp => ?_) s
    · exact decide_eq_false (by omega)
    · exact decide_eq_false (by omega)

/-! ### XFER at issue -/

/-- A line with a byte to be sent unwritten (R45, R143). -/
theorem execXfer_of_unwritten {e : Bool} {s : State} (ho : s.isOpen = true) (hl : s.txlen.toNat ≤ 256)
    (h : ∃ i < s.txlen.toNat, s.txbuf.get i = none) : execXfer e s = .fault .uninitRead := by
  have hspan : s.txbuf.span 0 s.txlen.toNat = none := Mem.span_eq_none (by simpa using h)
  rw [execXfer, if_neg (by simp [ho]), if_neg (by simpa [txCap] using hl), hspan]

/-- An accepted XFER (R143). -/
theorem execXfer_of_written {e : Bool} {s : State} (ho : s.isOpen = true) (hl : s.txlen.toNat ≤ 256)
    (h : ∀ i < s.txlen.toNat, (s.txbuf.get i).isSome = true) :
    execXfer e s = .next (s.startExchange e) := by
  obtain ⟨bs, hbs⟩ := Option.isSome_iff_exists.mp
    (Mem.span_isSome_iff (start := 0).mpr (by simpa using h))
  rw [execXfer, if_neg (by simp [ho]), if_neg (by simpa [txCap] using hl), hbs]

/-- XFER with nothing to send ends its transmission at once (R145). -/
theorem execXfer_of_empty {e : Bool} {s : State} (ho : s.isOpen = true) (hz : s.txlen = 0) :
    execXfer e s = .next (s.beginExchange e).txComplete := by
  rw [execXfer_of_written ho (by simp [hz]) (by simp [hz]), State.startExchange, if_pos hz]

/-- Settles O30: the checks in their order (R207), then what acceptance writes, by TXLEN and EXPECT. -/
theorem xferAtIssue : Obligations.XferAtIssue := by
  refine fun e s => ⟨fun ho => if_pos ho, fun ho hl => ?tooLong, fun ho hl => execXfer_of_unwritten ho hl,
    fun ho hne hl hw => ?accepted, fun ho hz he => ?endsAtOnce, fun ho hz he => ?waits⟩
  case tooLong => exact (if_neg (by simp [ho])).trans (if_pos (by simpa [txCap] using hl))
  case accepted =>
    refine (execXfer_of_written ho hl hw).trans ?_
    rw [State.startExchange, if_neg hne]
    rfl
  case endsAtOnce =>
    subst he
    exact execXfer_of_empty ho hz
  case waits =>
    subst he
    exact execXfer_of_empty ho hz

/-! ### Host programs (30_encoding.md R87, R88) -/

/-- The state after ENC_READ or ENC_WRITE: the fields in ARG and the request's frame in TXBUF (R88). -/
def requestBuilt (s : State) (addr fc : Byte) (high low : Half) : State :=
  (({ s with arg := high ++ low } : State).accept.setTx
    (s.txbuf.writeBytes 0 (build s.cfg addr fc (bigEndian high ++ bigEndian low))) 8).finish .none

/-- ENC_WORDS with two fields in ARG (R112). -/
theorem exec_encWords_of_fields (s : State) (addr fc : Byte) (high low : Half) :
    exec (.encWords addr fc) ({ s with arg := high ++ low } : State).accept =
      .next (requestBuilt s addr fc high low) := by
  have hhigh : (high ++ low).extractLsb' 16 16 = high := BitVec.extractLsb'_append_eq_left
  have hlow : (high ++ low).extractLsb' 0 16 = low := BitVec.extractLsb'_append_eq_right
  simp only [exec, execEncWords, argHi, argLo, State.accept_arg, hhigh, hlow]
  rfl

section HostProgram

variable {s : State} (hidle : s.phase = .idle) (hheld : s.held = [])

include hidle hheld

/-- On an idle block with no write held a legal host write is performed at once (R142). -/
theorem envStep_write {a : HostWrite} (hl : legalAccess a.off a.width = true) :
    envStep (.write a) s = performWrite a.off a.value s := by
  have hgo : mustWait a s = false := mustWait_of_idle a (by simp [State.busy, hidle]) hheld
  exact (hostWrite_of_not_mustWait hgo).trans (if_pos hl)

/-- `WR ARG, v` (R25, R87). -/
theorem envStep_wr_arg (v : Word) : envStep (wr .arg v) s = .next { s with arg := v } :=
  (envStep_write hidle hheld (by decide : legalAccess 0x010 4 = true)).trans
    (performWrite_of_reg (off := 0x010) (r := .arg) (by decide) nofun v s)

/-- A command issued by its mnemonic runs on the accepted state (R87, R204). -/
theorem envStep_command (i : Instr) : envStep (command i) s = exec i s.accept :=
  calc envStep (command i) s
    _ = performWrite 0x000 (encode i) s := envStep_write hidle hheld (by decide : legalAccess 0 4 = true)
    _ = issueCommand (encode i) s := performWrite_of_cmd (by decide) _ s
    _ = exec i s.accept := issueCommand_of_decode (decode_encode i) s

/-- ENC_READ and ENC_WRITE are one program: the two fields to ARG, then ENC_WORDS (R88). -/
theorem runEvents_request (addr fc : Byte) (high low : Half) :
    runEvents [wr .arg (high ++ low), command (.encWords addr fc)] s =
      .next (requestBuilt s addr fc high low) := by
  rw [runEvents, envStep_wr_arg hidle hheld, andThen_of_next, runEvents,
    envStep_command (s := { s with arg := high ++ low }) hidle hheld, exec_encWords_of_fields,
    andThen_of_next, runEvents]

end HostProgram

/-- An idle block after a CRC command has left `acc` in ACC: nothing else changed but the report. -/
def crcReported (s : State) (acc : Half) : State :=
  { s with acc := acc, done := true, err := false, errcode := .none }

/-- CRC_BYTE after CRC_BYTE (R103). -/
theorem envStep_crcByte {s : State} (hidle : s.phase = .idle) (hheld : s.held = []) (acc : Half) (b : Byte) :
    envStep (command (.crcByte b)) (crcReported s acc) = .next (crcReported s (crcStep s.cfg acc b)) :=
  (envStep_command (s := crcReported s acc) hidle hheld (.crcByte b)).trans
    (congrArg _ (accept_setAcc_finish_of_idle (s := crcReported s acc) hidle _))

/-- A run of CRC_BYTEs folds the bytes into ACC (R88, R103). -/
theorem runEvents_crcByte {s : State} (hidle : s.phase = .idle) (hheld : s.held = []) :
    ∀ (bs : List Byte) (acc : Half),
      runEvents (bs.map fun b => command (.crcByte b)) (crcReported s acc) =
        .next (crcReported s (crcFold s.cfg acc bs)) := by
  intro bs
  induction bs with
  | nil => intro acc; rfl
  | cons b bs ih =>
    intro acc
    rw [List.map_cons, runEvents, envStep_crcByte hidle hheld, andThen_of_next, ih, crcFold]

/-- Settles O18: both requests are `runEvents_request`; CRC_BYTES is CRC_INIT and the fold of its bytes. -/
theorem pseudoInstructionsBuildRequestsAndCrcs : Obligations.PseudoInstructionsBuildRequestsAndCrcs := by
  refine ⟨fun s addr fc start count hidle hheld =>
      ⟨_, runEvents_request hidle hheld addr fc start count, rfl, rfl, rfl, rfl,
        Mem.holds_writeBytes s.txbuf 0 _⟩,
    fun s addr reg value hidle hheld =>
      ⟨_, runEvents_request hidle hheld addr 0x06 reg value, rfl, rfl, rfl, rfl,
        Mem.holds_writeBytes s.txbuf 0 _⟩,
    fun s bs hidle hheld => ?_⟩
  have hinit : envStep (command .crcInit) s = .next (crcReported s s.cfg.crcInit) :=
    (envStep_command hidle hheld .crcInit).trans (congrArg _ (accept_setAcc_finish_of_idle hidle _))
  rw [crcBytes, runEvents, hinit, andThen_of_next]
  exact runEvents_crcByte hidle hheld bs _

end Sys2Proof.Machine

/-! ## Proofs: the verdict on a full frame (42_decoder.md R120, R123, R126) -/

namespace Sys2Proof.Machine

open Sys2Proof.Safety

section FullFrame

variable {p : Params} {bs : List Byte}

/-- A frame with a complete header is at least as long as the header (R121). -/
theorem three_le_frameLenOf (h3 : 3 ≤ bs.length) : 3 ≤ frameLenOf bs := by
  by_cases hk : KnownFc (bs.getD 1 0)
  · obtain ⟨n, hn⟩ := declaredLen_known (bc := bs.getD 2 0).mpr hk
    have := declaredLen_bounds hn
    rw [frameLenOf, frameLen, hn, Option.getD_some]
    omega
  · rwa [frameLenOf_of_not_knownFc hk]

/-- A received CRC as a number (R67). -/
theorem receivedCrc_toNat (low high : Byte) :
    (receivedCrc low high).toNat = low.toNat + 256 * high.toNat := by
  rw [receivedCrc, toNat_append_eq]
  omega

@[simp] theorem crcLow_receivedCrc (low high : Byte) : crcLow (receivedCrc low high) = low :=
  BitVec.extractLsb'_append_eq_right

@[simp] theorem crcHigh_receivedCrc (low high : Byte) : crcHigh (receivedCrc low high) = high :=
  BitVec.extractLsb'_append_eq_left

/-- A sequence up to `n + 2` ends with its bytes at `n` and `n + 1`. -/
theorem take_add_two {n : Nat} (h : n + 2 ≤ bs.length) :
    bs.take (n + 2) = bs.take n ++ [bs.getD n 0, bs.getD (n + 1) 0] := by
  rw [List.take_succ_eq_append_getElem (by omega), List.take_succ_eq_append_getElem (by omega),
    List.getD_eq_getElem _ _ (by omega), List.getD_eq_getElem _ _ (by omega), List.append_assoc]
  rfl

/-- A frame is its content and the two bytes of its trailing CRC (R123). -/
theorem take_frameLenOf (h3 : 3 ≤ bs.length) (hfull : frameLenOf bs ≤ bs.length) :
    bs.take (frameLenOf bs) =
      bs.take (frameLenOf bs - 2) ++ [crcLow (trailingCrc bs), crcHigh (trailingCrc bs)] := by
  have hlen := three_le_frameLenOf h3
  obtain ⟨n, hn⟩ : ∃ n, frameLenOf bs = n + 2 := ⟨frameLenOf bs - 2, by omega⟩
  have htail : n + 2 - 1 = n + 1 := rfl
  rw [trailingCrc, crcLow_receivedCrc, crcHigh_receivedCrc, hn, Nat.add_sub_cancel, htail,
    take_add_two (hn ▸ hfull)]

/-- A checked frame is accepted exactly when its trailing CRC is that of its content (R120). -/
theorem checkedVerdict_code_eq_none_iff :
    (checkedVerdict p bs).code = .none ↔ trailingCrc bs = contentCrc p bs := by
  by_cases h : trailingCrc bs = contentCrc p bs <;> simp [checkedVerdict, h]

/-- The residue over a frame whose trailing CRC is that of its content is 0 (R105, R123). -/
theorem crc16_frame_of_accepted (h3 : 3 ≤ bs.length) (hfull : frameLenOf bs ≤ bs.length)
    (h : trailingCrc bs = contentCrc p bs) : crc16 p (bs.take (frameLenOf bs)) = 0x0000 := by
  rw [take_frameLenOf h3 hfull, h]
  exact crc16_append_own_crc p _

/-- A frame that `decode` accepts is full, at least MIN_FRAME long, and its CRCs agree (R120). -/
theorem accepted_frame (h : (decodeFrame p bs).code = .none) :
    3 ≤ bs.length ∧ frameLenOf bs ≤ bs.length ∧ p.minFrame ≤ frameLenOf bs ∧
      trailingCrc bs = contentCrc p bs := by
  rcases decodeFrame_cases p bs with ⟨code, hcode, hv⟩ | ⟨h3, hfull, hv⟩
  · rw [hv] at h
    rcases hcode with rfl | rfl <;> cases h
  · refine ⟨h3, hfull, ?_, checkedVerdict_code_eq_none_iff.mp (hv ▸ h)⟩
    by_contra hmin
    rw [decodeFrame_of_lt_minFrame h3 hfull (by omega)] at h
    cases h

/-- Two sequences that differ in one byte have different CRCs (R105). -/
theorem crc16_set_ne (hp : p.crcPoly.getLsbD 15 = true) {i : Nat} (hi : i < bs.length) {b : Byte}
    (hb : b ≠ bs[i]) : crc16 p (bs.set i b) ≠ crc16 p bs := by
  have hne := crc16_ne_of_byte_ne hp (bs.take i) (bs.drop (i + 1)) hb
  rw [List.set_eq_take_append_cons_drop, if_pos hi]
  rwa [List.getElem_cons_drop, List.take_append_drop] at hne

end FullFrame

/-- Settles O21: such a frame gets `checkedVerdict`, whose code compares the two CRCs. -/
theorem crcVerdictOfFullFrames : Obligations.CrcVerdictOfFullFrames := by
  intro p bs h3 hfull hmin
  have hrx : (trailingCrc bs).toNat =
      (bs.getD (frameLenOf bs - 2) 0).toNat + 256 * (bs.getD (frameLenOf bs - 1) 0).toNat :=
    receivedCrc_toNat _ _
  rw [decodeFrame_of_full h3 hfull hmin]
  refine ⟨hrx, rfl, ?_, fun h => crc16_frame_of_accepted h3 hfull (checkedVerdict_code_eq_none_iff.mp h),
    (checkedVerdict_code p bs).resolve_left⟩
  rw [checkedVerdict_code_eq_none_iff, ← BitVec.toNat_inj, hrx]
  exact eq_comm

/-- Settles O22: were the changed frame accepted, the residues over both frames would be 0, but they
differ in one byte. -/
theorem corruptedByteIsCrcMismatch : Obligations.CorruptedByteIsCrcMismatch := by
  refine ⟨fun p bs i b hp hcode hi hb hlen => ?_, by decide⟩
  obtain ⟨h3, hfull, hmin, hcrc⟩ := accepted_frame hcode
  have h3' : 3 ≤ (bs.set i b).length := by rwa [List.length_set]
  have hfull' : frameLenOf (bs.set i b) ≤ (bs.set i b).length := by rwa [hlen, List.length_set]
  rw [decodeFrame_of_full h3' hfull' (hlen ▸ hmin)]
  refine (checkedVerdict_code p _).resolve_left fun h => ?_
  have hres := crc16_frame_of_accepted h3' hfull' (checkedVerdict_code_eq_none_iff.mp h)
  rw [hlen, List.take_set] at hres
  have hil : i < (bs.take (frameLenOf bs)).length := by
    rw [List.length_take]
    omega
  refine crc16_set_ne hp hil ?_ (hres.trans (crc16_frame_of_accepted h3 hfull hcrc).symm)
  rwa [List.getElem_take, ← List.getD_eq_getElem _ 0]

/-- Bytes beyond a complete header of known function code leave the frame length (R121, R126). -/
theorem frameLenOf_append {bs extra : List Byte} (hk : KnownFc (bs.getD 1 0))
    (h3 : 3 ≤ bs.length) : frameLenOf (bs ++ extra) = frameLenOf bs := by
  obtain ⟨n, hn⟩ := declaredLen_known (bc := bs.getD 2 0).mpr hk
  rw [frameLenOf, frameLenOf, getD_append_front (by omega), getD_append_front (by omega), frameLen, frameLen,
    hn, Option.getD_some, Option.getD_some]

/-- Settles O23: the verdict depends on the header, the frame length and the bytes within it. -/
theorem bytesBeyondTheFrameAreIgnored : Obligations.BytesBeyondTheFrameAreIgnored := by
  intro p bs extra hk h3 hlen
  have hlen' : frameLenOf (bs ++ extra) = frameLenOf bs := frameLenOf_append hk h3
  have hgrow : bs.length ≤ (bs ++ extra).length := by simp
  have inside : ∀ i, i < bs.length → (bs ++ extra).getD i 0 = bs.getD i 0 := fun i => getD_append_front
  have h3' : 3 ≤ (bs ++ extra).length := by omega
  have hfull' : frameLenOf (bs ++ extra) ≤ (bs ++ extra).length := by omega
  by_cases hmin : p.minFrame ≤ frameLenOf bs
  · have htrail : trailingCrc (bs ++ extra) = trailingCrc bs := by
      rw [trailingCrc, hlen', inside _ (by omega), inside _ (by omega), trailingCrc]
    have hcontent : contentCrc p (bs ++ extra) = contentCrc p bs := by
      rw [contentCrc, hlen', List.take_append_of_le_length (by omega), contentCrc]
    rw [decodeFrame_of_full h3' hfull' (by omega), decodeFrame_of_full h3 hlen.ge hmin, checkedVerdict,
      checkedVerdict, htrail, hcontent, inside 0 (by omega), inside 1 (by omega), inside 2 (by omega)]
  · rw [decodeFrame_of_lt_minFrame h3' hfull' (by omega), decodeFrame_of_lt_minFrame h3 hlen.ge (by omega),
      stoppedVerdict, stoppedVerdict, inside 0 (by omega), inside 1 (by omega), inside 2 (by omega)]

end Sys2Proof.Machine

/-! ## Proofs: consumption stands after its rounds, and the codes of commands and exchanges
(43_transport.md R165, 60_exceptions.md R202)

`phaseStep_cases` says once how a phase's rule moves on: the phase stays, or it is nearer to the end of the
reception, and IDLE only with a code of an exchange. -/

namespace Sys2Proof.Machine

open Sys2Proof.Safety

/-- Settles O40: a Tick answers under the invariant (`tick_inv`). -/
theorem noTickFaults : Obligations.NoTickFaults := by
  intro s input h
  obtain ⟨t, ht, -⟩ := tick_inv h input
  exact ⟨t, ht⟩

/-- The codes an exchange can end with after its acceptance (R202). -/
def ExchangeCode (c : ErrCode) : Prop :=
  c ∈ ([.none, .timeout, .incompleteFrame, .shortResponse, .crcMismatch, .frameTooLong] : List ErrCode)

theorem exchangeCode_decodeFrame (p : Params) (bs : List Byte) : ExchangeCode (decodeFrame p bs).code := by
  rcases decodeFrame_code p bs with h | h | h | h <;> simp [ExchangeCode, h]

/-- How many further phases a reception can reach from this one (R155 to R159). -/
def phasesAhead : Phase → Nat
  | .idle => 0
  | .tx => 0
  | .waitFirst => 3
  | .hdr => 2
  | .body => 1
  | .silence => 1

/-- From `s` to `t` the phase stayed, or moved on, to IDLE with a code of an exchange. -/
def MovesOn (s t : State) : Prop :=
  t.phase = s.phase ∨
    (phasesAhead t.phase < phasesAhead s.phase ∧ (t.phase = .idle → ExchangeCode t.errcode))

/-- Completing a reception moves on to IDLE (R162). -/
theorem decodeReceived_movesOn {s u t : State} (hs : 0 < phasesAhead s.phase)
    (h : decodeReceived u = .next t) : MovesOn s t := by
  obtain ⟨bs, -, rfl⟩ := decodeReceived_eq_next.mp h
  exact .inr ⟨hs, fun _ => exchangeCode_decodeFrame _ _⟩

theorem drainTo_phase (limit : Nat) (q : List Byte) (s : State) : (drainTo limit q s).phase = s.phase := by
  rw [drainTo_shape]

theorem dispatch_phase (fc bc : Byte) (s : State) :
    (dispatch fc bc s).phase = .body ∨ (dispatch fc bc s).phase = .silence := by
  unfold dispatch
  split
  · exact .inl rfl
  · exact .inr rfl

theorem waitFirstStep_movesOn {s : State} (hp : s.phase = .waitFirst) : MovesOn s (waitFirstStep s) := by
  unfold waitFirstStep
  split
  · exact .inl rfl
  · exact .inr ⟨hp ▸ (by decide : phasesAhead .hdr < phasesAhead .waitFirst), nofun⟩

theorem hdrStep_movesOn {s t : State} (hp : s.phase = .hdr) (h : hdrStep s = .next t) : MovesOn s t := by
  rcases hdrStep_eq_next h with rfl | ⟨-, fc, bc, rfl⟩
  · exact .inl (drainTo_phase _ _ _)
  · rcases dispatch_phase fc bc (drainTo 3 s.fifo s) with hd | hd
    · exact .inr ⟨by rw [hd, hp]; decide, by rw [hd]; nofun⟩
    · exact .inr ⟨by rw [hd, hp]; decide, by rw [hd]; nofun⟩

theorem bodyStep_movesOn {s t : State} (hp : s.phase = .body) (h : bodyStep s = .next t) : MovesOn s t := by
  rcases bodyStep_eq_next h with rfl | hdec
  · exact .inl (drainTo_phase _ _ _)
  · exact decodeReceived_movesOn (by rw [hp]; decide) hdec

theorem drainSilence_movesOn : ∀ (q : List Byte) (s : State), s.phase = .silence →
    MovesOn s (drainSilence q s) := by
  intro q
  induction q with
  | nil => intro s _; exact .inl rfl
  | cons b rest ih =>
    intro s hp
    simp only [drainSilence]
    split
    · exact .inr ⟨hp ▸ (by decide : phasesAhead .idle < phasesAhead .silence),
        fun _ => by simp [ExchangeCode]⟩
    · exact ih (s.receive b rest) hp

theorem silenceStep_movesOn {s : State} (hp : s.phase = .silence) : MovesOn s (silenceStep s) := by
  unfold silenceStep
  split
  · exact .inl rfl
  · exact drainSilence_movesOn _ s hp

/-- What a phase's rule does to the phase (R155 to R159). -/
theorem phaseStep_movesOn {s t : State} (h : phaseStep s = .next t) : MovesOn s t := by
  unfold phaseStep at h
  split at h <;> rename_i hp
  · cases h; exact .inl rfl
  · cases h; exact .inl rfl
  · cases h; exact waitFirstStep_movesOn hp
  · exact hdrStep_movesOn hp h
  · exact bodyStep_movesOn hp h
  · cases h; exact silenceStep_movesOn hp

/-! ### The rounds of consumption -/

/-- HDR's and BODY's loop stops with an empty FIFO or at its limit (R156, R158). -/
theorem drainTo_stopped (limit : Nat) : ∀ (q : List Byte) (s : State), s.fifo = q →
    (drainTo limit q s).fifo = [] ∨ limit ≤ (drainTo limit q s).rxlen.toNat := by
  intro q
  induction q with
  | nil => intro s hq; exact .inl hq
  | cons b rest ih =>
    intro s hq
    simp only [drainTo]
    split
    · exact ih (s.receive b rest) rfl
    · exact .inr (by omega)

/-- Where it has stopped, the loop does nothing more. -/
theorem drainTo_of_stopped {limit : Nat} {s : State} (h : s.fifo = [] ∨ limit ≤ s.rxlen.toNat) :
    drainTo limit s.fifo s = s := by
  cases hf : s.fifo with
  | nil => rfl
  | cons b rest => exact if_neg (Nat.not_lt.mpr (h.resolve_left (by simp [hf])))

theorem drainTo_drainTo (limit : Nat) (s : State) :
    drainTo limit (drainTo limit s.fifo s).fifo (drainTo limit s.fifo s) = drainTo limit s.fifo s :=
  drainTo_of_stopped (drainTo_stopped limit s.fifo s rfl)

/-- A header read that does not dispatch stands. -/
theorem hdrStep_stands {s t : State} (h : hdrStep s = .next t) (hp : t.phase = .hdr) :
    hdrStep t = .next t := by
  simp only [hdrStep] at h
  split at h
  · split at h
    · cases h
      rcases dispatch_phase _ _ (drainTo 3 s.fifo s) with hd | hd <;> exact absurd (hd.symm.trans hp) nofun
    · cases h
  · rename_i hne
    cases h
    simp only [hdrStep, drainTo_drainTo]
    exact if_neg hne

/-- A body read that does not complete stands. -/
theorem bodyStep_stands {s t : State} (h : bodyStep s = .next t) (hp : t.phase = .body) :
    bodyStep t = .next t := by
  have hneed : (drainTo s.need s.fifo s).need = s.need := by rw [drainTo_shape]
  simp only [bodyStep] at h
  split at h
  · obtain ⟨bs, -, rfl⟩ := decodeReceived_eq_next.mp h
    cases hp
  · rename_i hne
    cases h
    simp only [bodyStep, hneed, drainTo_drainTo]
    exact if_neg (by rwa [hneed] at hne)

/-- SILENCE's loop ends the exchange or empties the FIFO (R159, R164). -/
theorem drainSilence_fifo : ∀ (q : List Byte) (s : State), s.fifo = q →
    (drainSilence q s).phase = .idle ∨ (drainSilence q s).fifo = [] := by
  intro q
  induction q with
  | nil => intro s hq; exact .inr hq
  | cons b rest ih =>
    intro s hq
    simp only [drainSilence]
    split
    · exact .inl rfl
    · exact ih (s.receive b rest) rfl

theorem silenceStep_of_empty {s : State} (h : s.fifo = []) : silenceStep s = s := by
  rw [silenceStep, h]

theorem silenceStep_stands {s : State} (hp : (silenceStep s).phase = .silence) :
    silenceStep (silenceStep s) = silenceStep s := by
  refine silenceStep_of_empty ?_
  cases hf : s.fifo with
  | nil => rw [silenceStep_of_empty hf, hf]
  | cons b rest =>
    have hs : silenceStep s = drainSilence (b :: rest) s := by rw [silenceStep, hf]
    rw [hs] at hp ⊢
    exact (drainSilence_fifo (b :: rest) s hf).resolve_left fun h => absurd (h.symm.trans hp) nofun

theorem waitFirstStep_stands {s : State} (hp : (waitFirstStep s).phase = .waitFirst) :
    waitFirstStep s = s := by
  unfold waitFirstStep at hp ⊢
  split at hp
  · rfl
  · cases hp

section PhaseStep

variable {s : State}

theorem phaseStep_of_idle (h : s.phase = .idle) : phaseStep s = .next s := by rw [phaseStep, h]
theorem phaseStep_of_tx (h : s.phase = .tx) : phaseStep s = .next s := by rw [phaseStep, h]
theorem phaseStep_of_waitFirst (h : s.phase = .waitFirst) : phaseStep s = .next (waitFirstStep s) := by
  rw [phaseStep, h]
theorem phaseStep_of_hdr (h : s.phase = .hdr) : phaseStep s = hdrStep s := by rw [phaseStep, h]
theorem phaseStep_of_body (h : s.phase = .body) : phaseStep s = bodyStep s := by rw [phaseStep, h]
theorem phaseStep_of_silence (h : s.phase = .silence) : phaseStep s = .next (silenceStep s) := by
  rw [phaseStep, h]

end PhaseStep

/-- A rule that left the phase as it was does nothing more (R165). -/
theorem phaseStep_stands {s t : State} (h : phaseStep s = .next t) (hsame : t.phase = s.phase) :
    phaseStep t = .next t := by
  cases hp : s.phase with
  | idle => exact phaseStep_of_idle (hsame.trans hp)
  | tx => exact phaseStep_of_tx (hsame.trans hp)
  | waitFirst =>
    have ht := hsame.trans hp
    cases (phaseStep_of_waitFirst hp).symm.trans h
    rw [waitFirstStep_stands ht, phaseStep_of_waitFirst hp, waitFirstStep_stands ht]
  | hdr =>
    have ht := hsame.trans hp
    exact (phaseStep_of_hdr ht).trans (hdrStep_stands ((phaseStep_of_hdr hp).symm.trans h) ht)
  | body =>
    have ht := hsame.trans hp
    exact (phaseStep_of_body ht).trans (bodyStep_stands ((phaseStep_of_body hp).symm.trans h) ht)
  | silence =>
    have ht := hsame.trans hp
    cases (phaseStep_of_silence hp).symm.trans h
    rw [phaseStep_of_silence ht, silenceStep_stands ht]

/-- With a round for every phase ahead and one more, the loop ends where the phase stands (R165). -/
theorem rxLoop_stands (fuel : Nat) : ∀ {s t : State}, phasesAhead s.phase < fuel →
    rxLoop fuel s = .next t → phaseStep t = .next t := by
  induction fuel with
  | zero => intro s t hfuel; omega
  | succ fuel ih =>
    intro s t hfuel h
    obtain ⟨u, hu, hloop⟩ := andThen_eq_next.mp h
    split at hloop
    · rename_i hsame
      cases hloop
      exact phaseStep_stands hu hsame
    · rename_i hne
      have hless := ((phaseStep_movesOn hu).resolve_left hne).1
      exact ih (by omega) hloop

/-- Settles O42: at most three phases are ahead, so four rounds reach one that stands. -/
theorem consumptionRunsUntilThePhaseStands : Obligations.ConsumptionRunsUntilThePhaseStands := by
  intro s t h
  exact ⟨t, rxLoop_stands 4 (by cases s.phase <;> decide) h, rfl⟩

/-! ### The codes -/

/-- If the exchange is over, its code is one of an exchange. -/
def EndsWithExchangeCode (t : State) : Prop := t.phase = .idle → ExchangeCode t.errcode

theorem phaseStep_code {s t : State} (hs : EndsWithExchangeCode s) (h : phaseStep s = .next t) :
    EndsWithExchangeCode t := by
  intro hidle
  rcases phaseStep_movesOn h with hsame | ⟨-, hcode⟩
  · have hs' : s.phase = .idle := hsame.symm.trans hidle
    cases (phaseStep_of_idle hs').symm.trans h
    exact hs hs'
  · exact hcode hidle

theorem rxLoop_code (fuel : Nat) : ∀ {s t : State}, EndsWithExchangeCode s → rxLoop fuel s = .next t →
    EndsWithExchangeCode t := by
  induction fuel with
  | zero => intro s t hs h; cases h; exact hs
  | succ fuel ih =>
    intro s t hs h
    obtain ⟨u, hu, hloop⟩ := andThen_eq_next.mp h
    have hcode := phaseStep_code hs hu
    split at hloop
    · cases hloop
      exact hcode
    · exact ih hcode hloop

theorem deadlineCheck_code {s t : State} (hs : EndsWithExchangeCode s) (h : deadlineCheck s = .next t) :
    EndsWithExchangeCode t := by
  rcases deadlineCheck_eq_next h with rfl | rfl | hdec
  · exact hs
  · exact fun _ => by simp [ExchangeCode]
  · obtain ⟨bs, -, rfl⟩ := decodeReceived_eq_next.mp hdec
    exact fun _ => exchangeCode_decodeFrame _ _

theorem txTick_code {s t : State} (hp : s.phase = .tx) (h : txTick s = .next t) : EndsWithExchangeCode t := by
  intro hidle
  rcases txTick_eq_next h with ⟨-, rfl⟩ | ⟨-, b, -, ⟨-, rfl⟩ | ⟨-, rfl⟩⟩
  · exact absurd (hp.symm.trans hidle) nofun
  · exact absurd (hp.symm.trans hidle) nofun
  · rcases txComplete_cases (s.endChar b) with ⟨-, h⟩ | ⟨-, h⟩ <;> rw [h] at hidle ⊢
    · cases hidle
    · simp [ExchangeCode]

/-- A Tick that ends an exchange ends it with a code of an exchange (R202). -/
theorem tick_code {input : Option Byte} {s t : State} (hb : s.phase ≠ .idle) (h : tick input s = .next t) :
    EndsWithExchangeCode t := by
  have hphase := beginTick_phase input s
  rcases engine_eq_next h with ⟨hp, -⟩ | ⟨hp, htx⟩ | ⟨-, u, hu, ht⟩
  · exact absurd (hphase.symm.trans hp) hb
  · exact txTick_code hp htx
  · exact deadlineCheck_code (rxLoop_code 4 (fun hp => absurd (hphase.symm.trans hp) hb) hu) ht

/-- Settles O49: every command by what it can answer at issue; an exchange by `tick_code`. -/
theorem codesOfEachCommand : Obligations.CodesOfEachCommand := by
  refine ⟨fun s t i h _ => ?_, fun s t input hb h hidle => tick_code hb h hidle⟩
  cases i with
  | crcInit => cases h; simp
  | crcByte b => cases h; simp
  | crcBuf sel n => rcases execCrcBuf_eq_next h with ⟨-, rfl⟩ | ⟨-, bs, -, rfl⟩ <;> simp
  | encRaw n addr fc => rcases execEncRaw_eq_next h with ⟨-, rfl⟩ | ⟨-, payload, -, rfl⟩ <;> simp
  | encWords addr fc => cases h; simp
  | decodeBuf =>
    rcases execDecode_eq_next h with ⟨-, rfl⟩ | ⟨-, bs, -, rfl⟩
    · simp
    · rcases decodeFrame_code s.cfg bs with hc | hc | hc | hc <;> simp [hc]
  | openLine baud parity => rcases execOpen_eq_next h with ⟨b, p, -, -, rfl⟩ | ⟨-, rfl⟩ <;> simp
  | closeLine => cases h; simp
  | xfer e =>
    rcases execXfer_eq_next h with ⟨-, rfl⟩ | ⟨-, -, rfl⟩ | ⟨-, -, -, rfl⟩
    · simp
    · simp
    · simp [startExchange_errcode]

end Sys2Proof.Machine

/-! ## Proofs: a Tick of a reception with any bytes waiting (43_transport.md R155 to R165)

Consumption is `rxConsume_consumed`; the deadline check then leaves what is over or still within its
deadline, and ends the other waits. -/

namespace Sys2Proof.Machine

open Sys2Proof.Safety

/-! ### Where a reception stands, by its bytes -/

section Reception

variable {bs : List Byte}

theorem receptionPhase_of_header (h1 : 1 ≤ bs.length) (h3 : bs.length < 3) : receptionPhase bs = .hdr := by
  rw [receptionPhase, if_neg (by omega), if_pos h3]

/-- Exactly the unknown function codes declare no length (R121). -/
theorem declaredLen_eq_none_iff {fc bc : Byte} : declaredLen fc bc = none ↔ ¬ KnownFc fc := by
  rw [← declaredLen_known (bc := bc), Option.eq_none_iff_forall_ne_some, not_exists]

/-- What the bytes of a reception are that stands in this phase; IDLE, where they have ended it, says
nothing (R154 to R159). -/
def StandsIn (bs : List Byte) : Phase → Prop
  | .idle => True
  | .tx => False
  | .waitFirst => bs = []
  | .hdr => 1 ≤ bs.length ∧ bs.length < 3
  | .body => 3 ≤ bs.length ∧ bs.length < frameLenOf bs
  | .silence => 3 ≤ bs.length ∧ ¬ KnownFc (bs.getD 1 0)

theorem standsIn_receptionPhase (bs : List Byte) : StandsIn bs (receptionPhase bs) := by
  by_cases h0 : bs.length = 0
  · rw [receptionPhase, if_pos h0]
    exact List.length_eq_zero_iff.mp h0
  by_cases h3 : bs.length < 3
  · rw [receptionPhase_of_header (by omega) h3]
    exact ⟨by omega, h3⟩
  have h3' : 3 ≤ bs.length := by omega
  cases hd : declaredLen (bs.getD 1 0) (bs.getD 2 0) with
  | some n =>
    rw [receptionPhase_known h3' hd]
    split
    · rename_i hlt
      exact ⟨h3', by rwa [frameLenOf, frameLen, hd]⟩
    · trivial
  | none =>
    rw [receptionPhase_unknown h3' hd]
    split
    · exact ⟨h3', declaredLen_eq_none_iff.mp hd⟩
    · trivial

theorem standsIn_of_eq {p : Phase} (h : receptionPhase bs = p) : StandsIn bs p :=
  h ▸ standsIn_receptionPhase bs

/-- A reception that is not over waits in a receiving phase. -/
theorem receiving_receptionPhase (h : receptionPhase bs ≠ .idle) : Receiving (receptionPhase bs) = true := by
  cases hp : receptionPhase bs with
  | idle => exact absurd hp h
  | tx => exact (standsIn_of_eq hp).elim
  | _ => rfl

end Reception

/-! ### The deadline check (R161) -/

section DeadlineCheck

variable {s : State}

/-- A wait stands before its deadline. -/
theorem deadlineCheck_of_ahead (h : s.now < s.deadline) : deadlineCheck s = .next s :=
  if_neg (by omega)

theorem deadlineCheck_of_idle (h : s.phase = .idle) : deadlineCheck s = .next s := by
  unfold deadlineCheck
  rw [h]
  exact ite_self _

/-- With no byte received the wait ends with TIMEOUT (R163). -/
theorem deadlineCheck_of_waitFirst (h : s.deadline ≤ s.now) (hp : s.phase = .waitFirst) :
    deadlineCheck s = .next (s.finish .timeout) := by
  rw [deadlineCheck, if_pos h, hp]

/-- With bytes received it ends with `decode` (R162). -/
theorem deadlineCheck_of_received (h : s.deadline ≤ s.now) (hr : Receiving s.phase = true)
    (hp : s.phase ≠ .waitFirst) : deadlineCheck s = decodeReceived s := by
  rw [deadlineCheck, if_pos h]
  cases hps : s.phase with
  | idle => rw [hps] at hr; cases hr
  | tx => rw [hps] at hr; cases hr
  | waitFirst => exact absurd hps hp
  | _ => rfl

end DeadlineCheck

/-- The deadline of the wait that stands after a Tick on which the bytes `q` waited: the old one, unless the
phase is new or a byte restarted the silence (R155, R157, R159). -/
def tickDeadline (s : State) (q all : List Byte) : Nat :=
  if receptionPhase all = s.phase ∧ (q = [] ∨ receptionPhase all ≠ .silence) then s.deadline
  else s.now + 1 + waitTicks s.cfg s.baud (receptionPhase all)

/-- What a Tick makes of the received bytes `r` and the waiting bytes `q`. -/
structure Ticked (r q : List Byte) (s t : State) : Prop where
  moved : Moved (r ++ q) (min (receiveLimit (r ++ q)) (r ++ q).length) s t
  known : receptionPhase (r ++ q) = .idle → KnownFc ((r ++ q).getD 1 0) →
    Reports t (decodeFrame s.cfg ((r ++ q).take (min (receiveLimit (r ++ q)) (r ++ q).length)))
  unknown : receptionPhase (r ++ q) = .idle → ¬ KnownFc ((r ++ q).getD 1 0) →
    Reports t (undecoded .frameTooLong)
  stands : receptionPhase (r ++ q) ≠ .idle → s.now + 1 < tickDeadline s q (r ++ q) →
    t.phase = receptionPhase (r ++ q) ∧ t.deadline = tickDeadline s q (r ++ q) ∧ t.done = false ∧
      (receptionPhase (r ++ q) = .body → t.need = receiveLimit (r ++ q))
  timesOut : receptionPhase (r ++ q) ≠ .idle → tickDeadline s q (r ++ q) ≤ s.now + 1 →
    receptionPhase (r ++ q) = .waitFirst → Reports t (undecoded .timeout)
  decodes : receptionPhase (r ++ q) ≠ .idle → tickDeadline s q (r ++ q) ≤ s.now + 1 →
    receptionPhase (r ++ q) ≠ .waitFirst → Reports t (decodeFrame s.cfg (r ++ q))

/-- The state in which a receiving block's engine begins its work on a Tick (R150). -/
def receiveStart (q : List Byte) (s : State) : State :=
  { s with now := s.now + 1, fifo := q, de := false, trace := .de (s.now + 1) false :: s.trace }

theorem beginTick_of_receiving (input : Option Byte) {s : State} (h : Receiving s.phase = true) :
    beginTick input s = receiveStart (lineInput input s).fifo s := by
  rw [beginTick_eq, (receiving_facts h).2.1, lineInput_fifo_now]
  rfl

/-- The deadline check after consumption (R161). -/
theorem deadlineCheck_of_consumed {s u : State} {r q : List Byte} (hdone : s.done = false)
    (o : Consumed (r ++ q) (tickDeadline s q (r ++ q)) (receiveStart q s) u) :
    ∃ t, deadlineCheck u = .next t ∧ Ticked r q s t := by
  have hnow : u.now = s.now + 1 := by rw [o.shape]; rfl
  have hcfg : u.cfg = s.cfg := by rw [o.shape]; rfl
  have hmoved : Moved (r ++ q) (min (receiveLimit (r ++ q)) (r ++ q).length) s u :=
    ⟨o.moved.len, o.moved.rest, o.moved.holds, o.moved.keeps⟩
  by_cases hidle : receptionPhase (r ++ q) = .idle
  · have hu : u.phase = .idle := by
      by_cases hk : KnownFc ((r ++ q).getD 1 0)
      · exact (o.known hidle hk).1
      · exact (o.unknown hidle hk).1
    exact ⟨u, deadlineCheck_of_idle hu, hmoved, o.known, o.unknown, fun h => absurd hidle h,
      fun h => absurd hidle h, fun h => absurd hidle h⟩
  obtain ⟨hp, hd, hdone', hneed, hz1, hz2, hz3, hz4, hz5⟩ := o.stands hidle
  by_cases hlt : s.now + 1 < tickDeadline s q (r ++ q)
  · refine ⟨u, deadlineCheck_of_ahead (by rw [hnow, hd]; exact hlt), hmoved, (absurd · hidle),
      (absurd · hidle), fun _ _ => ⟨hp, hd, hdone'.trans hdone, hneed⟩, ?_, ?_⟩
    · intro _ hle; omega
    · intro _ hle; omega
  have hdue : u.deadline ≤ u.now := by rw [hnow, hd]; omega
  by_cases hw : receptionPhase (r ++ q) = .waitFirst
  · exact ⟨_, deadlineCheck_of_waitFirst hdue (hp.trans hw),
      ⟨hmoved.len, hmoved.rest, hmoved.holds, hmoved.keeps⟩, (absurd · hidle), (absurd · hidle),
      fun _ h => absurd h hlt, fun _ _ _ => ⟨rfl, rfl, rfl, rfl, hz1, hz2, hz3, hz4, hz5⟩,
      fun _ _ h => absurd hw h⟩
  · have hall := moved_all hidle
    have hholds := hmoved.holds
    have hlen := hmoved.len
    rw [hall] at hlen hholds
    rw [List.take_length] at hholds
    have hrec : Receiving u.phase = true := hp ▸ receiving_receptionPhase hidle
    refine ⟨_, (deadlineCheck_of_received hdue hrec (fun h => hw (hp.symm.trans h))).trans
      (decodeReceived_holds hlen.symm hholds), ⟨hmoved.len, hmoved.rest, hmoved.holds, hmoved.keeps⟩,
      (absurd · hidle), (absurd · hidle), fun _ h => absurd h hlt, fun _ _ h => absurd h hw, fun _ _ _ => ?_⟩
    rw [hcfg]
    exact reports_setResp_finish _ _

/-- While the block receives the line is open and nothing is reported (R204). -/
theorem open_and_unreported {s : State} (h : Inv s) (hr : Receiving s.phase = true) :
    s.isOpen = true ∧ s.done = false := by
  obtain ⟨hopen, hdone, -⟩ := (Inv.steady h).busy (receiving_facts hr).1
  exact ⟨hopen, hdone⟩

/-- A Tick of a reception (R150, R155 to R165). -/
theorem tick_ticked {s : State} {r : List Byte} (input : Option Byte) (h : Inv s)
    (hr : Receiving s.phase = true) (hl : r.length = s.rxlen.toNat) (hh : Holds s.rxbuf 0 r) :
    ∃ t, tick input s = .next t ∧ Ticked r (lineInput input s).fifo s t ∧
      ReceiveFrame (receiveStart (lineInput input s).fifo s) t := by
  obtain ⟨-, hdone⟩ := open_and_unreported h hr
  have hm := beginTick_mid h (ne_tx_of_receiving hr) input
  rw [beginTick_of_receiving input hr] at hm
  obtain ⟨u, hu, o⟩ := rxConsume_consumed (s := receiveStart (lineInput input s).fifo s) hm hr hl hh
  obtain ⟨t, ht, hticked⟩ := deadlineCheck_of_consumed hdone o
  refine ⟨t, ?_, hticked, (rxLoop_frame 4 hu).trans (deadlineCheck_frame ht)⟩
  rw [tick_of_receiving input hr, beginTick_of_receiving input hr, hu]
  exact ht

/-- Settles O38: `tick_ticked`, its frame with the time, DE and its entry written out. -/
theorem tickConsumesTheWaitingBytes : Obligations.TickConsumesTheWaitingBytes := by
  rintro s input r q p m wait h hr hl hh rfl rfl rfl hwait
  obtain ⟨t, ht, o, hframe⟩ := tick_ticked input h hr hl hh
  have hd : tickDeadline s (lineInput input s).fifo (r ++ (lineInput input s).fifo) = wait := hwait.symm
  refine ⟨t, ht, o.moved.len, o.moved.rest, o.moved.holds, o.moved.keeps, o.known, o.unknown,
    ?_, ?_, ?_, hframe⟩
  · exact hd ▸ o.stands
  · exact hd ▸ o.timesOut
  · exact hd ▸ o.decodes

end Sys2Proof.Machine

/-! ## Proofs: a reception byte by byte (43_transport.md R155 to R164)

The single cases of `tick_ticked`, with an empty FIFO: one byte, or none. -/

namespace Sys2Proof.Machine

open Sys2Proof.Safety

/-! ### The bytes received under the invariant -/

section Received

variable {s : State} {r : List Byte}

/-- Under the invariant every byte received is in RXBUF (R156). -/
theorem receivedWritten_of_inv (h : Inv s) (hr : Receiving s.phase = true) : ReceivedWritten s := by
  obtain ⟨-, -, -, -, -, -, -, hwait, hhdr, hbody, hsil, -⟩ := h
  cases hp : s.phase with
  | idle => rw [hp] at hr; cases hr
  | tx => rw [hp] at hr; cases hr
  | waitFirst =>
    intro i hi
    rw [(hwait hp).1] at hi
    exact absurd hi (Nat.not_lt_zero i)
  | hdr => exact (hhdr hp).2.2
  | body => exact (hbody hp).2.2.2.2
  | silence => exact (hsil hp).2.2.2

theorem exists_received (h : Inv s) (hr : Receiving s.phase = true) :
    ∃ r, r.length = s.rxlen.toNat ∧ Holds s.rxbuf 0 r := by
  have hw : (s.rxbuf.span 0 s.rxlen.toNat).isSome = true :=
    Mem.span_isSome_iff.mpr (by simpa using receivedWritten_of_inv h hr)
  obtain ⟨r, hspan⟩ := Option.isSome_iff_exists.mp hw
  have hl := Mem.span_length hspan
  exact ⟨r, hl, fun i hi => Mem.span_get hspan (by omega)⟩

/-- A byte that stands in a buffer from its start on. -/
theorem get_of_holds {m : Mem} {bs : List Byte} (h : Holds m 0 bs) {i : Nat} (hi : i < bs.length) :
    m.get i = bs[i]? := by
  simpa using h i hi

/-- A received byte is read from RXBUF. -/
theorem getD_received (hh : Holds s.rxbuf 0 r) {i : Nat} (hi : i < r.length) :
    r.getD i 0 = (s.rxbuf.get i).getD 0 := by
  rw [get_of_holds hh hi, List.getD_eq_getElem?_getD]

variable (h : Inv s) (hl : r.length = s.rxlen.toNat) (hh : Holds s.rxbuf 0 r)

include h hl

theorem received_waitFirst (hp : s.phase = .waitFirst) : r = [] := by
  obtain ⟨-, -, -, -, -, -, -, hwait, -⟩ := h
  rw [(hwait hp).1] at hl
  exact List.length_eq_zero_iff.mp hl

theorem received_hdr (hp : s.phase = .hdr) : 1 ≤ r.length ∧ r.length < 3 := by
  obtain ⟨-, -, -, -, -, -, -, -, hhdr, -⟩ := h
  obtain ⟨h1, h3, -⟩ := hhdr hp
  omega

include hh

theorem received_body (hp : s.phase = .body) :
    3 ≤ r.length ∧ r.length < s.need ∧ declaredLen (r.getD 1 0) (r.getD 2 0) = some s.need := by
  obtain ⟨-, -, -, -, -, -, -, -, -, hbody, -⟩ := h
  obtain ⟨h3, hlt, -, hd, -⟩ := hbody hp
  rw [getD_received hh (by omega), getD_received hh (by omega)]
  exact ⟨by omega, by omega, hd⟩

theorem received_silence (hp : s.phase = .silence) :
    3 ≤ r.length ∧ r.length ≤ 260 ∧ declaredLen (r.getD 1 0) (r.getD 2 0) = none := by
  obtain ⟨-, -, -, -, -, -, -, -, -, -, hsil, -⟩ := h
  obtain ⟨h3, hcap, hd, -⟩ := hsil hp
  rw [rxCap_eq] at hcap
  rw [getD_received hh (by omega), getD_received hh (by omega)]
  exact ⟨by omega, by omega, hd⟩

/-- The phase is where the received bytes put the reception (R154 to R159). -/
theorem receptionPhase_received (hr : Receiving s.phase = true) : receptionPhase r = s.phase := by
  cases hp : s.phase with
  | idle => rw [hp] at hr; cases hr
  | tx => rw [hp] at hr; cases hr
  | waitFirst => rw [received_waitFirst h hl hp]; rfl
  | hdr =>
    obtain ⟨h1, h3⟩ := received_hdr h hl hp
    exact receptionPhase_of_header h1 h3
  | body =>
    obtain ⟨h3, hlt, hd⟩ := received_body h hl hh hp
    rw [receptionPhase_known h3 hd, if_pos hlt]
  | silence =>
    obtain ⟨h3, hcap, hd⟩ := received_silence h hl hh hp
    rw [receptionPhase_unknown h3 hd, if_pos hcap]

end Received

/-! ### A Tick with one byte, and a Tick with none -/

section Ticks

variable {s t : State} {r : List Byte} {b : Byte}

/-- A line that is open has room for a byte in an empty FIFO (R151). -/
theorem lineInput_of_empty (h : Inv s) (hr : Receiving s.phase = true) (hf : s.fifo = []) (b : Byte) :
    (lineInput (some b) s).fifo = [b] := by
  obtain ⟨ho, -⟩ := open_and_unreported h hr
  rw [lineInput_of_room b ho (by rw [hf]; exact Nat.succ_pos _), hf]
  rfl

/-- One byte on a Tick. -/
theorem tick_byte (h : Inv s) (hr : Receiving s.phase = true) (hf : s.fifo = [])
    (hl : r.length = s.rxlen.toNat) (hh : Holds s.rxbuf 0 r) (b : Byte) :
    ∃ t, tick (some b) s = .next t ∧ Ticked r [b] s t := by
  obtain ⟨t, ht, o, -⟩ := tick_ticked (some b) h hr hl hh
  rw [lineInput_of_empty h hr hf b] at o
  exact ⟨t, ht, o⟩

/-- From `s` to `t` the one waiting byte is stored behind those received, and no other byte of RXBUF
changed (R156 to R159). -/
structure Stored (b : Byte) (s t : State) : Prop where
  len : t.rxlen.toNat = s.rxlen.toNat + 1
  fifo : t.fifo = []
  byte : t.rxbuf.get s.rxlen.toNat = some b
  keeps : ∀ i, i ≠ s.rxlen.toNat → t.rxbuf.get i = s.rxbuf.get i

/-- A byte within the limit is stored. -/
theorem Ticked.stored (o : Ticked r [b] s t) (hl : r.length = s.rxlen.toNat) (hh : Holds s.rxbuf 0 r)
    (hroom : r.length + 1 ≤ receiveLimit (r ++ [b])) : Stored b s t ∧ Holds t.rxbuf 0 (r ++ [b]) := by
  obtain ⟨hlen, hrest, hholds, hkeeps⟩ := o.moved
  have hall : (r ++ [b]).length = r.length + 1 := by simp
  rw [hall, Nat.min_eq_right hroom] at hlen hrest hholds hkeeps
  rw [List.drop_of_length_le hall.le] at hrest
  rw [List.take_of_length_le hall.le] at hholds
  refine ⟨⟨by omega, hrest, ?_, fun i hi => ?_⟩, hholds⟩
  · rw [← hl, get_of_holds hholds (by omega)]
    simp
  · by_cases hlt : i < r.length
    · rw [get_of_holds hholds (by omega), get_of_holds hh hlt, List.getElem?_append_left hlt]
    · exact hkeeps i (by omega)

/-- A byte that does not end the reception is within the limit. -/
theorem Ticked.stored_of_not_over (o : Ticked r [b] s t) (hl : r.length = s.rxlen.toNat)
    (hh : Holds s.rxbuf 0 r) (hp : receptionPhase (r ++ [b]) ≠ .idle) : Stored b s t := by
  have hall := moved_all hp
  rw [List.length_append, List.length_singleton] at hall
  exact (o.stored hl hh (by omega)).1

theorem inv_of_tick {input : Option Byte} (h : Inv s) (ht : tick input s = .next t) : Inv t := by
  obtain ⟨u, hu, hinv⟩ := tick_inv h input
  cases hu.symm.trans ht
  exact hinv

/-- Where no byte has moved, RXLEN, RXBUF and the FIFO are as they were. -/
theorem Moved.unmoved {q : List Byte} (o : Moved (r ++ q) r.length s t) (hs : Inv s) (ht : Inv t)
    (hl : r.length = s.rxlen.toNat) (hh : Holds s.rxbuf 0 r) :
    t.rxlen = s.rxlen ∧ t.rxbuf = s.rxbuf ∧ t.fifo = q := by
  obtain ⟨hlen, hrest, hholds, hkeeps⟩ := o
  rw [List.take_left] at hholds
  rw [List.drop_left] at hrest
  refine ⟨BitVec.eq_of_toNat_eq (hlen.trans hl), Mem.ext_of_wf (Inv.steady ht).canonical.2
    (Inv.steady hs).canonical.2 fun i => ?_, hrest⟩
  by_cases hi : i < r.length
  · exact (get_of_holds hholds hi).trans (get_of_holds hh hi).symm
  · exact hkeeps i (by omega)

/-- A reception whose phase is the same keeps its deadline, unless a byte restarted the silence. -/
theorem tickDeadline_of_same {q all : List Byte} (hp : receptionPhase all = s.phase)
    (hq : q = [] ∨ receptionPhase all ≠ .silence) : tickDeadline s q all = s.deadline := if_pos ⟨hp, hq⟩

/-- A reception in a new phase, or a silence that a byte restarted, has the new wait's deadline. -/
theorem tickDeadline_of_new {q all : List Byte} (hq : q ≠ [])
    (hp : receptionPhase all ≠ s.phase ∨ receptionPhase all = .silence) :
    tickDeadline s q all = s.now + 1 + waitTicks s.cfg s.baud (receptionPhase all) := by
  refine if_neg fun ⟨hsame, h⟩ => ?_
  exact hp.elim (absurd hsame) (h.resolve_left hq)

/-- Every wait lasts at least one tick (R6). -/
theorem waitTicks_pos (h : Inv s) {p : Phase} (hr : Receiving p = true) : 0 < waitTicks s.cfg s.baud p := by
  obtain ⟨hstart, hread, hsil⟩ := (Inv.steady h).positive s.baud
  cases p with
  | idle => cases hr
  | tx => cases hr
  | waitFirst => exact hstart
  | hdr => exact hread
  | body => exact hread
  | silence => exact hsil

/-- A byte that enters a new phase or restarts the silence is stored, on the deadline tick too, and the new
wait stands (R155, R157, R159). -/
theorem tick_byte_new_wait (h : Inv s) (hr : Receiving s.phase = true) (hf : s.fifo = [])
    (hl : r.length = s.rxlen.toNat) (hh : Holds s.rxbuf 0 r) (hne : receptionPhase (r ++ [b]) ≠ .idle)
    (hnew : receptionPhase (r ++ [b]) ≠ s.phase ∨ receptionPhase (r ++ [b]) = .silence) :
    ∃ t, tick (some b) s = .next t ∧ Stored b s t ∧ t.phase = receptionPhase (r ++ [b]) ∧
      t.deadline = s.now + 1 + waitTicks s.cfg s.baud (receptionPhase (r ++ [b])) ∧
      (receptionPhase (r ++ [b]) = .body → t.need = receiveLimit (r ++ [b])) := by
  obtain ⟨t, ht, o⟩ := tick_byte h hr hf hl hh b
  have hwait := tickDeadline_of_new (q := [b]) nofun hnew
  have hpos := waitTicks_pos h (receiving_receptionPhase hne)
  obtain ⟨hphase, hdeadline, -, hneed⟩ := o.stands hne (by omega)
  exact ⟨t, ht, o.stored_of_not_over hl hh hne, hphase, hdeadline.trans hwait, hneed⟩

/-- A byte that completes neither header nor body is stored and leaves the wait, which stands before its
deadline tick, and ends on it with `decode` of the bytes (R156, R158, R161, R162). -/
theorem tick_byte_same_wait (h : Inv s) (hf : s.fifo = []) (hl : r.length = s.rxlen.toNat)
    (hh : Holds s.rxbuf 0 r) (hp : s.phase = .hdr ∨ s.phase = .body)
    (hph : receptionPhase (r ++ [b]) = s.phase) :
    ∃ t, tick (some b) s = .next t ∧ Stored b s t ∧
      (s.now + 1 < s.deadline → t.phase = s.phase ∧ t.deadline = s.deadline ∧
        (s.phase = .body → t.need = receiveLimit (r ++ [b]))) ∧
      (s.deadline ≤ s.now + 1 → Reports t (decodeFrame s.cfg (r ++ [b]))) := by
  have hr : Receiving s.phase = true := by rcases hp with hp | hp <;> rw [hp] <;> rfl
  have hne : ∀ p : Phase, p ≠ .hdr → p ≠ .body → receptionPhase (r ++ [b]) ≠ p := fun p h1 h2 e => by
    have hps : s.phase = p := hph.symm.trans e
    exact hp.elim (fun hp => h1 (hps.symm.trans hp)) fun hp => h2 (hps.symm.trans hp)
  obtain ⟨t, ht, o⟩ := tick_byte h hr hf hl hh b
  have hwait := tickDeadline_of_same (q := [b]) hph (.inr (hne .silence nofun nofun))
  have hidle := hne .idle nofun nofun
  refine ⟨t, ht, o.stored_of_not_over hl hh hidle, fun hlt => ?_,
    fun hle => o.decodes hidle (hwait ▸ hle) (hne .waitFirst nofun nofun)⟩
  obtain ⟨hphase, hdeadline, -, hneed⟩ := o.stands hidle (hwait ▸ hlt)
  exact ⟨hphase.trans hph, hdeadline.trans hwait, hph ▸ hneed⟩

/-- With no byte on a Tick the wait stands before its deadline tick, and ends on it (R161 to R163). -/
theorem tick_none (h : Inv s) (hr : Receiving s.phase = true) (hf : s.fifo = [])
    (hl : r.length = s.rxlen.toNat) (hh : Holds s.rxbuf 0 r) :
    ∃ t, tick none s = .next t ∧ t.rxlen = s.rxlen ∧ t.rxbuf = s.rxbuf ∧ t.fifo = [] ∧
      (s.now + 1 < s.deadline → t.phase = s.phase ∧ t.deadline = s.deadline) ∧
      (s.deadline ≤ s.now + 1 → s.phase = .waitFirst → Reports t (undecoded .timeout)) ∧
      (s.deadline ≤ s.now + 1 → s.phase ≠ .waitFirst → Reports t (decodeFrame s.cfg r)) := by
  obtain ⟨t, ht, o, -⟩ := tick_ticked none h hr hl hh
  rw [show (lineInput none s).fifo = [] from hf] at o
  obtain ⟨hmoved, -, -, hstands, htimesOut, hdecodes⟩ := o
  have hph : receptionPhase (r ++ []) = s.phase := by rw [List.append_nil, receptionPhase_received h hl hh hr]
  have hne : receptionPhase (r ++ []) ≠ .idle := fun hidle => by
    rw [← hph, hidle] at hr
    cases hr
  rw [moved_all hne, List.length_append, List.length_nil, Nat.add_zero] at hmoved
  rw [tickDeadline_of_same hph (.inl rfl), hph] at hstands htimesOut hdecodes
  rw [List.append_nil] at hdecodes
  have hne' := hph ▸ hne
  obtain ⟨hlen, hbuf, hfifo⟩ := hmoved.unmoved h (inv_of_tick h ht) hl hh
  refine ⟨t, ht, hlen, hbuf, hfifo, fun hlt => ?_, htimesOut hne', hdecodes hne'⟩
  obtain ⟨hphase, hdeadline, -⟩ := hstands hne' hlt
  exact ⟨hphase, hdeadline⟩

end Ticks

/-! ### The codes of a reception that has ended (R162) -/

section Codes

variable {p : Params} {bs : List Byte}

theorem code_of_hdr (h : receptionPhase bs = .hdr) : (decodeFrame p bs).code = .shortResponse := by
  obtain ⟨-, h3⟩ := standsIn_of_eq h
  rw [decodeFrame_of_length_lt_three h3]
  rfl

theorem code_of_body (h : receptionPhase bs = .body) : (decodeFrame p bs).code = .incompleteFrame := by
  obtain ⟨h3, hlt⟩ := standsIn_of_eq h
  rw [decodeFrame_of_incomplete h3 hlt]
  rfl

/-- A full frame of at least MIN_FRAME bytes is accepted or has a wrong CRC (R120). -/
theorem code_of_full (h3 : 3 ≤ bs.length) (hfull : frameLenOf bs ≤ bs.length)
    (hmin : p.minFrame ≤ frameLenOf bs) :
    (decodeFrame p bs).code = .none ∨ (decodeFrame p bs).code = .crcMismatch := by
  rw [decodeFrame_of_full h3 hfull hmin]
  exact checkedVerdict_code p bs

theorem code_of_silence_short (h : receptionPhase bs = .silence) (hmin : bs.length < p.minFrame) :
    (decodeFrame p bs).code = .shortResponse := by
  obtain ⟨h3, hu⟩ := standsIn_of_eq h
  exact (shortResponse_iff_of_not_knownFc h3 hu).mpr hmin

theorem code_of_silence (h : receptionPhase bs = .silence) (hmin : p.minFrame ≤ bs.length) :
    (decodeFrame p bs).code = .none ∨ (decodeFrame p bs).code = .crcMismatch := by
  obtain ⟨h3, hu⟩ := standsIn_of_eq h
  have hlen := frameLenOf_of_not_knownFc hu
  exact code_of_full h3 hlen.le (hlen ▸ hmin)

end Codes

/-- The code a report shows. -/
theorem errcode_of_reports {t : State} {v : Verdict} (h : Reports t v) : t.errcode = v.code := by
  obtain ⟨-, -, -, hcode, -⟩ := h
  exact hcode

/-! ### One more byte, phase by phase -/

section OneByte

variable {s : State} {r : List Byte} (h : Inv s) (hl : r.length = s.rxlen.toNat) (b : Byte)

include hl

/-- The second byte leaves the header incomplete (R156). -/
theorem receptionPhase_second (h1 : s.rxlen = 1) : receptionPhase (r ++ [b]) = .hdr := by
  have hlen : r.length = 1 := by rw [hl, h1]; rfl
  exact receptionPhase_of_header (by simp) (by simp; omega)

/-- The third byte ends the header read: BODY with the length its header declares, or SILENCE (R157). -/
theorem receptionPhase_third {fc : Byte} (h2 : s.rxlen = 2) (hh : Holds s.rxbuf 0 r)
    (hfc : s.rxbuf.get 1 = some fc) :
    (∃ n, declaredLen fc b = some n ∧ receptionPhase (r ++ [b]) = .body ∧ receiveLimit (r ++ [b]) = n) ∨
      (¬ KnownFc fc ∧ receptionPhase (r ++ [b]) = .silence) := by
  have hlen : r.length = 2 := by rw [hl, h2]; rfl
  have hall : (r ++ [b]).length = 3 := by simp [hlen]
  have hhead : declaredLen ((r ++ [b]).getD 1 0) ((r ++ [b]).getD 2 0) = declaredLen fc b := by
    rw [getD_append_front (by omega), getD_received hh (by omega), hfc, Option.getD_some]
    congr 1
    simp [← hlen]
  cases hd : declaredLen fc b with
  | some n =>
    have := declaredLen_bounds hd
    rw [hd] at hhead
    exact .inl ⟨n, rfl, (receptionPhase_known hall.ge hhead).trans (if_pos (by omega)),
      by rw [receiveLimit_header hall.ge, hhead, Option.getD_some]⟩
  | none =>
    rw [hd] at hhead
    exact .inr ⟨declaredLen_eq_none_iff.mp hd,
      (receptionPhase_unknown hall.ge hhead).trans (if_pos (by omega))⟩

include h

/-- In BODY one more byte leaves the declared length (R158). -/
theorem body_byte (hp : s.phase = .body) (hh : Holds s.rxbuf 0 r) :
    3 ≤ (r ++ [b]).length ∧ declaredLen ((r ++ [b]).getD 1 0) ((r ++ [b]).getD 2 0) = some s.need ∧
      receiveLimit (r ++ [b]) = s.need ∧ frameLenOf (r ++ [b]) = s.need := by
  obtain ⟨h3, hlt, hd⟩ := received_body h hl hh hp
  have hall : 3 ≤ (r ++ [b]).length := by simp; omega
  rw [← getD_append_front (q := [b]) (by omega), ← getD_append_front (r := r) (q := [b]) (by omega)] at hd
  exact ⟨hall, hd, by rw [receiveLimit_header hall, hd, Option.getD_some],
    by rw [frameLenOf, frameLen, hd, Option.getD_some]⟩

/-- A byte before the last leaves the body incomplete (R158). -/
theorem receptionPhase_body_byte (hp : s.phase = .body) (hh : Holds s.rxbuf 0 r)
    (hlt : s.rxlen.toNat + 1 < s.need) : receptionPhase (r ++ [b]) = .body := by
  obtain ⟨hall, hd, -⟩ := body_byte h hl b hp hh
  exact (receptionPhase_known hall hd).trans (if_pos (by simp; omega))

/-- In SILENCE one more byte fits up to RX_CAP, and none beyond (R159, R164). -/
theorem silence_byte (hp : s.phase = .silence) (hh : Holds s.rxbuf 0 r) :
    ¬ KnownFc ((r ++ [b]).getD 1 0) ∧ receiveLimit (r ++ [b]) = 260 ∧
      receptionPhase (r ++ [b]) = if s.rxlen.toNat + 1 ≤ 260 then .silence else .idle := by
  obtain ⟨h3, hcap, hd⟩ := received_silence h hl hh hp
  have hall : 3 ≤ (r ++ [b]).length := by simp; omega
  rw [← getD_append_front (q := [b]) (by omega), ← getD_append_front (r := r) (q := [b]) (by omega)] at hd
  refine ⟨declaredLen_eq_none_iff.mp hd, by rw [receiveLimit_header hall, hd]; rfl, ?_⟩
  rw [receptionPhase_unknown hall hd, List.length_append, List.length_singleton, hl]

end OneByte

/-- Settles O35: the second byte leaves the wait, and the third starts the one its header selects. -/
theorem headerDispatch : Obligations.HeaderDispatch := by
  intro s b h hp hf
  have hr : Receiving s.phase = true := hp ▸ rfl
  obtain ⟨r, hl, hh⟩ := exists_received h hr
  refine ⟨fun h1 hd => ?second, fun fc h2 hfc => ?third⟩
  case second =>
    have hph := (receptionPhase_second hl b h1).trans hp.symm
    obtain ⟨t, ht, ⟨hlen, -, hbyte, hkeeps⟩, hstands, -⟩ := tick_byte_same_wait h hf hl hh (.inl hp) hph
    obtain ⟨hphase, hdeadline, -⟩ := hstands hd
    rw [h1] at hlen hbyte hkeeps
    exact ⟨t, ht, hphase.trans hp, BitVec.eq_of_toNat_eq hlen, hbyte, hkeeps, hdeadline⟩
  case third =>
    have hthird := receptionPhase_third hl b h2 hh hfc
    have hnot : ∀ p : Phase, p ≠ .body → p ≠ .silence → receptionPhase (r ++ [b]) ≠ p := fun p h1 h2 e => by
      rcases hthird with ⟨n, -, hph, -⟩ | ⟨-, hph⟩
      · exact h1 (e.symm.trans hph)
      · exact h2 (e.symm.trans hph)
    obtain ⟨t, ht, ⟨hlen, -, hbyte, hkeeps⟩, hphase, hdeadline, hneed⟩ := tick_byte_new_wait h hr hf hl hh
      (hnot .idle nofun nofun) (.inl (hp ▸ hnot .hdr nofun nofun))
    rw [h2] at hlen hbyte hkeeps
    have known : ∀ n, declaredLen fc b = some n →
        t.phase = .body ∧ t.need = n ∧ t.deadline = s.now + 1 + tRead s.cfg s.baud := by
      intro n hn
      rcases hthird with ⟨k, hk, hph, hlimit⟩ | ⟨hu, -⟩
      · cases hk.symm.trans hn
        exact ⟨hphase.trans hph, (hneed hph).trans hlimit, hdeadline.trans (by rw [hph]; rfl)⟩
      · exact absurd (declaredLen_known.mp ⟨n, hn⟩) hu
    refine ⟨t, ht, BitVec.eq_of_toNat_eq hlen, hbyte, hkeeps, fun hk => known _ (if_pos hk),
      fun hk => known 8 (by rw [hk]; rfl), fun hu => ?_⟩
    rcases hthird with ⟨n, hn, -⟩ | ⟨-, hph⟩
    · exact absurd (declaredLen_known.mp ⟨n, hn⟩) hu
    · exact ⟨hphase.trans hph, hdeadline.trans (by rw [hph]; rfl)⟩

/-- Settles O36: the byte leaves the declared length unreached, and BODY stands, or reaches it, and the
frame is decoded. -/
theorem bodyCompletesOnTheDeclaredLength : Obligations.BodyCompletesOnTheDeclaredLength := by
  intro s b h hp hf
  have hr : Receiving s.phase = true := hp ▸ rfl
  obtain ⟨r, hl, hh⟩ := exists_received h hr
  obtain ⟨hall, hd, hlimit, hframe⟩ := body_byte h hl b hp hh
  refine ⟨fun hlt hahead => ?before, fun hlast => ?last⟩
  case before =>
    have hph := (receptionPhase_body_byte h hl b hp hh hlt).trans hp.symm
    obtain ⟨t, ht, ⟨hlen, -, hbyte, hkeeps⟩, hstands, -⟩ := tick_byte_same_wait h hf hl hh (.inr hp) hph
    obtain ⟨hphase, hdeadline, hneed⟩ := hstands hahead
    exact ⟨t, ht, hphase.trans hp, hlen, hbyte, hkeeps, hdeadline, (hneed hp).trans hlimit⟩
  case last =>
    have hbounds := declaredLen_bounds hd
    have hlen : (r ++ [b]).length = s.need := by simp; omega
    obtain ⟨t, ht, o⟩ := tick_byte h hr hf hl hh b
    obtain ⟨⟨hlen', -, -, hkeeps⟩, hholds⟩ := o.stored hl hh (by omega)
    have hreport := o.known ((receptionPhase_known hall hd).trans (if_neg (by omega)))
      (declaredLen_known.mp ⟨_, hd⟩)
    rw [hlimit, hlen, Nat.min_self, List.take_of_length_le hlen.le] at hreport
    refine ⟨t, r ++ [b], ht, hlen, hholds, fun i hi => ?_, by simp [← hl], hkeeps, hlen'.trans hlast,
      hreport, fun hmin => ?_⟩
    · rw [List.getElem?_append_left (by omega), get_of_holds hh (by omega)]
    · rw [errcode_of_reports hreport]
      exact code_of_full hall (by omega) (by omega)

/-- Settles O39: the byte fits, and the silence restarts, or it is a byte too many. -/
theorem silenceRestartsUntilTheBufferIsFull : Obligations.SilenceRestartsUntilTheBufferIsFull := by
  intro s b h hp hf
  have hr : Receiving s.phase = true := hp ▸ rfl
  obtain ⟨r, hl, hh⟩ := exists_received h hr
  obtain ⟨hu, hlimit, hph⟩ := silence_byte h hl b hp hh
  refine ⟨fun hroom => ?restarts, fun hfull => ?tooLong⟩
  case restarts =>
    rw [if_pos (by omega)] at hph
    obtain ⟨t, ht, ⟨hlen, -, hbyte, hkeeps⟩, hphase, hdeadline, -⟩ :=
      tick_byte_new_wait h hr hf hl hh (hph ▸ nofun) (.inr hph)
    rw [hph] at hphase hdeadline
    exact ⟨t, ht, hphase, hlen, hbyte, hkeeps, hdeadline⟩
  case tooLong =>
    rw [if_neg (by omega)] at hph
    obtain ⟨t, ht, o⟩ := tick_byte h hr hf hl hh b
    have hmoved := o.moved
    rw [hlimit, Nat.min_eq_left (by simp; omega), show 260 = r.length by omega] at hmoved
    obtain ⟨hlen, hbuf, hfifo⟩ := hmoved.unmoved h (inv_of_tick h ht) hl hh
    obtain ⟨hidle, hdone, herr, hcode, hresp⟩ := o.unknown hph hu
    exact ⟨t, ht, hidle, hdone, herr, hcode, hlen, hbuf, hfifo, hresp⟩

/-! ### The end of a wait (R161 to R163) -/

/-- Settles O37: `tick_none` with the codes of the phases, and `tick_byte_same_wait` on the deadline tick. -/
theorem receptionEndsAtTheDeadline : Obligations.ReceptionEndsAtTheDeadline := by
  refine ⟨fun s r h hr hf hl hh => ?_, rfl⟩
  have hph := receptionPhase_received h hl hh hr
  obtain ⟨t, ht, hlen, hbuf, -, hstands, htimesOut, hdecodes⟩ := tick_none h hr hf hl hh
  refine ⟨fun hlt => ⟨t, ht, ?stands⟩, fun hd => ⟨t, ht, (tick_now ht).trans hd, hlen, hbuf,
    htimesOut hd.ge, hdecodes hd.ge, fun hp => ?hdr, fun hp => ?body, fun hp hmin => ?short,
    fun hp hmin => ?full⟩, fun b hd hcase => ?byte⟩
  case stands =>
    obtain ⟨hphase, hdeadline⟩ := hstands hlt
    exact ⟨hphase, hlen, hbuf, hdeadline⟩
  case hdr =>
    rw [errcode_of_reports (hdecodes hd.ge (hp ▸ nofun))]
    exact code_of_hdr (hph.trans hp)
  case body =>
    rw [errcode_of_reports (hdecodes hd.ge (hp ▸ nofun))]
    exact code_of_body (hph.trans hp)
  case short =>
    rw [errcode_of_reports (hdecodes hd.ge (hp ▸ nofun))]
    exact code_of_silence_short (hph.trans hp) (hl ▸ hmin)
  case full =>
    rw [errcode_of_reports (hdecodes hd.ge (hp ▸ nofun))]
    exact code_of_silence (hph.trans hp) (hl ▸ hmin)
  case byte =>
    have hphb : receptionPhase (r ++ [b]) = s.phase := by
      rcases hcase with ⟨hp, h1⟩ | ⟨hp, hlt⟩
      · exact (receptionPhase_second hl b h1).trans hp.symm
      · exact (receptionPhase_body_byte h hl b hp hh hlt).trans hp.symm
    obtain ⟨u, hu, ⟨hlen', -, hbyte, hkeeps⟩, -, hdecodes'⟩ :=
      tick_byte_same_wait h hf hl hh (hcase.imp And.left And.left) hphb
    have hcode := errcode_of_reports (hdecodes' hd.ge)
    exact ⟨u, hu, hlen', hbyte, hkeeps, hdecodes' hd.ge, fun hp => hcode.trans (code_of_hdr (hphb.trans hp)),
      fun hp => hcode.trans (code_of_body (hphb.trans hp))⟩

/-! ### The first-byte window (R155, R161, R163) -/

section Window

variable {s : State}

/-- The first byte is received on any tick of the window and starts the header read (R155). -/
theorem tick_first_byte (h : Inv s) (hp : s.phase = .waitFirst) (hf : s.fifo = []) (b : Byte) :
    ∃ t, tick (some b) s = .next t ∧ t.phase = .hdr ∧ t.rxlen = 1 ∧ t.rxbuf.get 0 = some b ∧
      (∀ i, i ≠ 0 → t.rxbuf.get i = s.rxbuf.get i) ∧ t.fifo = [] ∧
      t.deadline = s.now + 1 + tRead s.cfg s.baud := by
  have hr : Receiving s.phase = true := hp ▸ rfl
  obtain ⟨r, hl, hh⟩ := exists_received h hr
  obtain rfl := received_waitFirst h hl hp
  have hph : receptionPhase ([] ++ [b]) = .hdr := rfl
  obtain ⟨t, ht, ⟨hlen, hfifo, hbyte, hkeeps⟩, hphase, hdeadline, -⟩ :=
    tick_byte_new_wait (b := b) h hr hf hl hh (hph ▸ nofun) (.inl (by rw [hph, hp]; nofun))
  rw [← hl] at hlen hbyte hkeeps
  exact ⟨t, ht, hphase, BitVec.eq_of_toNat_eq hlen, hbyte, hkeeps, hfifo, hdeadline⟩

/-- A tick without a byte within the window leaves the wait (R161). -/
theorem tick_none_waitFirst (h : Inv s) (hp : s.phase = .waitFirst) (hf : s.fifo = [])
    (hlt : s.now + 1 < s.deadline) :
    ∃ t, tick none s = .next t ∧ Inv t ∧ t.phase = .waitFirst ∧ t.fifo = [] ∧ t.now = s.now + 1 ∧
      t.deadline = s.deadline := by
  have hr : Receiving s.phase = true := hp ▸ rfl
  obtain ⟨r, hl, hh⟩ := exists_received h hr
  obtain ⟨t, ht, -, -, hfifo, hstands, -⟩ := tick_none h hr hf hl hh
  obtain ⟨hphase, hdeadline⟩ := hstands hlt
  exact ⟨t, ht, inv_of_tick h ht, hphase.trans hp, hfifo, tick_now ht, hdeadline⟩

end Window

/-- Silence within the window leaves the wait, tick after tick (R161). -/
theorem runTicks_waitFirst : ∀ (n : Nat) (s : State), Inv s → s.phase = .waitFirst → s.fifo = [] →
    n < s.deadline - s.now → ∃ t, runTicks (List.replicate n none) s = .next t ∧ t.phase = .waitFirst := by
  intro n
  induction n with
  | zero => intro s _ hp _ _; exact ⟨s, rfl, hp⟩
  | succ n ih =>
    intro s h hp hf hn
    obtain ⟨u, hu, hinv, hphase, hfifo, hnow, hdeadline⟩ := tick_none_waitFirst h hp hf (by omega)
    obtain ⟨t, ht, hwait⟩ := ih u hinv hphase hfifo (by omega)
    refine ⟨t, ?_, hwait⟩
    rw [List.replicate_succ, runTicks, hu]
    exact ht

/-- Silence until the deadline tick ends the exchange on it (R163). -/
theorem runTicks_timeout : ∀ (n : Nat) (s : State), Inv s → s.phase = .waitFirst → s.fifo = [] →
    n + 1 = s.deadline - s.now → ∃ t, runTicks (List.replicate (n + 1) none) s = .next t ∧
      t.now = s.deadline ∧ t.rxlen = 0 ∧ Reports t (undecoded .timeout) := by
  intro n
  induction n with
  | zero =>
    intro s h hp hf hn
    have hr : Receiving s.phase = true := hp ▸ rfl
    obtain ⟨r, hl, hh⟩ := exists_received h hr
    obtain ⟨t, ht, hlen, -, -, -, htimesOut, -⟩ := tick_none h hr hf hl hh
    have hzero : s.rxlen = 0 := by
      refine BitVec.eq_of_toNat_eq (hl.symm.trans ?_)
      rw [received_waitFirst h hl hp]
      rfl
    refine ⟨t, ?_, (tick_now ht).trans (by omega), hlen.trans hzero, htimesOut (by omega) hp⟩
    rw [List.replicate_one, runTicks, ht]
    rfl
  | succ n ih =>
    intro s h hp hf hn
    obtain ⟨u, hu, hinv, hphase, hfifo, hnow, hdeadline⟩ := tick_none_waitFirst h hp hf (by omega)
    obtain ⟨t, ht, hnow', hlen, hreport⟩ := ih u hinv hphase hfifo (by omega)
    refine ⟨t, ?_, hnow'.trans hdeadline, hlen, hreport⟩
    rw [List.replicate_succ, runTicks, hu]
    exact ht

/-- Settles O34: a byte, silence up to the deadline tick, and silence within the window. -/
theorem firstByteWindow : Obligations.FirstByteWindow := by
  intro s h hp hf
  refine ⟨tick_first_byte h hp hf, ?_, fun n hn => runTicks_waitFirst n s h hp hf hn⟩
  have hahead : s.now < s.deadline := by
    obtain ⟨-, -, -, -, -, -, -, -, -, -, -, hdue⟩ := h
    exact (hdue (hp ▸ rfl)).1
  obtain ⟨n, hn⟩ : ∃ n, s.deadline - s.now = n + 1 := ⟨s.deadline - s.now - 1, by omega⟩
  obtain ⟨t, ht, hnow, hlen, hidle, hdone, herr, hcode, hresp⟩ := runTicks_timeout n s h hp hf hn.symm
  rw [hn]
  exact ⟨t, ht, hnow, hidle, hdone, herr, hcode, hlen, hresp⟩

end Sys2Proof.Machine
